-- ==== Sys2Proof/Word.lean ====
section
/-! DEFINITION. The word types of the WMMX2 model (spec/00_scope.md R9): byte, half word, word and double word as
bit vectors, and the register-number types. -/

namespace Sys2Proof

/-- 8 bits (R9). -/
abbrev Byte := BitVec 8

/-- 32 bits (R9): core registers, addresses, control registers, instruction words. -/
abbrev Word := BitVec 32

/-- 64 bits (R9): data registers. -/
abbrev DWord := BitVec 64

/-- The number of a data register wR0 to wR15 (spec/10_state.md R22). -/
abbrev DReg := Fin 16

/-- The number of an ARM core register R0 to R14 that an instruction may name as an operand. R15 is the program
counter and is no operand of this type (spec/10_state.md R36; notes/assumptions/10.md). -/
abbrev CoreReg := Fin 15

/-- The number k of a general-purpose control register wCGRk (spec/10_state.md R23, R29). -/
abbrev CgrIndex := Fin 4

end Sys2Proof
end

