-- ==== Sys2Proof/Config.lean ====
section
/-! DEFINITION. What the spec leaves open (spec/00_scope.md R7): the parameters of an implementation and the free values.
None of the opaque constants has a body, so no proof can rest on a value of one. -/

namespace Sys2Proof

/-- The two readings of the C flag of a subtraction (spec/43_arithmetic_compare.md R213). -/
inductive SubCarry where
  /-- C = 1 when there is no borrow. -/
  | notBorrow
  /-- C = 1 when there is a borrow. -/
  | borrow
  deriving DecidableEq, Repr, Inhabited

/-- `WCID_VALUE`: what a read of wCID returns (spec/10_state.md R28; notes/assumptions/5.md). Free value, marked
DESIGN CHOICE in its form only: the spec leaves the value OPEN. Safe. -/
opaque Config.wcidValue : Word

/-- `SUB_CARRY`: the sense of C after a subtraction (R213; notes/assumptions/17.md). Safe. -/
opaque Config.subCarry : SubCarry

/-- The k-th free 64-bit value: a data register after a class P word (notes/assumptions/12.md). Safe. -/
opaque Config.freeDWord : Nat → DWord

/-- The k-th free 32-bit value: the reserved bits of a read of wCon or wCSSF (spec/10_state.md R21, R27, R31;
notes/assumptions/15.md), and the 32-bit destinations of a class P word (notes/assumptions/12.md). Safe. -/
opaque Config.freeWord : Nat → Word

/-- The k-th free 8-bit value: wCSSF after a class P word (notes/assumptions/12.md). Safe. -/
opaque Config.freeByte : Nat → Byte

/-- The k-th free 4-bit value: the CPSR flags after a class P word (notes/assumptions/12.md). Safe. -/
opaque Config.freeNibble : Nat → BitVec 4

/-- The k-th free bit: `CUP_ON_NO_SATURATION` treated as a draw (spec/10_state.md R33; notes/assumptions/16.md), and MUP
and CUP after a class P word (notes/assumptions/12.md). Safe. -/
opaque Config.freeBit : Nat → Bool

end Sys2Proof
end

