-- ==== Sys2Proof/Syntax.lean ====
section
/-! DEFINITION. The syntax of the WMMX2 instruction set: qualifiers, addressing modes, and `Instr`, one constructor per row
of spec/opcode_table.json. -/

namespace Sys2Proof

/-- The fifteen ARM condition specifiers (spec/30_encoding.md R93). -/
inductive Cond where
  | eq | ne | cs | cc | mi | pl | vs | vc | hi | ls | ge | lt | gt | le | al
  deriving DecidableEq, Repr

/-- Size qualifier B, H, W (spec/43_arithmetic_compare.md R195, spec/40_transfer.md R130 (f)). -/
inductive Bhw where
  | b | h | w
  deriving DecidableEq, Repr

/-- Size qualifier B, H (WAVG2, WSAD: R168, R223). -/
inductive Bh where
  | b | h
  deriving DecidableEq, Repr

/-- Size qualifier H, W, D (shifts and WPACK: R180, R250). -/
inductive Hwd where
  | h | w | d
  deriving DecidableEq, Repr

/-- Size qualifier B, H, W, D of WLDR and WSTR (spec/46_load_store.md R271). -/
inductive Bhwd where
  | b | h | w | d
  deriving DecidableEq, Repr

/-- Signedness qualifier U, S. -/
inductive Sign where
  | u | s
  deriving DecidableEq, Repr

/-- Half selector of an xy position: B bottom, T top. -/
inductive Half where
  | b | t
  deriving DecidableEq, Repr

/-- Saturation qualifier of WADD: none, US, SS, or the carry-in form C (R203). -/
inductive AddKind where
  | none | us | ss | c
  deriving DecidableEq, Repr

/-- Saturation qualifier of WSUB: none, US, SS (R211). -/
inductive SubKind where
  | none | us | ss
  deriving DecidableEq, Repr

/-- Saturation qualifier of WPACK: US, SS (R250). -/
inductive PackKind where
  | us | ss
  deriving DecidableEq, Repr

/-- The six forms of WMUL: sign, kept half, rounding (R237). -/
inductive MulKind where
  | ul | um | sl | sm | umr | smr
  deriving DecidableEq, Repr

/-- The five forms of WMULW (R239). -/
inductive MulwKind where
  | l | um | umr | sm | smr
  deriving DecidableEq, Repr

/-- The forms of WMADD beside its sign: plain, cross (X), negate (N) (R232). -/
inductive MaddKind where
  | plain | x | n
  deriving DecidableEq, Repr

/-- The eight implemented control registers (spec/10_state.md R23). -/
inductive CtrlReg where
  | wCID | wCon | wCSSF | wCASF
  | wCGR (k : CgrIndex)
  deriving DecidableEq, Repr

/-- The six supported (P,U,W) combinations (spec/46_load_store.md R272). `up` is the U bit: the offset is added. -/
inductive AddrMode where
  /-- P = 0, W = 1: the base is accessed and then updated. -/
  | post (up : Bool)
  /-- P = 1: base plus or minus offset is accessed; `wb` is the W bit: the base is updated. -/
  | pre (up wb : Bool)
  deriving DecidableEq, Repr

/-- The instructions, one constructor per row of spec/opcode_table.json, in the order of the table. A first operand `c` is
the condition; a form without it is unconditional. `d`, `n`, `m` are wRd, wRn, wRm. -/
inductive Instr where
  -- 40_transfer.md
  | tandc (c : Cond) (sz : Bhw)
  | tbcst (c : Cond) (sz : Bhw) (d : DReg) (rn : CoreReg)
  | textrc (c : Cond) (sz : Bhw) (imm : BitVec 3)
  | textrm (c : Cond) (sg : Sign) (sz : Bhw) (rd : CoreReg) (n : DReg) (imm : BitVec 3)
  | tinsr (c : Cond) (sz : Bhw) (d : DReg) (rn : CoreReg) (imm : BitVec 3)
  | tmcr (c : Cond) (cx : CtrlReg) (rn : CoreReg)
  | tmcrr (c : Cond) (d : DReg) (rdLo rdHi : CoreReg)
  | tmia (c : Cond) (d : DReg) (rm rs : CoreReg)
  | tmiaph (c : Cond) (d : DReg) (rm rs : CoreReg)
  | tmiaxy (c : Cond) (x y : Half) (d : DReg) (rm rs : CoreReg)
  | tmovmsk (c : Cond) (sz : Bhw) (rd : CoreReg) (n : DReg)
  | tmrc (c : Cond) (rd : CoreReg) (cx : CtrlReg)
  | tmrrc (c : Cond) (rdLo rdHi : CoreReg) (n : DReg)
  | torc (c : Cond) (sz : Bhw)
  | torvsc (c : Cond) (sz : Bhw)
  -- 41_logic_average_align.md
  | wor (c : Cond) (d n m : DReg)
  | wxor (c : Cond) (d n m : DReg)
  | wand (c : Cond) (d n m : DReg)
  | wandn (c : Cond) (d n m : DReg)
  | wavg4 (c : Cond) (r : Bool) (d n m : DReg)
  | wavg2 (c : Cond) (sz : Bh) (r : Bool) (d n m : DReg)
  | waligni (c : Cond) (d n m : DReg) (imm : BitVec 3)
  | walignr (c : Cond) (k : CgrIndex) (d n m : DReg)
  -- 42_shift_rotate.md
  | wsra (c : Cond) (sz : Hwd) (d n m : DReg)
  | wsraG (c : Cond) (sz : Hwd) (d n : DReg) (k : CgrIndex)
  | wsraI (sz : Hwd) (d n : DReg) (imm : BitVec 5)
  | wsll (c : Cond) (sz : Hwd) (d n m : DReg)
  | wsllG (c : Cond) (sz : Hwd) (d n : DReg) (k : CgrIndex)
  | wsllI (sz : Hwd) (d n : DReg) (imm : BitVec 5)
  | wsrl (c : Cond) (sz : Hwd) (d n m : DReg)
  | wsrlG (c : Cond) (sz : Hwd) (d n : DReg) (k : CgrIndex)
  | wsrlI (sz : Hwd) (d n : DReg) (imm : BitVec 5)
  | wror (c : Cond) (sz : Hwd) (d n m : DReg)
  | wrorG (c : Cond) (sz : Hwd) (d n : DReg) (k : CgrIndex)
  | wrorI (sz : Hwd) (d n : DReg) (imm : BitVec 5)
  -- 43_arithmetic_compare.md, 44_multiply.md, 45_pack_unpack_shuffle.md, in the table's order
  | wcmpeq (c : Cond) (sz : Bhw) (d n m : DReg)
  | wcmpgt (c : Cond) (sg : Sign) (sz : Bhw) (d n m : DReg)
  | wmerge (c : Cond) (d n m : DReg) (imm : BitVec 3)
  | wqmulm (c : Cond) (r : Bool) (d n m : DReg)
  | wpack (c : Cond) (sz : Hwd) (k : PackKind) (d n m : DReg)
  | wmiaxy (c : Cond) (neg : Bool) (x y : Half) (d n m : DReg)
  | wqmiaxy (c : Cond) (neg : Bool) (x y : Half) (d n m : DReg)
  | wunpckeh (c : Cond) (sg : Sign) (sz : Bhw) (d n : DReg)
  | wunpckih (c : Cond) (sz : Bhw) (d n m : DReg)
  | wmulw (c : Cond) (k : MulwKind) (d n m : DReg)
  | wunpckel (c : Cond) (sg : Sign) (sz : Bhw) (d n : DReg)
  | wunpckil (c : Cond) (sz : Bhw) (d n m : DReg)
  | wqmulwm (c : Cond) (r : Bool) (d n m : DReg)
  | wmul (c : Cond) (k : MulKind) (d n m : DReg)
  | wmac (c : Cond) (sg : Sign) (z : Bool) (d n m : DReg)
  | wmadd (c : Cond) (sg : Sign) (k : MaddKind) (d n m : DReg)
  | wsad (c : Cond) (sz : Bh) (z : Bool) (d n m : DReg)
  | wmiawxy (c : Cond) (neg : Bool) (x y : Half) (d n m : DReg)
  | wmax (c : Cond) (sg : Sign) (sz : Bhw) (d n m : DReg)
  | wmin (c : Cond) (sg : Sign) (sz : Bhw) (d n m : DReg)
  | wadd (c : Cond) (sz : Bhw) (k : AddKind) (d n m : DReg)
  | wsub (c : Cond) (sz : Bhw) (k : SubKind) (d n m : DReg)
  | waddsubhx (c : Cond) (d n m : DReg)
  | wacc (c : Cond) (sz : Bhw) (d n : DReg)
  | wabsdiff (c : Cond) (sz : Bhw) (d n m : DReg)
  | wabs (c : Cond) (sz : Bhw) (d n : DReg)
  | wsubaddhx (c : Cond) (d n m : DReg)
  | wshufh (c : Cond) (d n : DReg) (imm : BitVec 8)
  -- 46_load_store.md
  | wldr (c : Cond) (sz : Bhwd) (am : AddrMode) (d : DReg) (rn : CoreReg) (off : BitVec 8)
  | wldrd (am : AddrMode) (d : DReg) (rn rm : CoreReg) (sh : BitVec 4)
  | wldrw (am : AddrMode) (cx : CtrlReg) (rn : CoreReg) (off : BitVec 8)
  | wstr (c : Cond) (sz : Bhwd) (am : AddrMode) (m : DReg) (rn : CoreReg) (off : BitVec 8)
  | wstrd (am : AddrMode) (m : DReg) (rn rm : CoreReg) (sh : BitVec 4)
  | wstrw (am : AddrMode) (cx : CtrlReg) (rn : CoreReg) (off : BitVec 8)
  -- the two alias rows (R164, R165)
  | wmov (c : Cond) (d n : DReg)
  | wzero (c : Cond) (d : DReg)
  deriving DecidableEq, Repr

end Sys2Proof
end

