-- ==== Sys2Proof/WellFormed.lean ====
section
/-! DEFINITION. Well-formed instructions: the terms of `Instr` that some instruction word stands for. The types of the
operands already exclude every reserved register number, qualifier value and addressing mode; what is left are the
combinations of operands below. -/

namespace Sys2Proof

/-- Each check is one combination of operands that no word of this row encodes: a WOR of one source twice is WMOV (R164),
a WANDN of one register three times is WZERO (R165), WADDB with C is a reserved encoding (R203), and TMRRC may not name
one destination twice (R143). -/
def Instr.wellFormed : Instr → Bool
  | .wor _ _ n m => n != m
  | .wandn _ d n m => !(d == n && n == m)
  | .wadd _ sz k _ _ _ => !(sz == .b && k == .c)
  | .tmrrc _ rdLo rdHi _ => rdLo != rdHi
  | _ => true

end Sys2Proof
end

