-- ==== Sys2Proof/Decode.lean ====
section
/-! DEFINITION. Decoding of instruction words (spec/30_encoding.md R90 to R108, spec/46_load_store.md R283) and, after it,
the encoder written from the same bit rows. Decoding is total: every 32-bit word is an instruction, class U, class P or
the host's (R105). -/

namespace Sys2Proof

/-- `v[i]` for one bit (spec/00_scope.md R8). -/
def bitAt {w : Nat} (v : BitVec w) (i : Nat) : Bool := v.getLsbD i

/-- `v[lo + len - 1 : lo]` (R8). -/
def bitsAt {w : Nat} (v : BitVec w) (lo len : Nat) : BitVec len := v.extractLsb' lo len

/-! ### The fields of a word -/

/-- The slices of an instruction word that the formats R94 to R100 share, most significant first. -/
structure Fields where
  /-- `I[31:28]` -/
  c : BitVec 4
  /-- `I[27:25]` -/
  k : BitVec 3
  /-- `I[24]`, the P bit of a load or store -/
  p : Bool
  /-- `I[23:20]`: Opcode1 of CDP; Opcode1 and L of MCR and MRC; U, N, W and L of a load or store -/
  op1 : BitVec 4
  /-- `I[19:16]` -/
  crn : BitVec 4
  /-- `I[15:12]` -/
  crd : BitVec 4
  /-- `I[11:9]` -/
  cpHi : BitVec 3
  /-- `I[8]` -/
  cp : Bool
  /-- `I[7:5]` -/
  op2 : BitVec 3
  /-- `I[4]` -/
  b4 : Bool
  /-- `I[3:0]` -/
  crm : BitVec 4
  deriving DecidableEq, Repr

/-- The slices of a word. -/
def fieldsOf (w : Word) : Fields where
  c := bitsAt w 28 4
  k := bitsAt w 25 3
  p := bitAt w 24
  op1 := bitsAt w 20 4
  crn := bitsAt w 16 4
  crd := bitsAt w 12 4
  cpHi := bitsAt w 9 3
  cp := bitAt w 8
  op2 := bitsAt w 5 3
  b4 := bitAt w 4
  crm := bitsAt w 0 4

/-- The word of given slices. -/
def assemble (f : Fields) : Word :=
  f.c ++ f.k ++ BitVec.ofBool f.p ++ f.op1 ++ f.crn ++ f.crd ++ f.cpHi ++ BitVec.ofBool f.cp ++ f.op2 ++
    BitVec.ofBool f.b4 ++ f.crm

/-! ### Operand fields -/

/-- The condition field of a condition (R93). -/
def condBits : Cond → BitVec 4
  | .eq => 0 | .ne => 1 | .cs => 2 | .cc => 3 | .mi => 4 | .pl => 5 | .vs => 6 | .vc => 7
  | .hi => 8 | .ls => 9 | .ge => 10 | .lt => 11 | .gt => 12 | .le => 13 | .al => 14

/-- The condition of a condition field; 1111 is no condition (R93). -/
def condOf (b : BitVec 4) : Option Cond :=
  match b.toNat with
  | 0 => some .eq | 1 => some .ne | 2 => some .cs | 3 => some .cc | 4 => some .mi | 5 => some .pl
  | 6 => some .vs | 7 => some .vc | 8 => some .hi | 9 => some .ls | 10 => some .ge | 11 => some .lt
  | 12 => some .gt | 13 => some .le | 14 => some .al | _ => none

/-- A data register field (R94). -/
def dregBits (r : DReg) : BitVec 4 := BitVec.ofFin r

/-- The data register a field names: every value is one (spec/10_state.md R22). -/
def dregOf (b : BitVec 4) : DReg := b.toFin

/-- An ARM core register field naming R0 to R14. -/
def coreBits (r : CoreReg) : BitVec 4 := BitVec.ofNat 4 r.val

/-- The core register a field names; 15 is R15, which is no operand (spec/10_state.md R36). -/
def coreOf (b : BitVec 4) : Option CoreReg :=
  if h : b.toNat < 15 then some ⟨b.toNat, h⟩ else none

/-- The number of a control register (spec/10_state.md R23). -/
def ctrlBits : CtrlReg → BitVec 4
  | .wCID => 0 | .wCon => 1 | .wCSSF => 2 | .wCASF => 3
  | .wCGR k => 2#2 ++ BitVec.ofFin (w := 2) k

/-- The control register of a number; 4 to 7 and 12 to 15 are reserved (R23, R34). -/
def ctrlOf (b : BitVec 4) : Option CtrlReg :=
  match b.toNat with
  | 0 => some .wCID | 1 => some .wCon | 2 => some .wCSSF | 3 => some .wCASF
  | 8 => some (.wCGR 0) | 9 => some (.wCGR 1) | 10 => some (.wCGR 2) | 11 => some (.wCGR 3)
  | _ => none

/-- The control register field of the G form of a shift names wCGR0 to wCGR3 as 8 to 11 (R181 (b)). -/
def cgrOf (b : BitVec 4) : Option CgrIndex :=
  match b.toNat with
  | 8 => some 0 | 9 => some 1 | 10 => some 2 | 11 => some 3 | _ => none

/-- `ww` of B, H, W (R195, R130 (f)). -/
def bhwBits : Bhw → BitVec 2
  | .b => 0 | .h => 1 | .w => 2

/-- B, H, W of `ww`; 11 is reserved or belongs to another instruction. -/
def bhwOf (b : BitVec 2) : Option Bhw :=
  match b.toNat with
  | 0 => some .b | 1 => some .h | 2 => some .w | _ => none

/-- `ww` of H, W, D (R180, R250). -/
def hwdBits : Hwd → BitVec 2
  | .h => 1 | .w => 2 | .d => 3

/-- H, W, D of `ww`; 00 is reserved or belongs to another instruction. -/
def hwdOf (b : BitVec 2) : Option Hwd :=
  match b.toNat with
  | 1 => some .h | 2 => some .w | 3 => some .d | _ => none

/-- The `h` bit of WAVG2 and WSAD (R168, R223). -/
def bhBit : Bh → Bool
  | .b => false | .h => true

/-- B or H of the `h` bit. -/
def bhOf : Bool → Bh
  | false => .b | true => .h

/-- The `s` bit. -/
def signBit : Sign → Bool
  | .u => false | .s => true

/-- U or S of the `s` bit. -/
def signOf : Bool → Sign
  | false => .u | true => .s

/-- An `x` or `y` bit: 1 T, 0 B. -/
def halfBit : Half → Bool
  | .b => false | .t => true

/-- T or B of an `x` or `y` bit. -/
def halfOf : Bool → Half
  | false => .b | true => .t

/-- `ss` of WADD (R203). -/
def addKindBits : AddKind → BitVec 2
  | .none => 0 | .us => 1 | .c => 2 | .ss => 3

/-- The form of WADD for `ss`. -/
def addKindOf (b : BitVec 2) : AddKind :=
  match b.toNat with
  | 0 => .none | 1 => .us | 2 => .c | _ => .ss

/-- `ss` of WSUB (R211). -/
def subKindBits : SubKind → BitVec 2
  | .none => 0 | .us => 1 | .ss => 3

/-- The high `ss` bit of WPACK: 0 US, 1 SS (R250). -/
def packKindBit : PackKind → Bool
  | .us => false | .ss => true

/-- US or SS of WPACK's high `ss` bit. -/
def packKindOf : Bool → PackKind
  | false => .us | true => .ss

/-- `rrsf` of WMUL (R237). -/
def mulKindBits : MulKind → BitVec 4
  | .ul => 0 | .um => 1 | .sl => 2 | .sm => 3 | .umr => 13 | .smr => 15

/-- Opcode1 of WMULW; `r` = 0 means R (R239). -/
def mulwKindBits : MulwKind → BitVec 4
  | .l => 11 | .umr => 12 | .um => 13 | .smr => 14 | .sm => 15

/-- The size pair (N, M) of a load or store (R271). -/
def bhwdBits : Bhwd → Bool × Bool
  | .b => (false, false) | .h => (true, false) | .w => (false, true) | .d => (true, true)

/-- The size of (N, M) (R271). -/
def bhwdOf : Bool → Bool → Bhwd
  | false, false => .b | true, false => .h | false, true => .w | true, true => .d

/-- The P bit of an addressing mode (R272). -/
def modeP : AddrMode → Bool
  | .post _ => false | .pre _ _ => true

/-- The U bit of an addressing mode (R272). -/
def modeU : AddrMode → Bool
  | .post up => up | .pre up _ => up

/-- The W bit of an addressing mode (R272). -/
def modeW : AddrMode → Bool
  | .post _ => true | .pre _ wb => wb

/-- The addressing mode of (P, U, W); 000 and 010 are not supported (R272). -/
def modeOf (p u w : Bool) : Option AddrMode :=
  match p, w with
  | true, w => some (.pre u w)
  | false, true => some (.post u)
  | false, false => none

/-! ### The outcome of decoding -/

/-- The destinations of an instruction form, each of which takes a free value when the word of the form is
UNPREDICTABLE and the weaker reading of spec/00_scope.md R17 is taken (notes/assumptions/12.md). -/
structure Dests where
  wRd : Option DReg := none
  casf : Bool := false
  cssf : Bool := false
  cgr : Option CgrIndex := none
  mup : Bool := false
  cup : Bool := false
  x : Option CoreReg := none
  nzcv : Bool := false
  deriving DecidableEq, Repr

/-- A form that writes a data register: wRd and MUP (R32). -/
def destsData (d : DReg) : Dests := { wRd := some d, mup := true }

/-- A form that also replaces wCASF: and CUP (R33). -/
def destsFlags (d : DReg) : Dests := { wRd := some d, mup := true, casf := true, cup := true }

/-- A form that also ORs into wCSSF. -/
def destsSat (d : DReg) : Dests := { wRd := some d, mup := true, casf := true, cssf := true, cup := true }

/-- A form that writes a core register. -/
def destsCore (r : CoreReg) : Dests := { x := some r }

/-- A form that writes the CPSR flags. -/
def destsNzcv : Dests := { nzcv := true }

/-- A form that writes a control register (R27 to R33). -/
def destsCtrl : CtrlReg → Dests
  | .wCID => {}
  | .wCon => { mup := true, cup := true }
  | .wCSSF => { cssf := true, cup := true }
  | .wCASF => { casf := true, cup := true }
  | .wCGR k => { cgr := some k, cup := true }

/-- The same destinations and a base register. -/
def Dests.withBase (t : Dests) (rn : CoreReg) : Dests := { t with x := some rn }

/-- Why a class P word has no successor state in the model. -/
inductive StuckCause where
  /-- A core register operand is R15 (spec/40_transfer.md R130 (c), spec/46_load_store.md R279): R17 forbids the weaker
  reading (notes/assumptions/10.md). -/
  | r15Operand
  /-- A store whose (P,U,W) is 000 or 010 (R99, R272): no mode gives the address of its destination
  (notes/assumptions/13.md). -/
  | addressMode
  deriving DecidableEq, Repr

/-- What a word is (R105). -/
inductive Decoded where
  /-- class I -/
  | instr (i : Instr)
  /-- class U -/
  | undefined
  /-- class P, the destinations bounded: the instruction executes and they are undefined -/
  | unpredictable (d : Dests)
  /-- class P, stuck -/
  | stuck (why : StuckCause)
  /-- class H: not a WMMX2 word (R91) -/
  | host
  deriving DecidableEq, Repr

/-- An instruction if the constant field holds its constant, else class P (R105 (iv)). -/
def orUnpredictable (ok : Bool) (d : Dests) (i : Instr) : Decoded :=
  if ok then .instr i else .unpredictable d

/-! ### The decode procedure (R108) -/

/-- The logic and average group: cp 0, Opcode2 000 (R101). -/
def decodeMisc (c : Cond) (op1 : BitVec 4) (d n m : DReg) : Decoded :=
  match op1.toNat with
  | 0 => .instr (if n = m then .wmov c d n else .wor c d n m)
  | 1 => .instr (.wxor c d n m)
  | 2 => .instr (.wand c d n m)
  | 3 => .instr (if d = n ∧ n = m then .wzero c d else .wandn c d n m)
  | 4 => .instr (.wavg4 c false d n m)
  | 5 => .instr (.wavg4 c true d n m)
  | 8 => .instr (.wavg2 c .b false d n m)
  | 9 => .instr (.wavg2 c .b true d n m)
  | 12 => .instr (.wavg2 c .h false d n m)
  | 13 => .instr (.wavg2 c .h true d n m)
  | _ => .undefined

/-- The align group: cp 0, Opcode2 001 (R101). -/
def decodeAlign (c : Cond) (op1 : BitVec 4) (d n m : DReg) : Decoded :=
  if bitAt op1 3 then
    if bitAt op1 2 then .undefined else .instr (.walignr c (bitsAt op1 0 2).toFin d n m)
  else .instr (.waligni c d n m (bitsAt op1 0 3))

/-- The register shifts: cp 0, Opcode2 010 (R101, R180). -/
def decodeShift (c : Cond) (op1 : BitVec 4) (d n m : DReg) : Decoded :=
  match hwdOf (bitsAt op1 2 2) with
  | none => .unpredictable (destsFlags d)
  | some sz =>
    match (bitsAt op1 0 2).toNat with
    | 0 => .instr (.wsra c sz d n m)
    | 1 => .instr (.wsll c sz d n m)
    | 2 => .instr (.wsrl c sz d n m)
    | _ => .instr (.wror c sz d n m)

/-- The G shifts: cp 1, Opcode2 010 (R102, R180, R181 (b)). -/
def decodeShiftG (c : Cond) (op1 : BitVec 4) (d n : DReg) (crm : BitVec 4) : Decoded :=
  match hwdOf (bitsAt op1 2 2), cgrOf crm with
  | some sz, some k =>
    match (bitsAt op1 0 2).toNat with
    | 0 => .instr (.wsraG c sz d n k)
    | 1 => .instr (.wsllG c sz d n k)
    | 2 => .instr (.wsrlG c sz d n k)
    | _ => .instr (.wrorG c sz d n k)
  | _, _ => .unpredictable (destsFlags d)

/-- The immediate shifts: condition field 1111, Opcode2 010 (R100, R106). -/
def decodeShiftI (op1 : BitVec 4) (d n : DReg) (imm : BitVec 5) : Decoded :=
  match hwdOf (bitsAt op1 2 2) with
  | none => .unpredictable (destsFlags d)
  | some sz =>
    match (bitsAt op1 0 2).toNat with
    | 0 => .instr (.wsraI sz d n imm)
    | 1 => .instr (.wsllI sz d n imm)
    | 2 => .instr (.wsrlI sz d n imm)
    | _ => .instr (.wrorI sz d n imm)

/-- The compare group: cp 0, Opcode2 011 (R101). -/
def decodeCompare (c : Cond) (op1 : BitVec 4) (d n m : DReg) : Decoded :=
  if !bitAt op1 0 && bitAt op1 1 then .undefined
  else
    match bhwOf (bitsAt op1 2 2) with
    | none => .unpredictable (destsFlags d)
    | some sz => .instr (if bitAt op1 0 then .wcmpgt c (signOf (bitAt op1 1)) sz d n m else .wcmpeq c sz d n m)

/-- WMERGE, WQMULM and WPACK: cp 0, Opcode2 100 (R101). -/
def decodePack (c : Cond) (op1 : BitVec 4) (d n m : DReg) : Decoded :=
  if bitAt op1 0 then
    match hwdOf (bitsAt op1 2 2) with
    | none => .instr (.wqmulm c (bitAt op1 1) d n m)
    | some sz => .instr (.wpack c sz (packKindOf (bitAt op1 1)) d n m)
  else .instr (.wmerge c d n m (bitsAt op1 1 3))

/-- WMIAxy and WQMIAxy: cp 0, Opcode2 101 (R101). -/
def decodeMia (c : Cond) (op1 : BitVec 4) (d n m : DReg) : Decoded :=
  .instr (if bitAt op1 3 then .wqmiaxy c (bitAt op1 2) (halfOf (bitAt op1 1)) (halfOf (bitAt op1 0)) d n m
    else .wmiaxy c (bitAt op1 2) (halfOf (bitAt op1 1)) (halfOf (bitAt op1 0)) d n m)

/-- WUNPCKEH, WUNPCKIH and WMULW: cp 0, Opcode2 110 (R101). -/
def decodeUnpackHigh (c : Cond) (op1 : BitVec 4) (d n m : DReg) (crm : BitVec 4) : Decoded :=
  match op1.toNat with
  | 11 => .instr (.wmulw c .l d n m)
  | 12 => .instr (.wmulw c .umr d n m)
  | 13 => .instr (.wmulw c .um d n m)
  | 14 => .instr (.wmulw c .smr d n m)
  | 15 => .instr (.wmulw c .sm d n m)
  | _ =>
    match bhwOf (bitsAt op1 2 2) with
    | none => .undefined
    | some sz =>
      if bitAt op1 0 then
        if bitAt op1 1 then .undefined else .instr (.wunpckih c sz d n m)
      else orUnpredictable (crm == 0) (destsFlags d) (.wunpckeh c (signOf (bitAt op1 1)) sz d n)

/-- WUNPCKEL, WUNPCKIL and WQMULWM: cp 0, Opcode2 111 (R101). -/
def decodeUnpackLow (c : Cond) (op1 : BitVec 4) (d n m : DReg) (crm : BitVec 4) : Decoded :=
  if bitAt op1 0 then
    if bitAt op1 1 then .undefined
    else
      match bhwOf (bitsAt op1 2 2) with
      | none => .unpredictable (destsFlags d)
      | some sz => .instr (.wunpckil c sz d n m)
  else
    match bhwOf (bitsAt op1 2 2) with
    | none => .instr (.wqmulwm c (bitAt op1 1) d n m)
    | some sz => orUnpredictable (crm == 0) (destsFlags d) (.wunpckel c (signOf (bitAt op1 1)) sz d n)

/-- WMUL, WMAC and WMADD: cp 1, Opcode2 000 (R102). -/
def decodeMultiply (c : Cond) (op1 : BitVec 4) (d n m : DReg) : Decoded :=
  match op1.toNat with
  | 0 => .instr (.wmul c .ul d n m)
  | 1 => .instr (.wmul c .um d n m)
  | 2 => .instr (.wmul c .sl d n m)
  | 3 => .instr (.wmul c .sm d n m)
  | 4 => .instr (.wmac c .u false d n m)
  | 5 => .instr (.wmac c .u true d n m)
  | 6 => .instr (.wmac c .s false d n m)
  | 7 => .instr (.wmac c .s true d n m)
  | 8 => .instr (.wmadd c .u .plain d n m)
  | 9 => .instr (.wmadd c .u .x d n m)
  | 10 => .instr (.wmadd c .s .plain d n m)
  | 11 => .instr (.wmadd c .s .x d n m)
  | 12 => .instr (.wmadd c .u .n d n m)
  | 13 => .instr (.wmul c .umr d n m)
  | 14 => .instr (.wmadd c .s .n d n m)
  | _ => .instr (.wmul c .smr d n m)

/-- WSAD and WMIAWxy: cp 1, Opcode2 001 (R102). -/
def decodeDifference (c : Cond) (op1 : BitVec 4) (d n m : DReg) : Decoded :=
  if bitAt op1 3 then
    .instr (.wmiawxy c (bitAt op1 2) (halfOf (bitAt op1 1)) (halfOf (bitAt op1 0)) d n m)
  else if bitAt op1 1 then .undefined
  else .instr (.wsad c (bhOf (bitAt op1 2)) (bitAt op1 0) d n m)

/-- WMAX and WMIN: cp 1, Opcode2 011 (R102). -/
def decodeMaxMin (c : Cond) (op1 : BitVec 4) (d n m : DReg) : Decoded :=
  match bhwOf (bitsAt op1 2 2) with
  | none => .unpredictable (destsData d)
  | some sz =>
    .instr (if bitAt op1 0 then .wmin c (signOf (bitAt op1 1)) sz d n m
      else .wmax c (signOf (bitAt op1 1)) sz d n m)

/-- The destinations of a WADD form: wCSSF with US or SS only (R203). -/
def destsAdd (k : AddKind) (d : DReg) : Dests :=
  match k with
  | .us | .ss => destsSat d
  | .none | .c => destsFlags d

/-- WADD: cp 1, Opcode2 100 (R102). -/
def decodeAdd (c : Cond) (op1 : BitVec 4) (d n m : DReg) : Decoded :=
  match bhwOf (bitsAt op1 2 2) with
  | none => .unpredictable (destsAdd (addKindOf (bitsAt op1 0 2)) d)
  | some sz =>
    orUnpredictable (!(sz == .b && addKindOf (bitsAt op1 0 2) == .c)) (destsAdd (addKindOf (bitsAt op1 0 2)) d)
      (.wadd c sz (addKindOf (bitsAt op1 0 2)) d n m)

/-- WSUB and WADDSUBHX: cp 1, Opcode2 101 (R102). -/
def decodeSub (c : Cond) (op1 : BitVec 4) (d n m : DReg) : Decoded :=
  match bhwOf (bitsAt op1 2 2) with
  | none => .undefined
  | some sz =>
    match (bitsAt op1 0 2).toNat with
    | 0 => .instr (.wsub c sz .none d n m)
    | 1 => .instr (.wsub c sz .us d n m)
    | 2 => if sz = .w then .instr (.waddsubhx c d n m) else .undefined
    | _ => .instr (.wsub c sz .ss d n m)

/-- WACC, WABSDIFF, WABS and WSUBADDHX: cp 1, Opcode2 110 (R102). -/
def decodeAcc (c : Cond) (op1 : BitVec 4) (d n m : DReg) (crm : BitVec 4) : Decoded :=
  match (bitsAt op1 0 2).toNat, bhwOf (bitsAt op1 2 2) with
  | 0, none => .unpredictable (destsData d)
  | 0, some sz => orUnpredictable (crm == 0) (destsData d) (.wacc c sz d n)
  | 1, none => .instr (.wsubaddhx c d n m)
  | 1, some sz => .instr (.wabsdiff c sz d n m)
  | 2, none => .unpredictable (destsFlags d)
  | 2, some sz => orUnpredictable (crm == 0) (destsFlags d) (.wabs c sz d n)
  | _, _ => .undefined

/-- CDP words with a condition (R94, R101, R102). -/
def decodeCdp (c : Cond) (f : Fields) : Decoded :=
  let d := dregOf f.crd
  let n := dregOf f.crn
  let m := dregOf f.crm
  match f.cp, f.op2.toNat with
  | false, 0 => decodeMisc c f.op1 d n m
  | false, 1 => decodeAlign c f.op1 d n m
  | false, 2 => decodeShift c f.op1 d n m
  | false, 3 => decodeCompare c f.op1 d n m
  | false, 4 => decodePack c f.op1 d n m
  | false, 5 => decodeMia c f.op1 d n m
  | false, 6 => decodeUnpackHigh c f.op1 d n m f.crm
  | false, _ => decodeUnpackLow c f.op1 d n m f.crm
  | true, 0 => decodeMultiply c f.op1 d n m
  | true, 1 => decodeDifference c f.op1 d n m
  | true, 2 => decodeShiftG c f.op1 d n f.crm
  | true, 3 => decodeMaxMin c f.op1 d n m
  | true, 4 => decodeAdd c f.op1 d n m
  | true, 5 => decodeSub c f.op1 d n m
  | true, 6 => decodeAcc c f.op1 d n m f.crm
  | true, _ => .instr (.wshufh c d n (f.op1 ++ f.crm))

/-- The TMIA group (R97, R103); R15 as Rs or Rm is stuck (R138 to R140). -/
def decodeTmia (c : Cond) (f : Fields) : Decoded :=
  let d := dregOf (BitVec.ofBool f.cp ++ f.op2)
  if bitAt f.crn 3 && bitAt f.crn 2 then
    match coreOf f.crm, coreOf f.crd with
    | some rm, some rs => .instr (.tmiaxy c (halfOf (bitAt f.crn 1)) (halfOf (bitAt f.crn 0)) d rm rs)
    | _, _ => .stuck .r15Operand
  else if f.crn = 0 then
    match coreOf f.crm, coreOf f.crd with
    | some rm, some rs => .instr (.tmia c d rm rs)
    | _, _ => .stuck .r15Operand
  else if f.crn = 8 then
    match coreOf f.crm, coreOf f.crd with
    | some rm, some rs => .instr (.tmiaph c d rm rs)
    | _, _ => .stuck .r15Operand
  else .undefined

/-- The other transfers to the coprocessor: TMCR, TBCST, TINSR (R103, L = 0). -/
def decodeMcr (c : Cond) (f : Fields) : Decoded :=
  match f.cp, (bitsAt f.op1 1 3).toNat with
  | true, 0 =>
    if f.op2 = 0 then
      match ctrlOf f.crn with
      | none => .undefined
      | some cx =>
        match coreOf f.crd with
        | none => .stuck .r15Operand
        | some rn => orUnpredictable (f.crm == 0) (destsCtrl cx) (.tmcr c cx rn)
    else .undefined
  | false, 2 =>
    if bitAt f.op2 0 then .undefined
    else
      match coreOf f.crd, bhwOf (bitsAt f.op2 1 2) with
      | none, _ => .stuck .r15Operand
      | some _, none => .unpredictable (destsData (dregOf f.crn))
      | some rn, some sz =>
        orUnpredictable (f.crm == 0) (destsData (dregOf f.crn)) (.tbcst c sz (dregOf f.crn) rn)
  | false, 3 =>
    if bitAt f.op2 0 then .undefined
    else
      match coreOf f.crd, bhwOf (bitsAt f.op2 1 2) with
      | none, _ => .stuck .r15Operand
      | some _, none => .unpredictable (destsData (dregOf f.crn))
      | some rn, some sz =>
        orUnpredictable (!bitAt f.crm 3) (destsData (dregOf f.crn))
          (.tinsr c sz (dregOf f.crn) rn (bitsAt f.crm 0 3))
  | _, _ => .undefined

/-- TANDC, TORC, TORVSC and TEXTRC: Rd other than R15 is class U; the register number in `I[19:16]`, the size and
`I[3:0]` are class P (R103, R105). -/
def decodeGroup (f : Fields) (crn : BitVec 4) (crmOk : Bool) (i : Bhw → Instr) : Decoded :=
  if f.crd = 15 then
    match bhwOf (bitsAt f.op1 2 2) with
    | none => .unpredictable destsNzcv
    | some sz => orUnpredictable (f.crn == crn && crmOk) destsNzcv (i sz)
  else .undefined

/-- The transfers from the coprocessor (R103, L = 1). -/
def decodeMrc (c : Cond) (f : Fields) : Decoded :=
  match f.cp, bitAt f.op1 1, f.op2.toNat with
  | true, false, 0 =>
    if bitsAt f.op1 2 2 = 0 then
      match ctrlOf f.crn with
      | none => .undefined
      | some cx =>
        match coreOf f.crd with
        | none => .stuck .r15Operand
        | some rd => orUnpredictable (f.crm == 0) (destsCore rd) (.tmrc c rd cx)
    else .undefined
  | true, false, 1 => decodeGroup f 3 (f.crm == 0) (fun sz => .tandc c sz)
  | true, false, 2 => decodeGroup f 3 (f.crm == 0) (fun sz => .torc c sz)
  | true, false, 4 => decodeGroup f 2 (f.crm == 0) (fun sz => .torvsc c sz)
  | true, false, 3 => decodeGroup f 3 (!bitAt f.crm 3) (fun sz => .textrc c sz (bitsAt f.crm 0 3))
  | false, false, 1 =>
    match coreOf f.crd, bhwOf (bitsAt f.op1 2 2) with
    | none, _ => .stuck .r15Operand
    | some rd, none => .unpredictable (destsCore rd)
    | some rd, some sz => orUnpredictable (f.crm == 0) (destsCore rd) (.tmovmsk c sz rd (dregOf f.crn))
  | false, false, 3 =>
    match coreOf f.crd, bhwOf (bitsAt f.op1 2 2) with
    | none, _ => .stuck .r15Operand
    | some rd, none => .unpredictable (destsCore rd)
    | some rd, some sz =>
      .instr (.textrm c (signOf (bitAt f.crm 3)) sz rd (dregOf f.crn) (bitsAt f.crm 0 3))
  | _, _, _ => .undefined

/-- TMCRR and TMRRC: the MCRR and MRRC formats (R98, R137, R143). -/
def decodeMcrr (c : Cond) (f : Fields) : Decoded :=
  if f.cp = false ∧ f.op2 = 0 ∧ f.b4 = false then
    match coreOf f.crd, coreOf f.crn with
    | some lo, some hi =>
      if bitAt f.op1 0 then orUnpredictable (lo != hi) (destsCore lo) (.tmrrc c lo hi (dregOf f.crm))
      else .instr (.tmcrr c (dregOf f.crm) lo hi)
    | _, _ => .stuck .r15Operand
  else .undefined

/-- `I[7:0]` of a load or store. -/
def offsetOf (f : Fields) : BitVec 8 := f.op2 ++ BitVec.ofBool f.b4 ++ f.crm

/-- A load or store with an unsupported (P,U,W): class P (R105 (v)). A load leaves its destinations and its base register
free; a store has no address (notes/assumptions/13.md). -/
def unsupportedMode (load : Bool) (t : Dests) (rn : CoreReg) : Decoded :=
  if load then .unpredictable (t.withBase rn) else .stuck .addressMode

/-- WLDR and WSTR with an immediate offset and a data register (R99 variant (a), R273, R276). -/
def decodeLoadStore (c : Cond) (f : Fields) : Decoded :=
  match modeOf f.p (bitAt f.op1 3) (bitAt f.op1 1), coreOf f.crn with
  | _, none => .stuck .r15Operand
  | none, some rn => unsupportedMode (bitAt f.op1 0) (destsData (dregOf f.crd)) rn
  | some am, some rn =>
    .instr (if bitAt f.op1 0 then .wldr c (bhwdOf (bitAt f.op1 2) f.cp) am (dregOf f.crd) rn (offsetOf f)
      else .wstr c (bhwdOf (bitAt f.op1 2) f.cp) am (dregOf f.crd) rn (offsetOf f))

/-- WLDRW and WSTRW of a control register (R99 variant (b), R275, R278). -/
def decodeLoadStoreCtrl (f : Fields) : Decoded :=
  match ctrlOf f.crd with
  | none => .undefined
  | some cx =>
    match modeOf f.p (bitAt f.op1 3) (bitAt f.op1 1), coreOf f.crn with
    | _, none => .stuck .r15Operand
    | none, some rn => unsupportedMode (bitAt f.op1 0) (destsCtrl cx) rn
    | some am, some rn =>
      .instr (if bitAt f.op1 0 then .wldrw am cx rn (offsetOf f) else .wstrw am cx rn (offsetOf f))

/-- WLDRD and WSTRD with a register offset (R99 variant (c), R274, R277). -/
def decodeLoadStoreReg (f : Fields) : Decoded :=
  match modeOf f.p (bitAt f.op1 3) (bitAt f.op1 1), coreOf f.crn, coreOf f.crm with
  | none, some rn, some _ => unsupportedMode (bitAt f.op1 0) (destsData (dregOf f.crd)) rn
  | some am, some rn, some rm =>
    .instr (if bitAt f.op1 0 then .wldrd am (dregOf f.crd) rn rm (f.op2 ++ BitVec.ofBool f.b4)
      else .wstrd am (dregOf f.crd) rn rm (f.op2 ++ BitVec.ofBool f.b4))
  | _, _, _ => .stuck .r15Operand

/-- The load, store and 64-bit transfer class, `I[27:25]` = 110 (R108). -/
def decodeMem (f : Fields) : Decoded :=
  match condOf f.c with
  | some c =>
    if f.p = false ∧ bitAt f.op1 3 = false ∧ bitAt f.op1 2 = true ∧ bitAt f.op1 1 = false then decodeMcrr c f
    else decodeLoadStore c f
  | none =>
    if f.cp then (if bitAt f.op1 2 then decodeLoadStoreReg f else decodeLoadStoreCtrl f) else .undefined

/-- The CDP, MCR and MRC class, `I[27:24]` = 1110 (R108). -/
def decodeCop (f : Fields) : Decoded :=
  match condOf f.c with
  | some c =>
    if f.b4 then
      if bitAt f.op1 0 then decodeMrc c f
      else if bitsAt f.op1 1 3 = 1 then decodeTmia c f else decodeMcr c f
    else decodeCdp c f
  | none =>
    if f.b4 = false ∧ f.op2 = 2 then
      decodeShiftI f.op1 (dregOf f.crd) (dregOf f.crn) (BitVec.ofBool f.cp ++ f.crm)
    else .undefined

/-- `wmmx_word(I)` (R91). -/
def isWmmxWord (f : Fields) : Bool :=
  ((f.k == 7 && !f.p) || f.k == 6) && f.cpHi == 0

/-- The decode procedure on the slices of a word (R108). -/
def decodeFields (f : Fields) : Decoded :=
  if isWmmxWord f then (if f.k = 6 then decodeMem f else decodeCop f) else .host

/-- The class of a word, and its instruction (R105, R108). -/
def decode (w : Word) : Decoded := decodeFields (fieldsOf w)

/-! ### The encoder -/

/-- The CDP format (R94). -/
def cdpFields (c op1 : BitVec 4) (n d : DReg) (cp : Bool) (op2 : BitVec 3) (m : BitVec 4) : Fields where
  c := c
  k := 7
  p := false
  op1 := op1
  crn := dregBits n
  crd := dregBits d
  cpHi := 0
  cp := cp
  op2 := op2
  b4 := false
  crm := m

/-- The MCR (L = 0) and MRC (L = 1) formats (R95, R96). -/
def xferFields (c : Cond) (opcode1 : BitVec 3) (l : Bool) (crn crd : BitVec 4) (cp : Bool) (op2 : BitVec 3)
    (m : BitVec 4) : Fields where
  c := condBits c
  k := 7
  p := false
  op1 := opcode1 ++ BitVec.ofBool l
  crn := crn
  crd := crd
  cpHi := 0
  cp := cp
  op2 := op2
  b4 := true
  crm := m

/-- The TMIA form of MCR (R97). -/
def tmiaFields (c : Cond) (sel : BitVec 4) (d : DReg) (rm rs : CoreReg) : Fields :=
  xferFields c 1 false sel (coreBits rs) (bitAt (dregBits d) 3) (bitsAt (dregBits d) 0 3) (coreBits rm)

/-- The MCRR (L = 0) and MRRC (L = 1) formats (R98). -/
def mcrrFields (c : Cond) (l : Bool) (hi lo : CoreReg) (m : DReg) : Fields where
  c := condBits c
  k := 6
  p := false
  op1 := 2#3 ++ BitVec.ofBool l
  crn := coreBits hi
  crd := coreBits lo
  cpHi := 0
  cp := false
  op2 := 0
  b4 := false
  crm := dregBits m

/-- The LDC (L = 1) and STC (L = 0) formats (R99). -/
def ldcFields (c : BitVec 4) (am : AddrMode) (n l : Bool) (rn : CoreReg) (crd : BitVec 4) (m : Bool)
    (off : BitVec 8) : Fields where
  c := c
  k := 6
  p := modeP am
  op1 := BitVec.ofBool (modeU am) ++ BitVec.ofBool n ++ BitVec.ofBool (modeW am) ++ BitVec.ofBool l
  crn := coreBits rn
  crd := crd
  cpHi := 0
  cp := m
  op2 := bitsAt off 5 3
  b4 := bitAt off 4
  crm := bitsAt off 0 4

/-- Opcode1 of the form `ww` : two bits. -/
def op1Of (hi lo : BitVec 2) : BitVec 4 := hi ++ lo

/-- Two bits, the more significant first. -/
def pair (a b : Bool) : BitVec 2 := BitVec.ofBool a ++ BitVec.ofBool b

/-- Opcode1 of the shifts: `ww` and the operation, 00 WSRA, 01 WSLL, 10 WSRL, 11 WROR (R180). -/
def shiftOp1 (sz : Hwd) (oo : BitVec 2) : BitVec 4 := op1Of (hwdBits sz) oo

/-- The register form of a shift (R180). -/
def shiftFields (c : Cond) (sz : Hwd) (oo : BitVec 2) (d n m : DReg) : Fields :=
  cdpFields (condBits c) (shiftOp1 sz oo) n d false 2 (dregBits m)

/-- The G form of a shift (R180). -/
def shiftGFields (c : Cond) (sz : Hwd) (oo : BitVec 2) (d n : DReg) (k : CgrIndex) : Fields :=
  cdpFields (condBits c) (shiftOp1 sz oo) n d true 2 (ctrlBits (.wCGR k))

/-- The immediate form of a shift (R100). -/
def shiftIFields (sz : Hwd) (oo : BitVec 2) (d n : DReg) (imm : BitVec 5) : Fields :=
  cdpFields 15 (shiftOp1 sz oo) n d (bitAt imm 4) 2 (bitsAt imm 0 4)

/-- `nn`, `s`, `x` of WMADD (R232). -/
def maddOp1 (sg : Sign) (k : MaddKind) : BitVec 4 :=
  match k with
  | .plain => op1Of 2 (pair (signBit sg) false)
  | .x => op1Of 2 (pair (signBit sg) true)
  | .n => op1Of 3 (pair (signBit sg) false)

/-- The slices of an instruction's word, from the bit row of its rule. -/
def encodeFields : Instr → Fields
  | .tandc c sz => xferFields c (bhwBits sz ++ 0#1) true 3 15 true 1 0
  | .tbcst c sz d rn => xferFields c 2 false (dregBits d) (coreBits rn) false (bhwBits sz ++ 0#1) 0
  | .textrc c sz imm => xferFields c (bhwBits sz ++ 0#1) true 3 15 true 3 (0#1 ++ imm)
  | .textrm c sg sz rd n imm =>
    xferFields c (bhwBits sz ++ 0#1) true (dregBits n) (coreBits rd) false 3 (BitVec.ofBool (signBit sg) ++ imm)
  | .tinsr c sz d rn imm =>
    xferFields c 3 false (dregBits d) (coreBits rn) false (bhwBits sz ++ 0#1) (0#1 ++ imm)
  | .tmcr c cx rn => xferFields c 0 false (ctrlBits cx) (coreBits rn) true 0 0
  | .tmcrr c d lo hi => mcrrFields c false hi lo d
  | .tmia c d rm rs => tmiaFields c 0 d rm rs
  | .tmiaph c d rm rs => tmiaFields c 8 d rm rs
  | .tmiaxy c x y d rm rs => tmiaFields c (op1Of 3 (pair (halfBit x) (halfBit y))) d rm rs
  | .tmovmsk c sz rd n => xferFields c (bhwBits sz ++ 0#1) true (dregBits n) (coreBits rd) false 1 0
  | .tmrc c rd cx => xferFields c 0 true (ctrlBits cx) (coreBits rd) true 0 0
  | .tmrrc c lo hi n => mcrrFields c true hi lo n
  | .torc c sz => xferFields c (bhwBits sz ++ 0#1) true 3 15 true 2 0
  | .torvsc c sz => xferFields c (bhwBits sz ++ 0#1) true 2 15 true 4 0
  | .wor c d n m => cdpFields (condBits c) 0 n d false 0 (dregBits m)
  | .wxor c d n m => cdpFields (condBits c) 1 n d false 0 (dregBits m)
  | .wand c d n m => cdpFields (condBits c) 2 n d false 0 (dregBits m)
  | .wandn c d n m => cdpFields (condBits c) 3 n d false 0 (dregBits m)
  | .wavg4 c r d n m => cdpFields (condBits c) (2#3 ++ BitVec.ofBool r) n d false 0 (dregBits m)
  | .wavg2 c sz r d n m => cdpFields (condBits c) (op1Of (pair true (bhBit sz)) (pair false r)) n d false 0 (dregBits m)
  | .waligni c d n m imm => cdpFields (condBits c) (0#1 ++ imm) n d false 1 (dregBits m)
  | .walignr c k d n m => cdpFields (condBits c) (2#2 ++ BitVec.ofFin (w := 2) k) n d false 1 (dregBits m)
  | .wsra c sz d n m => shiftFields c sz 0 d n m
  | .wsraG c sz d n k => shiftGFields c sz 0 d n k
  | .wsraI sz d n imm => shiftIFields sz 0 d n imm
  | .wsll c sz d n m => shiftFields c sz 1 d n m
  | .wsllG c sz d n k => shiftGFields c sz 1 d n k
  | .wsllI sz d n imm => shiftIFields sz 1 d n imm
  | .wsrl c sz d n m => shiftFields c sz 2 d n m
  | .wsrlG c sz d n k => shiftGFields c sz 2 d n k
  | .wsrlI sz d n imm => shiftIFields sz 2 d n imm
  | .wror c sz d n m => shiftFields c sz 3 d n m
  | .wrorG c sz d n k => shiftGFields c sz 3 d n k
  | .wrorI sz d n imm => shiftIFields sz 3 d n imm
  | .wcmpeq c sz d n m => cdpFields (condBits c) (op1Of (bhwBits sz) 0) n d false 3 (dregBits m)
  | .wcmpgt c sg sz d n m =>
    cdpFields (condBits c) (op1Of (bhwBits sz) (pair (signBit sg) true)) n d false 3 (dregBits m)
  | .wmerge c d n m imm => cdpFields (condBits c) (imm ++ 0#1) n d false 4 (dregBits m)
  | .wqmulm c r d n m => cdpFields (condBits c) (op1Of 0 (pair r true)) n d false 4 (dregBits m)
  | .wpack c sz k d n m =>
    cdpFields (condBits c) (op1Of (hwdBits sz) (pair (packKindBit k) true)) n d false 4 (dregBits m)
  | .wmiaxy c neg x y d n m =>
    cdpFields (condBits c) (op1Of (pair false neg) (pair (halfBit x) (halfBit y))) n d false 5 (dregBits m)
  | .wqmiaxy c neg x y d n m =>
    cdpFields (condBits c) (op1Of (pair true neg) (pair (halfBit x) (halfBit y))) n d false 5 (dregBits m)
  | .wunpckeh c sg sz d n => cdpFields (condBits c) (op1Of (bhwBits sz) (pair (signBit sg) false)) n d false 6 0
  | .wunpckih c sz d n m => cdpFields (condBits c) (op1Of (bhwBits sz) 1) n d false 6 (dregBits m)
  | .wmulw c k d n m => cdpFields (condBits c) (mulwKindBits k) n d false 6 (dregBits m)
  | .wunpckel c sg sz d n => cdpFields (condBits c) (op1Of (bhwBits sz) (pair (signBit sg) false)) n d false 7 0
  | .wunpckil c sz d n m => cdpFields (condBits c) (op1Of (bhwBits sz) 1) n d false 7 (dregBits m)
  | .wqmulwm c r d n m => cdpFields (condBits c) (op1Of 3 (pair r false)) n d false 7 (dregBits m)
  | .wmul c k d n m => cdpFields (condBits c) (mulKindBits k) n d true 0 (dregBits m)
  | .wmac c sg z d n m => cdpFields (condBits c) (op1Of 1 (pair (signBit sg) z)) n d true 0 (dregBits m)
  | .wmadd c sg k d n m => cdpFields (condBits c) (maddOp1 sg k) n d true 0 (dregBits m)
  | .wsad c sz z d n m => cdpFields (condBits c) (op1Of (pair false (bhBit sz)) (pair false z)) n d true 1 (dregBits m)
  | .wmiawxy c neg x y d n m =>
    cdpFields (condBits c) (op1Of (pair true neg) (pair (halfBit x) (halfBit y))) n d true 1 (dregBits m)
  | .wmax c sg sz d n m =>
    cdpFields (condBits c) (op1Of (bhwBits sz) (pair (signBit sg) false)) n d true 3 (dregBits m)
  | .wmin c sg sz d n m =>
    cdpFields (condBits c) (op1Of (bhwBits sz) (pair (signBit sg) true)) n d true 3 (dregBits m)
  | .wadd c sz k d n m => cdpFields (condBits c) (op1Of (bhwBits sz) (addKindBits k)) n d true 4 (dregBits m)
  | .wsub c sz k d n m => cdpFields (condBits c) (op1Of (bhwBits sz) (subKindBits k)) n d true 5 (dregBits m)
  | .waddsubhx c d n m => cdpFields (condBits c) 10 n d true 5 (dregBits m)
  | .wacc c sz d n => cdpFields (condBits c) (op1Of (bhwBits sz) 0) n d true 6 0
  | .wabsdiff c sz d n m => cdpFields (condBits c) (op1Of (bhwBits sz) 1) n d true 6 (dregBits m)
  | .wabs c sz d n => cdpFields (condBits c) (op1Of (bhwBits sz) 2) n d true 6 0
  | .wsubaddhx c d n m => cdpFields (condBits c) 13 n d true 6 (dregBits m)
  | .wshufh c d n imm => cdpFields (condBits c) (bitsAt imm 4 4) n d true 7 (bitsAt imm 0 4)
  | .wldr c sz am d rn off =>
    ldcFields (condBits c) am (bhwdBits sz).1 true rn (dregBits d) (bhwdBits sz).2 off
  | .wldrd am d rn rm sh => ldcFields 15 am true true rn (dregBits d) true (sh ++ coreBits rm)
  | .wldrw am cx rn off => ldcFields 15 am false true rn (ctrlBits cx) true off
  | .wstr c sz am m rn off =>
    ldcFields (condBits c) am (bhwdBits sz).1 false rn (dregBits m) (bhwdBits sz).2 off
  | .wstrd am m rn rm sh => ldcFields 15 am true false rn (dregBits m) true (sh ++ coreBits rm)
  | .wstrw am cx rn off => ldcFields 15 am false false rn (ctrlBits cx) true off
  | .wmov c d n => cdpFields (condBits c) 0 n d false 0 (dregBits n)
  | .wzero c d => cdpFields (condBits c) 3 d d false 0 (dregBits d)

/-- The word of an instruction. -/
def encode (i : Instr) : Word := assemble (encodeFields i)

/-- The instruction the decoder reads from an instruction whose bits are `w`, of which `nbits` are given (the others are
0). Every WMMX2 instruction is one 32-bit word (R90). -/
def decodeTableWord (nbits w : Nat) : Option Instr :=
  match decode (BitVec.ofNat 32 (w % 2 ^ nbits)) with
  | .instr i => some i
  | _ => none

end Sys2Proof
end

