-- ==== Sys2Proof/Machine/Operands.lean ====
section
/-! DEFINITION. Operand forms: field widths, SIMD fields of a register, integer readings, saturation, shift amounts and
load/store offsets (spec/00_scope.md R8 to R14, spec/42_shift_rotate.md R181, spec/46_load_store.md R271, R272). -/

namespace Sys2Proof.Machine

/-! ### Widths -/

/-- The field width of B, H, W (R195). -/
def bhwWidth : Bhw → Nat
  | .b => 8 | .h => 16 | .w => 32

/-- The field width of B, H (R168, R223). -/
def bhWidth : Bh → Nat
  | .b => 8 | .h => 16

/-- The field width of H, W, D (R180, R250). -/
def hwdWidth : Hwd → Nat
  | .h => 16 | .w => 32 | .d => 64

/-- The access size in bytes (R271). -/
def bhwdBytes : Bhwd → Nat
  | .b => 1 | .h => 2 | .w => 4 | .d => 8

/-! ### SIMD fields -/

/-- `field(v, w, i)` (R10). -/
def field {l : Nat} (w i : Nat) (v : BitVec l) : BitVec w := v.extractLsb' (w * i) w

/-- The first `k` fields `f 0` to `f (k - 1)` of width `w`, placed in a 64-bit vector. -/
def placeFields (w : Nat) (f : Nat → BitVec w) : Nat → DWord
  | 0 => 0
  | k + 1 => placeFields w f k ||| ((f k).setWidth 64 <<< (w * k))

/-- The 64-bit vector whose field `i` of width `w` is `f i`, for every `i` below `nf(w) = 64 / w` (R10). -/
def fromFields (w : Nat) (f : Nat → BitVec w) : DWord := placeFields w f (64 / w)

/-- The sum of `f 0` to `f (k - 1)`. -/
def sumOver (f : Nat → Int) : Nat → Int
  | 0 => 0
  | k + 1 => sumOver f k + f k

/-! ### Readings and saturation -/

/-- `uint(v)` or `sint(v)` by the sign qualifier (R12, R225). -/
def valOf {w : Nat} (sg : Sign) (v : BitVec w) : Int :=
  match sg with
  | .u => v.toNat
  | .s => v.toInt

/-- The largest value of a saturation (R14). -/
def satMax (sg : Sign) (w : Nat) : Int :=
  match sg with
  | .u => 2 ^ w - 1
  | .s => 2 ^ (w - 1) - 1

/-- The smallest value of a saturation (R14). -/
def satMin (sg : Sign) (w : Nat) : Int :=
  match sg with
  | .u => 0
  | .s => -2 ^ (w - 1)

/-- `saturate(k, sg, w)` (R14). -/
def saturate (sg : Sign) (w : Nat) (k : Int) : BitVec w :=
  if k > satMax sg w then BitVec.ofInt w (satMax sg w)
  else if k < satMin sg w then BitVec.ofInt w (satMin sg w)
  else BitVec.ofInt w k

/-- Whether `saturate(k, sg, w)` saturates (R14). -/
def saturates (sg : Sign) (w : Nat) (k : Int) : Bool :=
  decide (k > satMax sg w) || decide (k < satMin sg w)

/-- `k >> s` on an integer: floor(k / 2^s) (R12, R225). -/
def floorShift (k : Int) (s : Nat) : Int := k / 2 ^ s

/-- Zero- or sign-extension to `l` bits by the sign qualifier (R12). -/
def extendTo {w : Nat} (l : Nat) (sg : Sign) (v : BitVec w) : BitVec l :=
  match sg with
  | .u => v.setWidth l
  | .s => v.signExtend l

/-- A field of all ones or zero (R217, R219). -/
def maskOf (w : Nat) (b : Bool) : BitVec w := if b then BitVec.allOnes w else 0

/-- The top or bottom element of a pair numbered 2j + 1, 2j (R140, R235, R236, R241). -/
def halfIndex (h : Half) (j : Nat) : Nat :=
  match h with
  | .b => 2 * j
  | .t => 2 * j + 1

/-- The field an Imm3 selects: the low bits that the width needs (R109, R133 to R135). -/
def fieldOfImm (w : Nat) (imm : BitVec 3) : Nat := imm.toNat % (64 / w)

/-! ### Shifts -/

/-- The shift amount of the register form (R181 (a)). -/
def amountReg (v : DWord) : Nat := (bitsAt v 0 8).toNat

/-- The shift amount of the G form (R181 (b)). -/
def amountCgr (v : Word) : Nat := (bitsAt v 0 8).toNat

/-- The shift amount of the immediate form: 0 stands for 32 (R181 (c)). -/
def amountImm (imm : BitVec 5) : Nat := if imm = 0 then 32 else imm.toNat

/-- `sll_w(x, sv)` (R181). -/
def sllField {w : Nat} (x : BitVec w) (sv : Nat) : BitVec w := if sv < w then x <<< sv else 0

/-- `srl_w(x, sv)` (R181). -/
def srlField {w : Nat} (x : BitVec w) (sv : Nat) : BitVec w := if sv < w then x >>> sv else 0

/-- `sra_w(x, sv)` (R181). -/
def sraField {w : Nat} (x : BitVec w) (sv : Nat) : BitVec w :=
  if sv < w then BitVec.ofInt w (floorShift x.toInt sv) else maskOf w x.msb

/-- `rot_w(x, sv)` (R181, spec/00_scope.md R13). -/
def rotField {w : Nat} (x : BitVec w) (sv : Nat) : BitVec w := (x >>> (sv % w)) ||| (x <<< (w - sv % w))

/-! ### Load and store addresses (R272) -/

/-- The offset of an immediate form: scaled by 4 when M = 1 (W, D and the control register forms). -/
def offsetImm (scaled : Bool) (off : BitVec 8) : Word :=
  if scaled then off.setWidth 32 <<< 2 else off.setWidth 32

/-- The offset of the register form. -/
def offsetReg (v : Word) (sh : BitVec 4) : Word := v <<< sh.toNat

/-- `target`. -/
def targetOf (am : AddrMode) (base off : Word) : Word := if modeU am then base + off else base - off

/-- `addr`: the address accessed. -/
def addrOf (am : AddrMode) (base off : Word) : Word := if modeP am then targetOf am base off else base

/-- `writeback`. -/
def writesBack (am : AddrMode) : Bool := !modeP am || modeW am

end Sys2Proof.Machine
end

