-- ==== Sys2Proof/Machine/Flags.lean ====
section
/-! DEFINITION. Flag computations: the nibbles of wCASF, the bits of wCSSF, the flags of a result field, of an addition and
of a subtraction (spec/10_state.md R25 to R27, spec/43_arithmetic_compare.md R206, R213). -/

namespace Sys2Proof.Machine

/-- `casf_nibble(w, i)`, also `ssf_bit(w, i)` (R25, R27). -/
def flagIndex (w i : Nat) : Nat := w / 8 * (i + 1) - 1

/-- The first `k` flag nibbles of a SIMD format, every other bit 0. -/
def placeNibbles (w : Nat) (flags : Nat → BitVec 4) : Nat → Word
  | 0 => 0
  | k + 1 => placeNibbles w flags k ||| ((flags k).setWidth 32 <<< (4 * flagIndex w k))

/-- The value `SetCASF(w, flags)` writes (R25). -/
def casfOf (w : Nat) (flags : Nat → BitVec 4) : Word := placeNibbles w flags (64 / w)

/-- The first `k` saturation bits of a SIMD format. -/
def placeSatBits (w : Nat) (sat : Nat → Bool) : Nat → BitVec 8
  | 0 => 0
  | k + 1 => placeSatBits w sat k ||| ((BitVec.ofBool (sat k)).setWidth 8 <<< flagIndex w k)

/-- The bits `OrCSSF(w, sat)` sets (R27). -/
def cssfOf (w : Nat) (sat : Nat → Bool) : BitVec 8 := placeSatBits w sat (64 / w)

/-- A nibble N Z C V (R25). -/
def nibbleOf (n z c v : Bool) : BitVec 4 :=
  BitVec.ofBool n ++ BitVec.ofBool z ++ BitVec.ofBool c ++ BitVec.ofBool v

/-- `nz(w, r)(i)` of the field `r` (R26). -/
def nzFlags {w : Nat} (r : BitVec w) : BitVec 4 := nibbleOf r.msb (r == 0) false false

/-- `z_only(w, r)(i)` of the field `r` (R26). -/
def zFlags {w : Nat} (r : BitVec w) : BitVec 4 := nibbleOf false (r == 0) false false

/-- One field of an addition or subtraction: its value, whether it saturated, its flags C and V before saturation. -/
structure LaneSum (w : Nat) where
  value : BitVec w
  sat : Bool
  carry : Bool
  ovf : Bool

/-- The flags of such a field: N and Z from the value, C and V cleared when it saturated (R203, R211). -/
def sumFlags {w : Nat} (l : LaneSum w) : BitVec 4 :=
  nibbleOf l.value.msb (l.value == 0) (l.carry && !l.sat) (l.ovf && !l.sat)

/-- Whether an exact integer is outside the signed range of a `w`-bit field (R206, R213). -/
def overflows (w : Nat) (k : Int) : Bool := saturates .s w k

/-- C of an addition (R206). -/
def addCarry {w : Nat} (x y : BitVec w) (cin : Nat) : Bool := decide (x.toNat + y.toNat + cin > 2 ^ w - 1)

/-- C of a subtraction under a reading of `SUB_CARRY` (R213). -/
def subCarryOf (sc : SubCarry) {w : Nat} (x y : BitVec w) : Bool :=
  match sc with
  | .notBorrow => decide (x.toNat ≥ y.toNat)
  | .borrow => decide (x.toNat < y.toNat)

/-- A sum saturated by a qualifier, or none (R203): `k` gives the unsigned and signed exact results. -/
def sumValue (w : Nat) (sat : Option Sign) (usum ssum : Int) : BitVec w :=
  match sat with
  | none => BitVec.ofInt w usum
  | some .u => saturate .u w usum
  | some .s => saturate .s w ssum

/-- Whether such a sum saturates. -/
def sumSat (w : Nat) (sat : Option Sign) (usum ssum : Int) : Bool :=
  match sat with
  | none => false
  | some .u => saturates .u w usum
  | some .s => saturates .s w ssum

/-- One field of an addition with carry-in `cin` (R203, R206). -/
def addLane {w : Nat} (sat : Option Sign) (x y : BitVec w) (cin : Nat) : LaneSum w where
  value := sumValue w sat (x.toNat + y.toNat + cin) (x.toInt + y.toInt + cin)
  sat := sumSat w sat (x.toNat + y.toNat + cin) (x.toInt + y.toInt + cin)
  carry := addCarry x y cin
  ovf := overflows w (x.toInt + y.toInt + cin)

/-- One field of a subtraction (R211, R213). -/
def subLane (sc : SubCarry) {w : Nat} (sat : Option Sign) (x y : BitVec w) : LaneSum w where
  value := sumValue w sat ((x.toNat : Int) - y.toNat) (x.toInt - y.toInt)
  sat := sumSat w sat ((x.toNat : Int) - y.toNat) (x.toInt - y.toInt)
  carry := subCarryOf sc x y
  ovf := overflows w (x.toInt - y.toInt)

/-! ### The CPSR flags -/

/-- AND of the first `k` flag nibbles of a SIMD format of wCASF (R131). -/
def andNibbles (w : Nat) (casf : Word) : Nat → BitVec 4
  | 0 => 15
  | k + 1 => andNibbles w casf k &&& field 4 (flagIndex w k) casf

/-- OR of the first `k` flag nibbles of a SIMD format of wCASF (R144). -/
def orNibbles (w : Nat) (casf : Word) : Nat → BitVec 4
  | 0 => 0
  | k + 1 => orNibbles w casf k ||| field 4 (flagIndex w k) casf

/-- OR of the first `k` saturation bits of a SIMD format of wCSSF (R145). -/
def orSatBits (w : Nat) (cssf : BitVec 8) : Nat → Bool
  | 0 => false
  | k + 1 => orSatBits w cssf k || bitAt cssf (flagIndex w k)

/-- Whether a condition passes on the CPSR flags (spec/30_encoding.md R93). The table is PRESUMED, the ARM
architecture's (notes/assumptions/20.md). -/
def condHolds (c : Cond) (nzcv : BitVec 4) : Bool :=
  let n := bitAt nzcv 3
  let z := bitAt nzcv 2
  let cf := bitAt nzcv 1
  let v := bitAt nzcv 0
  match c with
  | .eq => z
  | .ne => !z
  | .cs => cf
  | .cc => !cf
  | .mi => n
  | .pl => !n
  | .vs => v
  | .vc => !v
  | .hi => cf && !z
  | .ls => !cf || z
  | .ge => n == v
  | .lt => n != v
  | .gt => !z && n == v
  | .le => z || n != v
  | .al => true

end Sys2Proof.Machine
end

