-- ==== Sys2Proof/Machine/State.lean ====
section
/-! DEFINITION. The state of the pair (ARM core, WMMX2 coprocessor) as spec/10_state.md R20 lists it, the ways a step
can stop, and the machine right after reset. -/

namespace Sys2Proof.Machine

/-- Memory: (address, byte) pairs, addresses strictly rising and below 2^32, no byte equal to what an unlisted address
reads as (spec/20_memory.md R60; notes/assumptions/6.md). -/
abbrev Memory := List Host.Cell

/-- The direction of a memory access (R61). -/
inductive Direction where
  | read
  | write
  deriving DecidableEq, Repr

/-- One row of the host's memory predicate (spec/20_memory.md R73): accesses of `size` bytes in direction `dir` at an
address from `first` to `last` are refused (notes/assumptions/7.md). -/
structure DeniedAccess where
  first : Nat
  last : Nat
  size : Nat
  dir : Direction
  deriving DecidableEq, Repr

/-- An instruction word the host hands to the machine at an address (spec/10_state.md R37, spec/20_memory.md R65;
notes/assumptions/8.md). -/
structure CodeWord where
  addr : Word
  word : Word
  deriving DecidableEq, Repr

/-- The state of the machine (R20). -/
structure State where
  /-- wR0 to wR15 (R22) -/
  wR : Vector DWord 16
  /-- wCID (R28) -/
  wcid : Word
  /-- wCon bit 1 (R30, R32) -/
  mup : Bool
  /-- wCon bit 0 (R30, R33) -/
  cup : Bool
  /-- wCSSF bits 7:0 (R27) -/
  cssf : BitVec 8
  /-- wCASF (R24) -/
  casf : Word
  /-- wCGR0 to wCGR3 (R29) -/
  cgr : Vector Word 4
  /-- R0 to R14 (R36); R15 is `pc` (notes/assumptions/10.md) -/
  x : Vector Word 15
  /-- the program counter (R37) -/
  pc : Word
  /-- CPSR[31:28], in the order N Z C V (R38) -/
  nzcv : BitVec 4
  /-- CPAR[1:0] (R39) -/
  cpar : BitVec 2
  /-- BIGEND (R40) -/
  bigend : Bool
  /-- ALIGN_TRAP (R41) -/
  alignTrap : Bool
  /-- memory (R60) -/
  mem : Memory
  /-- the host's memory predicate (R73) -/
  denied : List DeniedAccess
  /-- the instruction words handed by the host (R65, R77) -/
  code : List CodeWord
  /-- the model's own counter of free values taken (notes/assumptions/18.md) -/
  draws : Nat
  deriving DecidableEq, Repr

/-- The exceptions of spec/60_exceptions.md R300, with what the raise hands to the host beside the pc. -/
inductive Exception where
  /-- R301: the instruction word. -/
  | undefinedInstruction (word : Word)
  /-- R303: the misaligned address. -/
  | alignmentFault (addr : Word)
  /-- R304: the refused address. -/
  | dataAbort (addr : Word)
  deriving DecidableEq, Repr

/-- Why a step is UNPREDICTABLE without a successor state (spec/00_scope.md R17). -/
inductive Unpredictable where
  /-- A class P word that is stuck (spec/30_encoding.md R105 (iii), (v); notes/assumptions/10.md, 13.md). -/
  | word (why : StuckCause) (word : Word)
  /-- A misaligned access with ALIGN_TRAP = 0 (spec/20_memory.md R67; notes/assumptions/14.md). -/
  | misaligned (addr : Word)
  deriving DecidableEq, Repr

/-- How a step stops. -/
inductive Fault where
  /-- Raised by the envelope, the decoder and the loads and stores: the exception is handed to the host with the pc, and
  nothing is written (R300; notes/assumptions/11.md). Safe: the hardware goes on in a handler that the spec does not
  describe. -/
  | raised (e : Exception) (pc : Word)
  /-- Raised by `step` for a stuck class P word and by the loads and stores for an untrapped misaligned access
  (notes/assumptions/10.md, 13.md, 14.md). Safe: nothing can be proved of a run that reaches it. -/
  | unpredictable (why : Unpredictable) (pc : Word)
  deriving DecidableEq, Repr

/-- Why a step has no meaning here. -/
inductive Refusal where
  /-- Answered by an arm of `exec` for an instruction that has no meaning yet. Safe. -/
  | notModelled (mnemonic : String)
  /-- Answered by `step`: the word is not of coprocessor 0 or 1 and is the host's (R91, class H). Safe. -/
  | hostWord (word : Word)
  /-- Answered by `step`: the pc is not a multiple of 4 (R37). Safe. -/
  | misalignedPc (pc : Word)
  /-- Answered by `step`: the host has handed no instruction word at the pc, or a store has overwritten its bytes
  (R77; notes/assumptions/8.md). Safe. -/
  | noInstructionWord (pc : Word)
  deriving DecidableEq, Repr

/-- What a step or a meaning answers. -/
abbrev Result := Host.Outcome State Fault Refusal

/-- The machine right after reset (R44, spec/70_reset_and_hazards.md R340). wCASF, wCSSF, MUP, CUP and wCID are the
spec's; the others are DESIGN CHOICE (unsafe): notes/assumptions/2.md (wR), 3.md (wCGR), 4.md (core interface), 6.md
(memory), 7.md (denied), 8.md (code), 18.md (draws). -/
def State.reset : State where
  wR := Vector.replicate 16 0
  wcid := Config.wcidValue
  mup := false
  cup := false
  cssf := 0
  casf := 0
  cgr := Vector.replicate 4 0
  x := Vector.replicate 15 0
  pc := 0x8000
  nzcv := 0
  cpar := 3
  bigend := false
  alignTrap := true
  mem := []
  denied := []
  code := []
  draws := 0

end Sys2Proof.Machine
end

