-- ==== Sys2Proof/Machine/Ops.lean ====
section
/-! DEFINITION. The named operations over registers and memory, the execution envelope, taking an exception, and the
accesses of WLDR and WSTR (spec/10_state.md, spec/20_memory.md, spec/30_encoding.md R107, spec/46_load_store.md R280). -/

namespace Sys2Proof.Machine

/-! ### Registers -/

/-- `wR[d]` (R22). -/
def State.readWR (s : State) (d : DReg) : DWord := s.wR[d]

/-- `wR[d] <- v`; sets wCon.MUP (R32). -/
def State.writeWR (s : State) (d : DReg) (v : DWord) : State := { s with wR := s.wR.set d v, mup := true }

/-- `x[r]` (R36). -/
def State.readX (s : State) (r : CoreReg) : Word := s.x[r]

/-- `x[r] <- v` (R36). -/
def State.writeX (s : State) (r : CoreReg) (v : Word) : State := { s with x := s.x.set r v }

/-- `wCGR[k]` (R29). -/
def State.readCgr (s : State) (k : CgrIndex) : Word := s.cgr[k]

/-- CPSR[31:28] <- v (R38). -/
def State.writeNzcv (s : State) (v : BitVec 4) : State := { s with nzcv := v }

/-- wCASF is replaced; sets wCon.CUP (R24, R25, R33). -/
def State.setCasf (s : State) (v : Word) : State := { s with casf := v, cup := true }

/-- `OrCSSF` of an instruction that also replaces wCASF, which sets wCon.CUP in any case (R27, R33). -/
def State.orCssf (s : State) (bits : BitVec 8) : State := { s with cssf := s.cssf ||| bits, cup := true }

/-- `OrCSSF` of an instruction that writes wCSSF only: when no field saturates, wCon.CUP is set or left by a free
value (R33, `CUP_ON_NO_SATURATION`; notes/assumptions/16.md). -/
def State.orCssfOnly (s : State) (bits : BitVec 8) : State :=
  if bits = 0 then { s with cup := s.cup || Config.freeBit s.draws, draws := s.draws + 1 }
  else s.orCssf bits

/-- What TMRC and WSTRW read; the reserved bits of wCon and wCSSF are free values (R21, R27 to R31; notes/assumptions/15.md). -/
def State.readCtrl (s : State) : CtrlReg → Word
  | .wCID => s.wcid
  | .wCon => bitsAt (Config.freeWord s.draws) 2 30 ++ BitVec.ofBool s.mup ++ BitVec.ofBool s.cup
  | .wCSSF => bitsAt (Config.freeWord s.draws) 8 24 ++ s.cssf
  | .wCASF => s.casf
  | .wCGR k => s.readCgr k

/-- The state after such a read: it has no side effect (R142) but for the model's own counter of free values. -/
def State.afterReadCtrl (s : State) : CtrlReg → State
  | .wCon | .wCSSF => { s with draws := s.draws + 1 }
  | .wCID | .wCASF | .wCGR _ => s

/-- What TMCR and WLDRW write (R136, R27 to R33). -/
def State.writeCtrl (s : State) (cx : CtrlReg) (v : Word) : State :=
  match cx with
  | .wCID => s
  | .wCon => { s with mup := s.mup && !bitAt v 1, cup := s.cup && !bitAt v 0 }
  | .wCSSF => { s with cssf := bitsAt v 0 8, cup := true }
  | .wCASF => s.setCasf v
  | .wCGR k => { s with cgr := s.cgr.set k v, cup := true }

/-! ### Results of SIMD instructions -/

/-- A result without flags. -/
def State.putFields (s : State) (w : Nat) (d : DReg) (f : Nat → BitVec w) : State :=
  s.writeWR d (fromFields w f)

/-- A result with `SetCASF(w, flags)`. -/
def State.putFieldsWith (s : State) (w : Nat) (d : DReg) (f : Nat → BitVec w) (flags : Nat → BitVec 4) : State :=
  (s.putFields w d f).setCasf (casfOf w flags)

/-- A result with `SetCASF(w, nz(w, res))` (R26). -/
def State.putFieldsNZ (s : State) (w : Nat) (d : DReg) (f : Nat → BitVec w) : State :=
  s.putFieldsWith w d f (fun i => nzFlags (f i))

/-- A result with `SetCASF(w, z_only(w, res))` (R26). -/
def State.putFieldsZ (s : State) (w : Nat) (d : DReg) (f : Nat → BitVec w) : State :=
  s.putFieldsWith w d f (fun i => zFlags (f i))

/-- A 64-bit result with `SetCASF(64, nz(64, r))` (R26). -/
def State.putDouble (s : State) (d : DReg) (r : DWord) : State :=
  (s.writeWR d r).setCasf (casfOf 64 (fun _ => nzFlags r))

/-- A result of additions or subtractions without saturation: wCSSF is not touched (R203, R211). -/
def State.putSums (s : State) (w : Nat) (d : DReg) (f : Nat → LaneSum w) : State :=
  s.putFieldsWith w d (fun i => (f i).value) (fun i => sumFlags (f i))

/-- A result of saturating additions or subtractions: `OrCSSF(w, sat)` after `SetCASF` (R203, R209, R211, R215). -/
def State.putSatSums (s : State) (w : Nat) (d : DReg) (f : Nat → LaneSum w) : State :=
  (s.putSums w d f).orCssf (cssfOf w (fun i => (f i).sat))

/-! ### Free values of an UNPREDICTABLE word -/

/-- Every destination of the form takes a free value (spec/00_scope.md R17; notes/assumptions/12.md, 13.md). -/
def State.drawDests (s : State) (t : Dests) : State :=
  { s with
    wR := match t.wRd with
      | some d => s.wR.set d (Config.freeDWord s.draws)
      | none => s.wR
    casf := if t.casf then Config.freeWord s.draws else s.casf
    cssf := if t.cssf then Config.freeByte s.draws else s.cssf
    cgr := match t.cgr with
      | some k => s.cgr.set k (Config.freeWord (s.draws + 1))
      | none => s.cgr
    mup := if t.mup then Config.freeBit s.draws else s.mup
    cup := if t.cup then Config.freeBit (s.draws + 1) else s.cup
    x := match t.x with
      | some r => s.x.set r (Config.freeWord (s.draws + 2))
      | none => s.x
    nzcv := if t.nzcv then Config.freeNibble s.draws else s.nzcv
    draws := s.draws + 3 }

/-! ### Memory -/

/-- What an address that nothing has written reads as. DESIGN CHOICE, unsafe (notes/assumptions/6.md). -/
def unlistedByte : Byte := 0

/-- The canonical form from address `lo` on. -/
def memWfFrom (lo : Nat) : Memory → Bool
  | [] => true
  | (a, b) :: m => decide (lo ≤ a) && decide (a < 2 ^ 32) && b != unlistedByte && memWfFrom (a + 1) m

/-- The canonical form: addresses strictly rising and below 2^32, no byte equal to `unlistedByte`. -/
def Memory.wf (m : Memory) : Bool := memWfFrom 0 m

/-- `M[a]` (R60). -/
def readByte : Memory → Nat → Byte
  | [], _ => unlistedByte
  | (a', b) :: m, a => if a = a' then b else readByte m a

/-- `M[a] <- v`, keeping the canonical form. -/
def writeByte : Memory → Nat → Byte → Memory
  | [], a, v => if v = unlistedByte then [] else [(a, v)]
  | (a', b) :: m, a, v =>
    if a < a' then (if v = unlistedByte then (a', b) :: m else (a, v) :: (a', b) :: m)
    else if a = a' then (if v = unlistedByte then m else (a, v) :: m)
    else (a', b) :: writeByte m a v

/-- The address of the memory byte that register byte `k` of an n-byte access at `addr` corresponds to (R62, R63). -/
def byteAddr (bigend : Bool) (addr : Word) (n k : Nat) : Nat :=
  (addr + BitVec.ofNat 32 (if bigend then n - 1 - k else k)).toNat

/-- `zext_64(MemRead(addr, n))` (R62). -/
def State.memRead (s : State) (addr : Word) (n : Nat) : DWord :=
  placeFields 8 (fun k => readByte s.mem (byteAddr s.bigend addr n k)) n

/-- The first `k` byte writes of `MemWrite(addr, n, v)` (R63). -/
def writeBytes (bigend : Bool) (addr : Word) (n : Nat) (v : DWord) (m : Memory) : Nat → Memory
  | 0 => m
  | k + 1 => writeByte (writeBytes bigend addr n v m k) (byteAddr bigend addr n k) (field 8 k v)

/-- Whether one of the `n` bytes from `addr` on, modulo 2^32, is one of the four bytes of an instruction word (R79). -/
def overlaps (addr : Word) (n : Nat) (c : CodeWord) : Bool :=
  (List.range n).any fun k => decide ((addr + BitVec.ofNat 32 k - c.addr).toNat < 4)

/-- `MemWrite(addr, n, v)` (R63). A store into the instruction stream leaves no instruction word where it wrote
(R77; notes/assumptions/8.md). -/
def State.memWrite (s : State) (addr : Word) (n : Nat) (v : DWord) : State :=
  { s with
    mem := writeBytes s.bigend addr n v s.mem n
    code := s.code.filter (fun c => !overlaps addr n c) }

/-- Whether the host refuses an access (R73). -/
def State.refuses (s : State) (addr : Word) (n : Nat) (dir : Direction) : Bool :=
  s.denied.any (fun r => decide (r.first ≤ addr.toNat) && decide (addr.toNat ≤ r.last) && r.size == n && r.dir == dir)

/-! ### The envelope (R107) -/

/-- `pc <- trunc_32(pc + 4)` (R37). -/
def State.advance (s : State) : State := { s with pc := s.pc + 4 }

/-- A rule that completed (R107 step 6). -/
def complete (s : State) : Result := .next s.advance

/-- `raise`: the exception and the pc are handed to the host and nothing is written (spec/60_exceptions.md R300). The spec
gives no entry, handler or return (R306, R308; notes/assumptions/11.md). -/
def takeException (e : Exception) (s : State) : Result := .fault (.raised e s.pc)

/-- `cond_pass` (R93). -/
def condPass (c : Cond) (s : State) : Bool := condHolds c s.nzcv

/-- `access_ok` (R92). -/
def accessOk (s : State) : Bool := bitAt s.cpar 0 && bitAt s.cpar 1

/-- The coprocessor access check (R107 step 3). -/
def whenEnabled (word : Word) (s : State) (k : Result) : Result :=
  if accessOk s then k else takeException (.undefinedInstruction word) s

/-- The envelope of an unconditional instruction. -/
def unconditional (i : Instr) (s : State) (k : Result) : Result := whenEnabled (encode i) s k

/-- The envelope of a conditional instruction: a condition that fails skips it (R107 steps 2 and 3). -/
def conditional (c : Cond) (i : Instr) (s : State) (k : Result) : Result :=
  if condPass c s then unconditional i s k else complete s

/-- The envelope of a word that is no instruction, from its condition field (R107 steps 2 and 3). -/
def envelopeOfWord (word : Word) (s : State) (k : Result) : Result :=
  match condOf (fieldsOf word).c with
  | some c => if condPass c s then whenEnabled word s k else complete s
  | none => whenEnabled word s k

/-! ### Loads and stores (R280) -/

/-- The alignment and refusal checks of an access (R280 steps 2 and 4); an untrapped misaligned access has no successor
state (spec/20_memory.md R67; notes/assumptions/14.md). -/
def checkedAccess (s : State) (addr : Word) (n : Nat) (dir : Direction) (k : Result) : Result :=
  if addr.toNat % n = 0 then
    if s.refuses addr n dir then takeException (.dataAbort addr) s else k
  else if s.alignTrap then takeException (.alignmentFault addr) s
  else .fault (.unpredictable (.misaligned addr) s.pc)

/-- `if writeback : x[Rn] <- target` (R280 step 6). -/
def State.writeBack (s : State) (am : AddrMode) (rn : CoreReg) (target : Word) : State :=
  if writesBack am then s.writeX rn target else s

/-- A load of n bytes into a data register (R273, R274). -/
def loadData (s : State) (am : AddrMode) (n : Nat) (d : DReg) (rn : CoreReg) (off : Word) : Result :=
  let addr := addrOf am (s.readX rn) off
  checkedAccess s addr n .read
    (complete ((s.writeWR d (s.memRead addr n)).writeBack am rn (targetOf am (s.readX rn) off)))

/-- A load of a word into a control register (R275). -/
def loadCtrl (s : State) (am : AddrMode) (cx : CtrlReg) (rn : CoreReg) (off : Word) : Result :=
  let addr := addrOf am (s.readX rn) off
  checkedAccess s addr 4 .read
    (complete ((s.writeCtrl cx ((s.memRead addr 4).setWidth 32)).writeBack am rn (targetOf am (s.readX rn) off)))

/-- A store of the low n bytes of `v`, from a state `t` that is `s` but for the draws the value took (R276 to R278). -/
def storeValue (s t : State) (am : AddrMode) (n : Nat) (v : DWord) (rn : CoreReg) (off : Word) : Result :=
  let addr := addrOf am (s.readX rn) off
  checkedAccess s addr n .write
    (complete ((t.memWrite addr n v).writeBack am rn (targetOf am (s.readX rn) off)))

/-! ### Instruction words (notes/assumptions/8.md) -/

/-- The word the host has handed at an address. -/
def lookupWord : List CodeWord → Word → Option Word
  | [], _ => none
  | c :: cs, a => if c.addr = a then some c.word else lookupWord cs a

/-- The instruction word at the pc. -/
def State.fetchWord (s : State) : Option Word := lookupWord s.code s.pc

/-- The state in which the host has handed `word` at the pc. -/
def State.handWord (s : State) (word : Word) : State := { s with code := { addr := s.pc, word := word } :: s.code }

/-- What a step does with an instruction word (R107): `run` is the meaning of instructions. -/
def runWord (run : Instr → State → Result) (word : Word) (s : State) : Result :=
  match decode word with
  | .instr i => run i s
  | .undefined => envelopeOfWord word s (takeException (.undefinedInstruction word) s)
  | .unpredictable t => envelopeOfWord word s (complete (s.drawDests t))
  | .stuck why => envelopeOfWord word s (.fault (.unpredictable (.word why word) s.pc))
  | .host => .refused (.hostWord word)

/-- One step: the word at the pc is fetched and run; a pc that is not a multiple of 4 is refused (R37). -/
def stepWith (run : Instr → State → Result) (s : State) : Result :=
  if bitsAt s.pc 0 2 = 0 then
    match s.fetchWord with
    | some word => runWord run word s
    | none => .refused (.noInstructionWord s.pc)
  else .refused (.misalignedPc s.pc)

end Sys2Proof.Machine
end

