-- ==== Sys2Proof/Machine/Arith.lean ====
section
/-! DEFINITION. The meanings of the arithmetic and compare instructions (spec/43_arithmetic_compare.md). -/

namespace Sys2Proof.Machine

/-- One field of WABS: the full-scale negative value becomes the full-scale positive one (R196). -/
def absField {w : Nat} (x : BitVec w) : BitVec w := BitVec.ofNat w (min x.toInt.natAbs (2 ^ (w - 1) - 1))

/-- WABS (R196). -/
def execWabs (c : Cond) (sz : Bhw) (d n : DReg) (s : State) : Result :=
  conditional c (.wabs c sz d n) s
    (complete (s.putFieldsZ (bhwWidth sz) d (fun i => absField (field (bhwWidth sz) i (s.readWR n)))))

/-- The exact absolute difference of two unsigned fields (R198, R223). -/
def absDiff {w : Nat} (x y : BitVec w) : Int := ((x.toNat : Int) - y.toNat).natAbs

/-- WABSDIFF (R198). -/
def execWabsdiff (c : Cond) (sz : Bhw) (d n m : DReg) (s : State) : Result :=
  conditional c (.wabsdiff c sz d n m) s
    (complete (s.putFieldsZ (bhwWidth sz) d (fun i =>
      BitVec.ofInt (bhwWidth sz)
        (absDiff (field (bhwWidth sz) i (s.readWR n)) (field (bhwWidth sz) i (s.readWR m))))))

/-- WACC: the sum of the fields of wRn; the old wRd is not used (R200). -/
def execWacc (c : Cond) (sz : Bhw) (d n : DReg) (s : State) : Result :=
  conditional c (.wacc c sz d n) s
    (complete (s.writeWR d (BitVec.ofInt 64
      (sumOver (fun i => (field (bhwWidth sz) i (s.readWR n)).toNat) (64 / bhwWidth sz)))))

/-- The carry into field `i` of WADD with C: the C flag of the field's own nibble of wCASF (R203). -/
def carryIn (w : Nat) (casf : Word) (i : Nat) : Nat := (bitAt casf (4 * flagIndex w i + 1)).toNat

/-- WADD by its qualifier, on legal operands (R203). -/
def State.addFields (s : State) (w : Nat) (k : AddKind) (d n m : DReg) : State :=
  match k with
  | .none => s.putSums w d (fun i => addLane none (field w i (s.readWR n)) (field w i (s.readWR m)) 0)
  | .us => s.putSatSums w d (fun i => addLane (some .u) (field w i (s.readWR n)) (field w i (s.readWR m)) 0)
  | .ss => s.putSatSums w d (fun i => addLane (some .s) (field w i (s.readWR n)) (field w i (s.readWR m)) 0)
  | .c => s.putSums w d (fun i =>
      addLane none (field w i (s.readWR n)) (field w i (s.readWR m)) (carryIn w s.casf i))

/-- WADD (R203). The byte form with C is no instruction: its word is class P (notes/assumptions/36.md). -/
def execWadd (c : Cond) (sz : Bhw) (k : AddKind) (d n m : DReg) (s : State) : Result :=
  conditional c (.wadd c sz k d n m) s
    (complete
      (if sz = .b ∧ k = .c then s.drawDests (destsAdd k d) else s.addFields (bhwWidth sz) k d n m))

/-- WSUB (R211). -/
def execWsub (c : Cond) (sz : Bhw) (k : SubKind) (d n m : DReg) (s : State) : Result :=
  conditional c (.wsub c sz k d n m) s
    (complete
      (match k with
      | .none => s.putSums (bhwWidth sz) d (fun i =>
          subLane Config.subCarry none (field (bhwWidth sz) i (s.readWR n)) (field (bhwWidth sz) i (s.readWR m)))
      | .us => s.putSatSums (bhwWidth sz) d (fun i =>
          subLane Config.subCarry (some .u) (field (bhwWidth sz) i (s.readWR n)) (field (bhwWidth sz) i (s.readWR m)))
      | .ss => s.putSatSums (bhwWidth sz) d (fun i =>
          subLane Config.subCarry (some .s) (field (bhwWidth sz) i (s.readWR n))
            (field (bhwWidth sz) i (s.readWR m)))))

/-- The number of the half word that field `i` is combined with: i xor 1 (R209, R215). -/
def crossIndex (i : Nat) : Nat := if i % 2 = 0 then i + 1 else i - 1

/-- A half word of the complex sums: `a[i]` plus or minus `b[i xor 1]`, saturated to the signed limits (R209, R215). -/
def crossLane (sub : Bool) (a b : DWord) (i : Nat) : LaneSum 16 :=
  if sub then subLane Config.subCarry (some .s) (field 16 i a) (field 16 (crossIndex i) b)
  else addLane (some .s) (field 16 i a) (field 16 (crossIndex i) b) 0

/-- WADDSUBHX: the odd halves subtract, the even halves add (R209). -/
def execWaddsubhx (c : Cond) (d n m : DReg) (s : State) : Result :=
  conditional c (.waddsubhx c d n m) s
    (complete (s.putSatSums 16 d (fun i => crossLane (i % 2 == 1) (s.readWR n) (s.readWR m) i)))

/-- WSUBADDHX: the odd halves add, the even halves subtract (R215). -/
def execWsubaddhx (c : Cond) (d n m : DReg) (s : State) : Result :=
  conditional c (.wsubaddhx c d n m) s
    (complete (s.putSatSums 16 d (fun i => crossLane (i % 2 == 0) (s.readWR n) (s.readWR m) i)))

/-- WCMPEQ (R217). -/
def execWcmpeq (c : Cond) (sz : Bhw) (d n m : DReg) (s : State) : Result :=
  conditional c (.wcmpeq c sz d n m) s
    (complete (s.putFieldsNZ (bhwWidth sz) d (fun i =>
      maskOf (bhwWidth sz) (field (bhwWidth sz) i (s.readWR n) == field (bhwWidth sz) i (s.readWR m)))))

/-- WCMPGT (R219). -/
def execWcmpgt (c : Cond) (sg : Sign) (sz : Bhw) (d n m : DReg) (s : State) : Result :=
  conditional c (.wcmpgt c sg sz d n m) s
    (complete (s.putFieldsNZ (bhwWidth sz) d (fun i =>
      maskOf (bhwWidth sz)
        (decide (valOf sg (field (bhwWidth sz) i (s.readWR n)) > valOf sg (field (bhwWidth sz) i (s.readWR m)))))))

/-- WMAX (R220). -/
def execWmax (c : Cond) (sg : Sign) (sz : Bhw) (d n m : DReg) (s : State) : Result :=
  conditional c (.wmax c sg sz d n m) s
    (complete (s.putFields (bhwWidth sz) d (fun i =>
      if valOf sg (field (bhwWidth sz) i (s.readWR n)) > valOf sg (field (bhwWidth sz) i (s.readWR m))
      then field (bhwWidth sz) i (s.readWR n) else field (bhwWidth sz) i (s.readWR m))))

/-- WMIN (R221). -/
def execWmin (c : Cond) (sg : Sign) (sz : Bhw) (d n m : DReg) (s : State) : Result :=
  conditional c (.wmin c sg sz d n m) s
    (complete (s.putFields (bhwWidth sz) d (fun i =>
      if valOf sg (field (bhwWidth sz) i (s.readWR n)) < valOf sg (field (bhwWidth sz) i (s.readWR m))
      then field (bhwWidth sz) i (s.readWR n) else field (bhwWidth sz) i (s.readWR m))))

/-- WSAD: the sum of absolute differences, accumulated to 32 bits; the upper word is written 0 (R223). -/
def execWsad (c : Cond) (sz : Bh) (z : Bool) (d n m : DReg) (s : State) : Result :=
  conditional c (.wsad c sz z d n m) s
    (complete (s.writeWR d ((BitVec.ofInt 32
      ((if z then 0 else ((field 32 0 (s.readWR d)).toNat : Int)) +
        sumOver (fun i => absDiff (field (bhWidth sz) i (s.readWR n)) (field (bhWidth sz) i (s.readWR m)))
          (64 / bhWidth sz))).setWidth 64)))

end Sys2Proof.Machine
end

