-- ==== Sys2Proof/Machine/LoadStore.lean ====
section
/-! DEFINITION. The meanings of the loads and stores (spec/46_load_store.md). -/

namespace Sys2Proof.Machine

/-- WLDRB, WLDRH, WLDRW, WLDRD with an immediate offset: the loaded data, zero-extended, into wRd (R273). -/
def execWldr (c : Cond) (sz : Bhwd) (am : AddrMode) (d : DReg) (rn : CoreReg) (off : BitVec 8) (s : State) : Result :=
  conditional c (.wldr c sz am d rn off) s
    (loadData s am (bhwdBytes sz) d rn (offsetImm (bhwdBits sz).2 off))

/-- WLDRD with a register offset (R274). -/
def execWldrd (am : AddrMode) (d : DReg) (rn rm : CoreReg) (sh : BitVec 4) (s : State) : Result :=
  unconditional (.wldrd am d rn rm sh) s (loadData s am 8 d rn (offsetReg (s.readX rm) sh))

/-- WLDRW of a control register (R275). -/
def execWldrw (am : AddrMode) (cx : CtrlReg) (rn : CoreReg) (off : BitVec 8) (s : State) : Result :=
  unconditional (.wldrw am cx rn off) s (loadCtrl s am cx rn (offsetImm true off))

/-- WSTRB, WSTRH, WSTRW, WSTRD with an immediate offset: the low bytes of wRm (R276). -/
def execWstr (c : Cond) (sz : Bhwd) (am : AddrMode) (m : DReg) (rn : CoreReg) (off : BitVec 8) (s : State) : Result :=
  conditional c (.wstr c sz am m rn off) s
    (storeValue s s am (bhwdBytes sz) (s.readWR m) rn (offsetImm (bhwdBits sz).2 off))

/-- WSTRD with a register offset (R277). -/
def execWstrd (am : AddrMode) (m : DReg) (rn rm : CoreReg) (sh : BitVec 4) (s : State) : Result :=
  unconditional (.wstrd am m rn rm sh) s (storeValue s s am 8 (s.readWR m) rn (offsetReg (s.readX rm) sh))

/-- WSTRW of a control register: the value TMRC would read (R278). -/
def execWstrw (am : AddrMode) (cx : CtrlReg) (rn : CoreReg) (off : BitVec 8) (s : State) : Result :=
  unconditional (.wstrw am cx rn off) s
    (storeValue s (s.afterReadCtrl cx) am 4 ((s.readCtrl cx).setWidth 64) rn (offsetImm true off))

end Sys2Proof.Machine
end

