-- ==== Sys2Proof/Machine/Logic.lean ====
section
/-! DEFINITION. The meanings of the logical, average and alignment instructions (spec/41_logic_average_align.md). -/

namespace Sys2Proof.Machine

/-- WOR (R162). -/
def execWor (c : Cond) (d n m : DReg) (s : State) : Result :=
  conditional c (.wor c d n m) s (complete (s.putDouble d (s.readWR n ||| s.readWR m)))

/-- WXOR (R163). -/
def execWxor (c : Cond) (d n m : DReg) (s : State) : Result :=
  conditional c (.wxor c d n m) s (complete (s.putDouble d (s.readWR n ^^^ s.readWR m)))

/-- WAND (R160). -/
def execWand (c : Cond) (d n m : DReg) (s : State) : Result :=
  conditional c (.wand c d n m) s (complete (s.putDouble d (s.readWR n &&& s.readWR m)))

/-- WANDN: the second operand is complemented (R161). -/
def execWandn (c : Cond) (d n m : DReg) (s : State) : Result :=
  conditional c (.wandn c d n m) s (complete (s.putDouble d (s.readWR n &&& ~~~ s.readWR m)))

/-- WMOV: WOR of one source twice (R164). -/
def execWmov (c : Cond) (d n : DReg) (s : State) : Result :=
  conditional c (.wmov c d n) s (complete (s.putDouble d (s.readWR n)))

/-- WZERO: WANDN of one register with itself (R165). -/
def execWzero (c : Cond) (d : DReg) (s : State) : Result :=
  conditional c (.wzero c d) s (complete (s.putDouble d 0))

/-- One field of WAVG2 (R168). -/
def averageTwo {w : Nat} (r : Bool) (x y : BitVec w) : BitVec w :=
  BitVec.ofNat w ((x.toNat + y.toNat + r.toNat) / 2)

/-- WAVG2: average of two unsigned vectors (R168). -/
def execWavg2 (c : Cond) (sz : Bh) (r : Bool) (d n m : DReg) (s : State) : Result :=
  conditional c (.wavg2 c sz r d n m) s
    (complete (s.putFieldsZ (bhWidth sz) d (fun i =>
      averageTwo r (field (bhWidth sz) i (s.readWR n)) (field (bhWidth sz) i (s.readWR m)))))

/-- Byte `i` of WAVG4: byte 7 is 0, the others average two adjacent bytes of both sources (R170). -/
def averageFour (r : Bool) (a b : DWord) (i : Nat) : BitVec 8 :=
  if i < 7 then
    BitVec.ofNat 8 (((field 8 (i + 1) a).toNat + (field 8 (i + 1) b).toNat + (field 8 i a).toNat +
      (field 8 i b).toNat + 1 + r.toNat) / 4)
  else 0

/-- WAVG4: seven four-pixel averages (R170). -/
def execWavg4 (c : Cond) (r : Bool) (d n m : DReg) (s : State) : Result :=
  conditional c (.wavg4 c r d n m) s
    (complete (s.putFieldsZ 8 d (averageFour r (s.readWR n) (s.readWR m))))

/-- `((wRm : wRn) >> (8 * k))[63:0]` (R174, R175). -/
def alignPair (n m : DWord) (k : Nat) : DWord := ((m ++ n) >>> (8 * k)).setWidth 64

/-- WALIGNI: the byte offset is Imm3 (R174). -/
def execWaligni (c : Cond) (d n m : DReg) (imm : BitVec 3) (s : State) : Result :=
  conditional c (.waligni c d n m imm) s
    (complete (s.writeWR d (alignPair (s.readWR n) (s.readWR m) imm.toNat)))

/-- WALIGNR: the byte offset is bits 2:0 of wCGRk (R175). -/
def execWalignr (c : Cond) (k : CgrIndex) (d n m : DReg) (s : State) : Result :=
  conditional c (.walignr c k d n m) s
    (complete (s.writeWR d (alignPair (s.readWR n) (s.readWR m) (bitsAt (s.readCgr k) 0 3).toNat)))

end Sys2Proof.Machine
end

