-- ==== Sys2Proof/Machine/Multiply.lean ====
section
/-! DEFINITION. The meanings of the multiply and multiply-accumulate instructions on data registers
(spec/44_multiply.md). -/

namespace Sys2Proof.Machine

/-- The exact product of half word `i` of one register and `j` of another (R225). -/
def halfProduct (sg : Sign) (a b : DWord) (i j : Nat) : Int := valOf sg (field 16 i a) * valOf sg (field 16 j b)

/-- The exact product of word `i` of one register and `j` of another (R225). -/
def wordProduct (sg : Sign) (a b : DWord) (i j : Nat) : Int := valOf sg (field 32 i a) * valOf sg (field 32 j b)

/-- WMAC: the four products accumulated into wRd, or into 0 with Z (R230). -/
def execWmac (c : Cond) (sg : Sign) (z : Bool) (d n m : DReg) (s : State) : Result :=
  conditional c (.wmac c sg z d n m) s
    (complete (s.writeWR d (BitVec.ofInt 64
      ((if z then 0 else ((s.readWR d).toNat : Int)) +
        sumOver (fun i => halfProduct sg (s.readWR n) (s.readWR m) i i) 4))))

/-- Word `j` of WMADD (R232). -/
def maddWord (sg : Sign) (k : MaddKind) (a b : DWord) (j : Nat) : Int :=
  match k with
  | .plain => halfProduct sg a b (2 * j) (2 * j) + halfProduct sg a b (2 * j + 1) (2 * j + 1)
  | .x => halfProduct sg a b (2 * j) (2 * j + 1) + halfProduct sg a b (2 * j + 1) (2 * j)
  | .n => halfProduct sg a b (2 * j) (2 * j) - halfProduct sg a b (2 * j + 1) (2 * j + 1)

/-- WMADD (R232). -/
def execWmadd (c : Cond) (sg : Sign) (k : MaddKind) (d n m : DReg) (s : State) : Result :=
  conditional c (.wmadd c sg k d n m) s
    (complete (s.putFields 32 d (fun j => BitVec.ofInt 32 (maddWord sg k (s.readWR n) (s.readWR m) j))))

/-- An accumulation into wRd modulo 2^64, or its negation with N (R235, R236). -/
def State.accumulate64 (s : State) (neg : Bool) (d : DReg) (p : Int) : State :=
  s.writeWR d (BitVec.ofInt 64 (if neg then ((s.readWR d).toNat : Int) - p else ((s.readWR d).toNat : Int) + p))

/-- WMIAxy: one product from each half of the registers (R235). -/
def execWmiaxy (c : Cond) (neg : Bool) (x y : Half) (d n m : DReg) (s : State) : Result :=
  conditional c (.wmiaxy c neg x y d n m) s
    (complete (s.accumulate64 neg d
      (halfProduct .s (s.readWR n) (s.readWR m) (halfIndex x 1) (halfIndex y 1) +
        halfProduct .s (s.readWR n) (s.readWR m) (halfIndex x 0) (halfIndex y 0))))

/-- WMIAWxy: one product of words (R236). -/
def execWmiawxy (c : Cond) (neg : Bool) (x y : Half) (d n m : DReg) (s : State) : Result :=
  conditional c (.wmiawxy c neg x y d n m) s
    (complete (s.accumulate64 neg d
      (wordProduct .s (s.readWR n) (s.readWR m) (halfIndex x 0) (halfIndex y 0))))

/-- Half word `i` of WMUL (R237). -/
def mulField (k : MulKind) (a b : DWord) (i : Nat) : BitVec 16 :=
  match k with
  | .ul => BitVec.ofInt 16 (halfProduct .u a b i i)
  | .sl => BitVec.ofInt 16 (halfProduct .s a b i i)
  | .um => BitVec.ofInt 16 (floorShift (halfProduct .u a b i i) 16)
  | .sm => BitVec.ofInt 16 (floorShift (halfProduct .s a b i i) 16)
  | .umr => BitVec.ofInt 16 (floorShift (halfProduct .u a b i i + 0x8000) 16)
  | .smr => BitVec.ofInt 16 (floorShift (halfProduct .s a b i i + 0x8000) 16)

/-- WMUL (R237). -/
def execWmul (c : Cond) (k : MulKind) (d n m : DReg) (s : State) : Result :=
  conditional c (.wmul c k d n m) s
    (complete (s.putFields 16 d (mulField k (s.readWR n) (s.readWR m))))

/-- Word `j` of WMULW (R239). -/
def mulwField (k : MulwKind) (a b : DWord) (j : Nat) : BitVec 32 :=
  match k with
  | .l => BitVec.ofInt 32 (wordProduct .u a b j j)
  | .um => BitVec.ofInt 32 (floorShift (wordProduct .u a b j j) 32)
  | .umr => BitVec.ofInt 32 (floorShift (wordProduct .u a b j j + 0x80000000) 32)
  | .sm => BitVec.ofInt 32 (floorShift (wordProduct .s a b j j) 32)
  | .smr => BitVec.ofInt 32 (floorShift (wordProduct .s a b j j + 0x80000000) 32)

/-- WMULW (R239). -/
def execWmulw (c : Cond) (k : MulwKind) (d n m : DReg) (s : State) : Result :=
  conditional c (.wmulw c k d n m) s
    (complete (s.putFields 32 d (mulwField k (s.readWR n) (s.readWR m))))

/-- The doubled fractional product of two half words; -1 times -1 is the largest value (R241). -/
def fractionalProduct (a b : BitVec 16) : Int :=
  if a = 0x8000 ∧ b = 0x8000 then 0x7FFFFFFF else a.toInt * b.toInt * 2

/-- The exact accumulation of word `j` of WQMIAxy (R241). -/
def fractionalSum (neg : Bool) (x y : Half) (acc a b : DWord) (j : Nat) : Int :=
  let p := fractionalProduct (field 16 (halfIndex x j) a) (field 16 (halfIndex y j) b)
  if neg then (field 32 j acc).toInt - p else (field 32 j acc).toInt + p

/-- WQMIAxy: two fractional products accumulated with signed saturation (R241). -/
def execWqmiaxy (c : Cond) (neg : Bool) (x y : Half) (d n m : DReg) (s : State) : Result :=
  conditional c (.wqmiaxy c neg x y d n m) s
    (complete ((s.putFields 32 d (fun j =>
        saturate .s 32 (fractionalSum neg x y (s.readWR d) (s.readWR n) (s.readWR m) j))).orCssfOnly
      (cssfOf 32 (fun j =>
        saturates .s 32 (fractionalSum neg x y (s.readWR d) (s.readWR n) (s.readWR m) j)))))

/-- Whether two fractional fields are both -1, the one case of WQMULM and WQMULWM that saturates (R244, R246). -/
def bothMinusOne {w : Nat} (a b : BitVec w) : Bool := a == BitVec.intMin w && b == BitVec.intMin w

/-- One field of a fractional multiply: the product with `half` added, shifted right by `w - 1` (R244, R246). -/
def fractionalField {w : Nat} (half : Int) (a b : BitVec w) : BitVec w :=
  if bothMinusOne a b then BitVec.intMax w else BitVec.ofInt w (floorShift (a.toInt * b.toInt + half) (w - 1))

/-- WQMULM (R244). -/
def execWqmulm (c : Cond) (r : Bool) (d n m : DReg) (s : State) : Result :=
  conditional c (.wqmulm c r d n m) s
    (complete ((s.putFields 16 d (fun i =>
        fractionalField (if r then 0x4000 else 0) (field 16 i (s.readWR n)) (field 16 i (s.readWR m)))).orCssfOnly
      (cssfOf 16 (fun i => bothMinusOne (field 16 i (s.readWR n)) (field 16 i (s.readWR m))))))

/-- WQMULWM (R246). -/
def execWqmulwm (c : Cond) (r : Bool) (d n m : DReg) (s : State) : Result :=
  conditional c (.wqmulwm c r d n m) s
    (complete ((s.putFields 32 d (fun j =>
        fractionalField (if r then 0x40000000 else 0) (field 32 j (s.readWR n)) (field 32 j (s.readWR m)))).orCssfOnly
      (cssfOf 32 (fun j => bothMinusOne (field 32 j (s.readWR n)) (field 32 j (s.readWR m))))))

end Sys2Proof.Machine
end

