-- ==== Sys2Proof/Machine/Pack.lean ====
section
/-! DEFINITION. The meanings of the pack, merge, shuffle and unpack instructions (spec/45_pack_unpack_shuffle.md). -/

namespace Sys2Proof.Machine

/-- US or SS as the limits of the saturation (R250). -/
def packSign : PackKind → Sign
  | .us => .u | .ss => .s

/-- The signed source field that result field `j` of WPACK comes from: wRn below, wRm above (R250). -/
def packSource (w : Nat) (n m : DWord) (j : Nat) : Int :=
  if j < 64 / w then (field w j n).toInt else (field w (j - 64 / w) m).toInt

/-- WPACK: the source fields narrowed to half their width with saturation (R250). -/
def execWpack (c : Cond) (sz : Hwd) (k : PackKind) (d n m : DReg) (s : State) : Result :=
  conditional c (.wpack c sz k d n m) s
    (complete ((s.putFieldsNZ (hwdWidth sz / 2) d (fun j =>
        saturate (packSign k) (hwdWidth sz / 2) (packSource (hwdWidth sz) (s.readWR n) (s.readWR m) j))).orCssf
      (cssfOf (hwdWidth sz / 2) (fun j =>
        saturates (packSign k) (hwdWidth sz / 2) (packSource (hwdWidth sz) (s.readWR n) (s.readWR m) j)))))

/-- The low `8 - k` bytes of wRn with the low `k` bytes of wRm above them (R253). -/
def mergeBytes (n m : DWord) (k : Nat) : DWord :=
  BitVec.ofNat 64 (m.toNat * 2 ^ (64 - 8 * k)) ||| BitVec.ofNat 64 (n.toNat % 2 ^ (64 - 8 * k))

/-- WMERGE (R253). -/
def execWmerge (c : Cond) (d n m : DReg) (imm : BitVec 3) (s : State) : Result :=
  conditional c (.wmerge c d n m imm) s
    (complete (s.writeWR d (mergeBytes (s.readWR n) (s.readWR m) imm.toNat)))

/-- WSHUFH (R256). -/
def execWshufh (c : Cond) (d n : DReg) (imm : BitVec 8) (s : State) : Result :=
  conditional c (.wshufh c d n imm) s
    (complete (s.putFieldsNZ 16 d (fun i => field 16 (bitsAt imm (2 * i) 2).toNat (s.readWR n))))

/-- The fields of a half of wRn from field `base` on, each extended to twice its width (R258, R262). -/
def State.unpackExtend (s : State) (sg : Sign) (w base : Nat) (d n : DReg) : State :=
  s.putFieldsNZ (2 * w) d (fun j => extendTo (2 * w) sg (field w (base + j) (s.readWR n)))

/-- The fields of a half of wRn and wRm from field `base` on, interleaved, wRn in the even positions (R260, R264). -/
def State.unpackInterleave (s : State) (w base : Nat) (d n m : DReg) : State :=
  s.putFieldsNZ w d (fun j =>
    if j % 2 = 0 then field w (base + j / 2) (s.readWR n) else field w (base + j / 2) (s.readWR m))

/-- WUNPCKEH: the high half of wRn extended (R258). -/
def execWunpckeh (c : Cond) (sg : Sign) (sz : Bhw) (d n : DReg) (s : State) : Result :=
  conditional c (.wunpckeh c sg sz d n) s
    (complete (s.unpackExtend sg (bhwWidth sz) (32 / bhwWidth sz) d n))

/-- WUNPCKEL: the low half of wRn extended (R262). -/
def execWunpckel (c : Cond) (sg : Sign) (sz : Bhw) (d n : DReg) (s : State) : Result :=
  conditional c (.wunpckel c sg sz d n) s (complete (s.unpackExtend sg (bhwWidth sz) 0 d n))

/-- WUNPCKIH: the high halves of wRn and wRm interleaved (R260). -/
def execWunpckih (c : Cond) (sz : Bhw) (d n m : DReg) (s : State) : Result :=
  conditional c (.wunpckih c sz d n m) s
    (complete (s.unpackInterleave (bhwWidth sz) (32 / bhwWidth sz) d n m))

/-- WUNPCKIL: the low halves of wRn and wRm interleaved (R264). -/
def execWunpckil (c : Cond) (sz : Bhw) (d n m : DReg) (s : State) : Result :=
  conditional c (.wunpckil c sz d n m) s (complete (s.unpackInterleave (bhwWidth sz) 0 d n m))

end Sys2Proof.Machine
end

