-- ==== Sys2Proof/Machine/Shift.lean ====
section
/-! DEFINITION. The meanings of the shift and rotate instructions, each with its amount from a data register, from a
general-purpose control register (G) or from a 5-bit immediate (spec/42_shift_rotate.md). -/

namespace Sys2Proof.Machine

/-- Every field of wRn shifted by one amount, with the flags of R182. -/
def State.shiftFieldsBy (s : State) (sz : Hwd) (f : BitVec (hwdWidth sz) → Nat → BitVec (hwdWidth sz)) (d n : DReg)
    (sv : Nat) : State :=
  s.putFieldsNZ (hwdWidth sz) d (fun i => f (field (hwdWidth sz) i (s.readWR n)) sv)

/-- WSRA, register form: arithmetic shift right (R187). -/
def execWsra (c : Cond) (sz : Hwd) (d n m : DReg) (s : State) : Result :=
  conditional c (.wsra c sz d n m) s (complete (s.shiftFieldsBy sz sraField d n (amountReg (s.readWR m))))

/-- WSRA, G form (R187). -/
def execWsraG (c : Cond) (sz : Hwd) (d n : DReg) (k : CgrIndex) (s : State) : Result :=
  conditional c (.wsraG c sz d n k) s (complete (s.shiftFieldsBy sz sraField d n (amountCgr (s.readCgr k))))

/-- WSRA, immediate form (R187). -/
def execWsraI (sz : Hwd) (d n : DReg) (imm : BitVec 5) (s : State) : Result :=
  unconditional (.wsraI sz d n imm) s (complete (s.shiftFieldsBy sz sraField d n (amountImm imm)))

/-- WSLL, register form: logical shift left (R185). -/
def execWsll (c : Cond) (sz : Hwd) (d n m : DReg) (s : State) : Result :=
  conditional c (.wsll c sz d n m) s (complete (s.shiftFieldsBy sz sllField d n (amountReg (s.readWR m))))

/-- WSLL, G form (R185). -/
def execWsllG (c : Cond) (sz : Hwd) (d n : DReg) (k : CgrIndex) (s : State) : Result :=
  conditional c (.wsllG c sz d n k) s (complete (s.shiftFieldsBy sz sllField d n (amountCgr (s.readCgr k))))

/-- WSLL, immediate form (R185). -/
def execWsllI (sz : Hwd) (d n : DReg) (imm : BitVec 5) (s : State) : Result :=
  unconditional (.wsllI sz d n imm) s (complete (s.shiftFieldsBy sz sllField d n (amountImm imm)))

/-- WSRL, register form: logical shift right (R189). -/
def execWsrl (c : Cond) (sz : Hwd) (d n m : DReg) (s : State) : Result :=
  conditional c (.wsrl c sz d n m) s (complete (s.shiftFieldsBy sz srlField d n (amountReg (s.readWR m))))

/-- WSRL, G form (R189). -/
def execWsrlG (c : Cond) (sz : Hwd) (d n : DReg) (k : CgrIndex) (s : State) : Result :=
  conditional c (.wsrlG c sz d n k) s (complete (s.shiftFieldsBy sz srlField d n (amountCgr (s.readCgr k))))

/-- WSRL, immediate form (R189). -/
def execWsrlI (sz : Hwd) (d n : DReg) (imm : BitVec 5) (s : State) : Result :=
  unconditional (.wsrlI sz d n imm) s (complete (s.shiftFieldsBy sz srlField d n (amountImm imm)))

/-- WROR, register form: rotate right (R183). -/
def execWror (c : Cond) (sz : Hwd) (d n m : DReg) (s : State) : Result :=
  conditional c (.wror c sz d n m) s (complete (s.shiftFieldsBy sz rotField d n (amountReg (s.readWR m))))

/-- WROR, G form (R183). -/
def execWrorG (c : Cond) (sz : Hwd) (d n : DReg) (k : CgrIndex) (s : State) : Result :=
  conditional c (.wrorG c sz d n k) s (complete (s.shiftFieldsBy sz rotField d n (amountCgr (s.readCgr k))))

/-- WROR, immediate form (R183). -/
def execWrorI (sz : Hwd) (d n : DReg) (imm : BitVec 5) (s : State) : Result :=
  unconditional (.wrorI sz d n imm) s (complete (s.shiftFieldsBy sz rotField d n (amountImm imm)))

end Sys2Proof.Machine
end

