-- ==== Sys2Proof/Machine/Transfer.lean ====
section
/-! DEFINITION. The meanings of the transfers between the ARM core and the coprocessor (spec/40_transfer.md). -/

namespace Sys2Proof.Machine

/-- TANDC: AND across the flag fields of wCASF into CPSR N, Z, C, V (R131). -/
def execTandc (c : Cond) (sz : Bhw) (s : State) : Result :=
  conditional c (.tandc c sz) s
    (complete (s.writeNzcv (andNibbles (bhwWidth sz) s.casf (64 / bhwWidth sz))))

/-- TBCST: the low bits of Rn in every field (R132). -/
def execTbcst (c : Cond) (sz : Bhw) (d : DReg) (rn : CoreReg) (s : State) : Result :=
  conditional c (.tbcst c sz d rn) s
    (complete (s.putFields (bhwWidth sz) d (fun _ => (s.readX rn).setWidth (bhwWidth sz))))

/-- TEXTRC: the flag nibble of one field of wCASF into CPSR N, Z, C, V (R133). -/
def execTextrc (c : Cond) (sz : Bhw) (imm : BitVec 3) (s : State) : Result :=
  conditional c (.textrc c sz imm) s
    (complete (s.writeNzcv (field 4 (flagIndex (bhwWidth sz) (fieldOfImm (bhwWidth sz) imm)) s.casf)))

/-- TEXTRM: one field of wRn, extended, into Rd (R134). -/
def execTextrm (c : Cond) (sg : Sign) (sz : Bhw) (rd : CoreReg) (n : DReg) (imm : BitVec 3) (s : State) : Result :=
  conditional c (.textrm c sg sz rd n imm) s
    (complete (s.writeX rd
      (extendTo 32 sg (field (bhwWidth sz) (fieldOfImm (bhwWidth sz) imm) (s.readWR n)))))

/-- TINSR: the low bits of Rn into one field of wRd (R135). -/
def execTinsr (c : Cond) (sz : Bhw) (d : DReg) (rn : CoreReg) (imm : BitVec 3) (s : State) : Result :=
  conditional c (.tinsr c sz d rn imm) s
    (complete (s.putFields (bhwWidth sz) d (fun i =>
      if i = fieldOfImm (bhwWidth sz) imm then (s.readX rn).setWidth (bhwWidth sz)
      else field (bhwWidth sz) i (s.readWR d))))

/-- TMCR: Rn into a control register, with the write rules of that register (R136). -/
def execTmcr (c : Cond) (cx : CtrlReg) (rn : CoreReg) (s : State) : Result :=
  conditional c (.tmcr c cx rn) s (complete (s.writeCtrl cx (s.readX rn)))

/-- TMCRR: RdHi and RdLo into wRd (R137). -/
def execTmcrr (c : Cond) (d : DReg) (rdLo rdHi : CoreReg) (s : State) : Result :=
  conditional c (.tmcrr c d rdLo rdHi) s (complete (s.writeWR d (s.readX rdHi ++ s.readX rdLo)))

/-- wRd plus an exact integer, modulo 2^64 (R138 to R140). -/
def State.accumulate (s : State) (d : DReg) (p : Int) : State :=
  s.writeWR d (BitVec.ofInt 64 (p + (s.readWR d).toInt))

/-- TMIA: signed 32 x 32 product accumulated (R138). -/
def execTmia (c : Cond) (d : DReg) (rm rs : CoreReg) (s : State) : Result :=
  conditional c (.tmia c d rm rs) s
    (complete (s.accumulate d ((s.readX rm).toInt * (s.readX rs).toInt)))

/-- The signed product of a half of Rm and a half of Rs. -/
def coreHalfProduct (s : State) (rm rs : CoreReg) (x y : Half) : Int :=
  (field 16 (halfIndex x 0) (s.readX rm)).toInt * (field 16 (halfIndex y 0) (s.readX rs)).toInt

/-- TMIAPH: the two products of the halves, added exactly and accumulated (R139). -/
def execTmiaph (c : Cond) (d : DReg) (rm rs : CoreReg) (s : State) : Result :=
  conditional c (.tmiaph c d rm rs) s
    (complete (s.accumulate d (coreHalfProduct s rm rs .t .t + coreHalfProduct s rm rs .b .b)))

/-- TMIAxy: one product of selected halves accumulated (R140). -/
def execTmiaxy (c : Cond) (x y : Half) (d : DReg) (rm rs : CoreReg) (s : State) : Result :=
  conditional c (.tmiaxy c x y d rm rs) s (complete (s.accumulate d (coreHalfProduct s rm rs x y)))

/-- The top bits of the first `k` fields of width `w`, field i in bit i (R141). -/
def gatherTop (w : Nat) (v : DWord) : Nat → Word
  | 0 => 0
  | k + 1 => gatherTop w v k ||| ((BitVec.ofBool (field w k v).msb).setWidth 32 <<< k)

/-- TMOVMSK: the top bit of every field of wRn into Rd (R141). -/
def execTmovmsk (c : Cond) (sz : Bhw) (rd : CoreReg) (n : DReg) (s : State) : Result :=
  conditional c (.tmovmsk c sz rd n) s
    (complete (s.writeX rd (gatherTop (bhwWidth sz) (s.readWR n) (64 / bhwWidth sz))))

/-- TMRC: a control register into Rd (R142). -/
def execTmrc (c : Cond) (rd : CoreReg) (cx : CtrlReg) (s : State) : Result :=
  conditional c (.tmrc c rd cx) s (complete ((s.afterReadCtrl cx).writeX rd (s.readCtrl cx)))

/-- TMRRC: wRn into RdHi and RdLo; with RdHi = RdLo that register takes a free value (R143, R17;
notes/assumptions/12.md). -/
def execTmrrc (c : Cond) (rdLo rdHi : CoreReg) (n : DReg) (s : State) : Result :=
  conditional c (.tmrrc c rdLo rdHi n) s
    (complete
      (if rdLo = rdHi then s.drawDests (destsCore rdLo)
      else (s.writeX rdHi (field 32 1 (s.readWR n))).writeX rdLo (field 32 0 (s.readWR n))))

/-- TORC: OR across the flag fields of wCASF into CPSR N, Z, C, V (R144). -/
def execTorc (c : Cond) (sz : Bhw) (s : State) : Result :=
  conditional c (.torc c sz) s
    (complete (s.writeNzcv (orNibbles (bhwWidth sz) s.casf (64 / bhwWidth sz))))

/-- TORVSC: OR across the saturation flags into CPSR V; N, Z and C are cleared (R145). -/
def execTorvsc (c : Cond) (sz : Bhw) (s : State) : Result :=
  conditional c (.torvsc c sz) s
    (complete (s.writeNzcv
      (nibbleOf false false false (orSatBits (bhwWidth sz) s.cssf (64 / bhwWidth sz)))))

end Sys2Proof.Machine
end

