-- ==== Sys2Proof/Machine/Dispatch.lean ====
section
/-! DEFINITION. One arm per constructor of `Instr`: each calls the meaning of its instruction. -/

namespace Sys2Proof.Machine

def exec (i : Instr) (s : State) : Host.Outcome State Fault Refusal :=
  match i with
  | .tandc c sz => Sys2Proof.Machine.execTandc c sz s
  | .tbcst c sz d rn => Sys2Proof.Machine.execTbcst c sz d rn s
  | .textrc c sz imm => Sys2Proof.Machine.execTextrc c sz imm s
  | .textrm c sg sz rd n imm => Sys2Proof.Machine.execTextrm c sg sz rd n imm s
  | .tinsr c sz d rn imm => Sys2Proof.Machine.execTinsr c sz d rn imm s
  | .tmcr c cx rn => Sys2Proof.Machine.execTmcr c cx rn s
  | .tmcrr c d rdLo rdHi => Sys2Proof.Machine.execTmcrr c d rdLo rdHi s
  | .tmia c d rm rs => Sys2Proof.Machine.execTmia c d rm rs s
  | .tmiaph c d rm rs => Sys2Proof.Machine.execTmiaph c d rm rs s
  | .tmiaxy c x y d rm rs => Sys2Proof.Machine.execTmiaxy c x y d rm rs s
  | .tmovmsk c sz rd n => Sys2Proof.Machine.execTmovmsk c sz rd n s
  | .tmrc c rd cx => Sys2Proof.Machine.execTmrc c rd cx s
  | .tmrrc c rdLo rdHi n => Sys2Proof.Machine.execTmrrc c rdLo rdHi n s
  | .torc c sz => Sys2Proof.Machine.execTorc c sz s
  | .torvsc c sz => Sys2Proof.Machine.execTorvsc c sz s
  | .wor c d n m => Sys2Proof.Machine.execWor c d n m s
  | .wxor c d n m => Sys2Proof.Machine.execWxor c d n m s
  | .wand c d n m => Sys2Proof.Machine.execWand c d n m s
  | .wandn c d n m => Sys2Proof.Machine.execWandn c d n m s
  | .wavg4 c r d n m => Sys2Proof.Machine.execWavg4 c r d n m s
  | .wavg2 c sz r d n m => Sys2Proof.Machine.execWavg2 c sz r d n m s
  | .waligni c d n m imm => Sys2Proof.Machine.execWaligni c d n m imm s
  | .walignr c k d n m => Sys2Proof.Machine.execWalignr c k d n m s
  | .wsra c sz d n m => Sys2Proof.Machine.execWsra c sz d n m s
  | .wsraG c sz d n k => Sys2Proof.Machine.execWsraG c sz d n k s
  | .wsraI sz d n imm => Sys2Proof.Machine.execWsraI sz d n imm s
  | .wsll c sz d n m => Sys2Proof.Machine.execWsll c sz d n m s
  | .wsllG c sz d n k => Sys2Proof.Machine.execWsllG c sz d n k s
  | .wsllI sz d n imm => Sys2Proof.Machine.execWsllI sz d n imm s
  | .wsrl c sz d n m => Sys2Proof.Machine.execWsrl c sz d n m s
  | .wsrlG c sz d n k => Sys2Proof.Machine.execWsrlG c sz d n k s
  | .wsrlI sz d n imm => Sys2Proof.Machine.execWsrlI sz d n imm s
  | .wror c sz d n m => Sys2Proof.Machine.execWror c sz d n m s
  | .wrorG c sz d n k => Sys2Proof.Machine.execWrorG c sz d n k s
  | .wrorI sz d n imm => Sys2Proof.Machine.execWrorI sz d n imm s
  | .wcmpeq c sz d n m => Sys2Proof.Machine.execWcmpeq c sz d n m s
  | .wcmpgt c sg sz d n m => Sys2Proof.Machine.execWcmpgt c sg sz d n m s
  | .wmerge c d n m imm => Sys2Proof.Machine.execWmerge c d n m imm s
  | .wqmulm c r d n m => Sys2Proof.Machine.execWqmulm c r d n m s
  | .wpack c sz k d n m => Sys2Proof.Machine.execWpack c sz k d n m s
  | .wmiaxy c neg x y d n m => Sys2Proof.Machine.execWmiaxy c neg x y d n m s
  | .wqmiaxy c neg x y d n m => Sys2Proof.Machine.execWqmiaxy c neg x y d n m s
  | .wunpckeh c sg sz d n => Sys2Proof.Machine.execWunpckeh c sg sz d n s
  | .wunpckih c sz d n m => Sys2Proof.Machine.execWunpckih c sz d n m s
  | .wmulw c k d n m => Sys2Proof.Machine.execWmulw c k d n m s
  | .wunpckel c sg sz d n => Sys2Proof.Machine.execWunpckel c sg sz d n s
  | .wunpckil c sz d n m => Sys2Proof.Machine.execWunpckil c sz d n m s
  | .wqmulwm c r d n m => Sys2Proof.Machine.execWqmulwm c r d n m s
  | .wmul c k d n m => Sys2Proof.Machine.execWmul c k d n m s
  | .wmac c sg z d n m => Sys2Proof.Machine.execWmac c sg z d n m s
  | .wmadd c sg k d n m => Sys2Proof.Machine.execWmadd c sg k d n m s
  | .wsad c sz z d n m => Sys2Proof.Machine.execWsad c sz z d n m s
  | .wmiawxy c neg x y d n m => Sys2Proof.Machine.execWmiawxy c neg x y d n m s
  | .wmax c sg sz d n m => Sys2Proof.Machine.execWmax c sg sz d n m s
  | .wmin c sg sz d n m => Sys2Proof.Machine.execWmin c sg sz d n m s
  | .wadd c sz k d n m => Sys2Proof.Machine.execWadd c sz k d n m s
  | .wsub c sz k d n m => Sys2Proof.Machine.execWsub c sz k d n m s
  | .waddsubhx c d n m => Sys2Proof.Machine.execWaddsubhx c d n m s
  | .wacc c sz d n => Sys2Proof.Machine.execWacc c sz d n s
  | .wabsdiff c sz d n m => Sys2Proof.Machine.execWabsdiff c sz d n m s
  | .wabs c sz d n => Sys2Proof.Machine.execWabs c sz d n s
  | .wsubaddhx c d n m => Sys2Proof.Machine.execWsubaddhx c d n m s
  | .wshufh c d n imm => Sys2Proof.Machine.execWshufh c d n imm s
  | .wldr c sz am d rn off => Sys2Proof.Machine.execWldr c sz am d rn off s
  | .wldrd am d rn rm sh => Sys2Proof.Machine.execWldrd am d rn rm sh s
  | .wldrw am cx rn off => Sys2Proof.Machine.execWldrw am cx rn off s
  | .wstr c sz am m rn off => Sys2Proof.Machine.execWstr c sz am m rn off s
  | .wstrd am m rn rm sh => Sys2Proof.Machine.execWstrd am m rn rm sh s
  | .wstrw am cx rn off => Sys2Proof.Machine.execWstrw am cx rn off s
  | .wmov c d n => Sys2Proof.Machine.execWmov c d n s
  | .wzero c d => Sys2Proof.Machine.execWzero c d s

end Sys2Proof.Machine
end

