-- ==== Sys2Proof/Machine/Step.lean ====
section
/-! DEFINITION. One step of the machine, and the placing of an instruction word where the next step takes it from. -/

namespace Sys2Proof.Machine

/-- One step: the word the host hands at the pc is decoded and run in the envelope of spec/30_encoding.md R107. -/
def step (s : State) : Host.Outcome State Fault Refusal := stepWith exec s

/-- The state in which the host has handed the instruction word `w` (of which `nbits` bits are given) at the pc
(notes/assumptions/8.md). -/
def State.withFetchWord (s : State) (nbits w : Nat) : State := s.handWord (BitVec.ofNat 32 (w % 2 ^ nbits))

end Sys2Proof.Machine
end

