-- ==== Sys2Proof/Safety.lean ====
section
/-! DEFINITION. The invariant of the machine's states, what counts as a safe run, and the words in which the statements
say what an instruction answers. -/

namespace Sys2Proof.Machine

/-- What every step keeps: the memory is in its canonical form, the pc is a multiple of 4 (spec/10_state.md R37), and
wCID holds its constant value (R28). -/
def State.Inv (s : State) : Prop :=
  Memory.wf s.mem = true ∧ bitsAt s.pc 0 2 = 0 ∧ s.wcid = Config.wcidValue

/-- Whether an outcome is UNPREDICTABLE (spec/00_scope.md R17): no successor state. -/
def isUnpredictable : Result → Bool
  | .fault (.unpredictable _ _) => true
  | .fault (.raised _ _) | .next _ | .refused _ => false

/-- A run of at most `k` steps that never ends UNPREDICTABLE: it goes on, or hands an exception or a word to the host. -/
def SafeRun (k : Nat) (s : State) : Prop :=
  ∀ n, n ≤ k → isUnpredictable (Sys2Proof.core.run n s) = false

/-! ### When an instruction executes (spec/30_encoding.md R92, R93) -/

/-- The condition passes and the coprocessor is enabled. -/
abbrev Enabled (c : Cond) (s : State) : Prop := condPass c s = true ∧ accessOk s = true

/-- The condition that an instruction word carries, if it carries one, passes. -/
def WordPasses (w : Word) (s : State) : Prop := ∀ c, condOf (fieldsOf w).c = some c → condPass c s = true

/-! ### Words by their bits, from the rows of spec/30_encoding.md -/

/-- A CDP word (R94). -/
def cdpWord (cond op1 n d : BitVec 4) (cp : BitVec 1) (op2 : BitVec 3) (m : BitVec 4) : Word :=
  cond ++ 14#4 ++ op1 ++ n ++ d ++ 0#3 ++ cp ++ op2 ++ 0#1 ++ m

/-- An MCR (L = 0) or MRC (L = 1) word (R95, R96, R97). -/
def transferWord (cond : BitVec 4) (op1 : BitVec 3) (l : BitVec 1) (n d : BitVec 4) (cp : BitVec 1) (op2 : BitVec 3)
    (m : BitVec 4) : Word :=
  cond ++ 14#4 ++ op1 ++ l ++ n ++ d ++ 0#3 ++ cp ++ op2 ++ 1#1 ++ m

/-- A load (L = 1) or store (L = 0) word, and with (P,U,N,W) = 0010 an MCRR or MRRC word (R98, R99). -/
def memoryWord (cond : BitVec 4) (p u n w l : BitVec 1) (rn rd : BitVec 4) (m : BitVec 1) (off : BitVec 8) : Word :=
  cond ++ 6#3 ++ p ++ u ++ n ++ w ++ l ++ rn ++ rd ++ 0#3 ++ m ++ off

/-! ### Results by fields, flags and saturation bits -/

/-- Field `i` of `r` is `f i`, for every field of width `w`. -/
def IsFields (w : Nat) (r : DWord) (f : Nat → BitVec w) : Prop := ∀ i, i < 64 / w → field w i r = f i

/-- The flag nibble of field `i` in `a` is `flags i`, and every nibble that belongs to no field of width `w` is 0
(spec/10_state.md R25). -/
def IsFlags (w : Nat) (a : Word) (flags : Nat → BitVec 4) : Prop :=
  (∀ i, i < 64 / w → field 4 (w / 8 * (i + 1) - 1) a = flags i) ∧
    ∀ k, k < 8 → (∀ i, i < 64 / w → k ≠ w / 8 * (i + 1) - 1) → field 4 k a = 0

/-- The saturation bit of field `i` in `b` is `sat i`, and every bit that belongs to no field of width `w` is 0
(spec/10_state.md R27). -/
def IsSat (w : Nat) (b : BitVec 8) (sat : Nat → Bool) : Prop :=
  (∀ i, i < 64 / w → bitAt b (w / 8 * (i + 1) - 1) = sat i) ∧
    ∀ k, k < 8 → (∀ i, i < 64 / w → k ≠ w / 8 * (i + 1) - 1) → bitAt b k = false

/-- N and Z of a field, C and V 0 (spec/10_state.md R26). -/
def nzOf {w : Nat} (r : BitVec w) : BitVec 4 := nibbleOf r.msb (decide (r = 0)) false false

/-- Z of a field, N, C and V 0 (spec/10_state.md R26). -/
def zOf {w : Nat} (r : BitVec w) : BitVec 4 := nibbleOf false (decide (r = 0)) false false

/-- The whole effect of a form that writes data register `d` with `r` and no flag: wRd, wCon.MUP, the pc. -/
def Puts (o : Result) (s : State) (d : DReg) (r : DWord) : Prop :=
  o = .next { s with wR := s.wR.set d r, mup := true, pc := s.pc + 4 }

/-- The whole effect of a form that writes wRd with `r` and wCASF with `a`: and wCon.MUP, wCon.CUP, the pc. -/
def PutsFlags (o : Result) (s : State) (d : DReg) (r : DWord) (a : Word) : Prop :=
  o = .next { s with wR := s.wR.set d r, mup := true, casf := a, cup := true, pc := s.pc + 4 }

/-- wRd by fields, no flag. -/
def PutsFields (o : Result) (s : State) (d : DReg) (w : Nat) (f : Nat → BitVec w) : Prop :=
  ∃ r, IsFields w r f ∧ Puts o s d r

/-- wRd by fields, wCASF by nibbles. -/
def PutsFlagged (o : Result) (s : State) (d : DReg) (w : Nat) (f : Nat → BitVec w) (flags : Nat → BitVec 4) : Prop :=
  ∃ r a, IsFields w r f ∧ IsFlags w a flags ∧ PutsFlags o s d r a

/-- wRd by fields, wCASF by nibbles, and the saturation bits ORed into wCSSF. -/
def PutsSaturated (o : Result) (s : State) (d : DReg) (w : Nat) (f : Nat → BitVec w) (flags : Nat → BitVec 4)
    (sat : Nat → Bool) : Prop :=
  ∃ r a b, IsFields w r f ∧ IsFlags w a flags ∧ IsSat w b sat ∧
    o = .next { s with wR := s.wR.set d r, mup := true, casf := a, cup := true, cssf := s.cssf ||| b, pc := s.pc + 4 }

/-- wRd by fields and the saturation bits ORed into wCSSF, wCASF unchanged. wCon.CUP is set when a field saturates and is
otherwise set or left (spec/10_state.md R33). -/
def PutsSatOnly (o : Result) (s : State) (d : DReg) (w : Nat) (f : Nat → BitVec w) (sat : Nat → Bool) : Prop :=
  ∃ r b u n, IsFields w r f ∧ IsSat w b sat ∧ (s.cup = true → u = true) ∧
    ((∃ i, i < 64 / w ∧ sat i = true) → u = true) ∧
    o = .next { s with wR := s.wR.set d r, mup := true, cssf := s.cssf ||| b, cup := u, draws := n, pc := s.pc + 4 }

/-- wRd by the bits of its fields, with the flags N and Z of each field, C and V 0. -/
def PutsBits (o : Result) (s : State) (d : DReg) (w : Nat) (bit : Nat → Nat → Bool) : Prop :=
  ∃ r a, (∀ i, i < 64 / w → ∀ j, j < w → bitAt (field w i r) j = bit i j) ∧
    IsFlags w a (fun i => nzOf (field w i r)) ∧ PutsFlags o s d r a

/-! ### Control registers -/

/-- What a read of a control register returns: the defined bits (spec/40_transfer.md R142); the reserved bits of wCon and
wCSSF are left free. -/
def CtrlReads (cx : CtrlReg) (s : State) (v : Word) : Prop :=
  match cx with
  | .wCID => v = s.wcid
  | .wCon => bitAt v 1 = s.mup ∧ bitAt v 0 = s.cup
  | .wCSSF => bitsAt v 0 8 = s.cssf
  | .wCASF => v = s.casf
  | .wCGR k => v = s.cgr[k]

/-- The state after a write of a control register (spec/40_transfer.md R136). -/
def CtrlWritten (cx : CtrlReg) (v : Word) (s t : State) : Prop :=
  match cx with
  | .wCID => t = s
  | .wCon => t = { s with mup := s.mup && !bitAt v 1, cup := s.cup && !bitAt v 0 }
  | .wCSSF => t = { s with cssf := bitsAt v 0 8, cup := true }
  | .wCASF => t = { s with casf := v, cup := true }
  | .wCGR k => t = { s with cgr := s.cgr.set k v, cup := true }

/-! ### Kinds of instructions -/

/-- The loads and stores. -/
def isLoadOrStore : Instr → Bool
  | .wldr .. | .wldrd .. | .wldrw .. | .wstr .. | .wstrd .. | .wstrw .. => true
  | _ => false

/-- The stores. -/
def isStore : Instr → Bool
  | .wstr .. | .wstrd .. | .wstrw .. => true
  | _ => false

/-- The instructions that write the CPSR flags (spec/10_state.md R38). -/
def writesCpsr : Instr → Bool
  | .tandc .. | .torc .. | .torvsc .. | .textrc .. => true
  | _ => false

/-- The core registers an instruction writes (spec/10_state.md R36). -/
def coreDests : Instr → List CoreReg
  | .textrm _ _ _ rd _ _ | .tmovmsk _ _ rd _ | .tmrc _ rd _ => [rd]
  | .tmrrc _ lo hi _ => [lo, hi]
  | .wldr _ _ am _ rn _ | .wldrd am _ rn _ _ | .wldrw am _ rn _ | .wstr _ _ am _ rn _ | .wstrd am _ rn _ _
  | .wstrw am _ rn _ => if writesBack am then [rn] else []
  | _ => []

/-- TMCR or WLDRW naming a given control register. -/
def writesCtrl (cx : CtrlReg) : Instr → Bool
  | .tmcr _ cy _ | .wldrw _ cy _ _ => cy == cx
  | _ => false

end Sys2Proof.Machine
end

