-- ==== Sys2Proof/Certificates/Slice0/Obligations.lean ====
section
/-! DEFINITION. The statements about the model, for the provers. -/

open Sys2Proof Sys2Proof.Machine

/-! ### Decoding, encoding and the step -/

/-- Words written out from the encoding rows of spec/40_transfer.md to 46_load_store.md decode to their instructions. -/
def Obligations.WrittenWordsDecode : Prop :=
  decode 0xEE53F130 = .instr (.tandc .al .h) ∧
  decode 0xEE210002 = .instr (.wand .al 0 1 2) ∧
  decode 0xFE710044 = .instr (.wrorI .h 0 1 4) ∧
  decode 0xEE710182 = .instr (.wadd .al .h .ss 0 1 2) ∧
  decode 0xEC432009 = .instr (.tmcrr .al 9 2 3) ∧
  decode 0xED710102 = .instr (.wldr .al .d (.pre false true) 0 1 2) ∧
  decode 0xFCA13101 = .instr (.wstrw (.post true) .wCASF 1 1) ∧
  decode 0xEE344004 = .instr (.wzero .al 4)

/-- Every well-formed instruction is what its word decodes to (spec/30_encoding.md R94 to R103, R108). -/
def Obligations.DecodeEncode : Prop :=
  ∀ i : Instr, i.wellFormed = true → decode (encode i) = .instr i

/-- A word that decodes to an instruction is the word of that instruction, which is well formed: no bit of a word is
dropped (spec/30_encoding.md R105, R108). -/
def Obligations.EncodeDecode : Prop :=
  ∀ (w : Word) (i : Instr), decode w = .instr i → encode i = w ∧ i.wellFormed = true

/-- A step at a pc that is a multiple of 4, where the host has handed a word that decodes to `i`, is the meaning of `i` at
that state (spec/30_encoding.md R107); the word is placed there by `handWord` (the model's choice, log entry 8). -/
def Obligations.StepRunsInstruction : Prop :=
  (∀ (s : State) (w : Word) (i : Instr), bitsAt s.pc 0 2 = 0 → s.fetchWord = some w → decode w = .instr i →
    step s = exec i s) ∧
  (∀ (s : State) (w : Word), (s.handWord w).fetchWord = some w ∧
    s.handWord w = { s with code := { addr := s.pc, word := w } :: s.code })

/-- Where a step answers no meaning at all: a pc that is not a multiple of 4 (spec/10_state.md R37, log entry 9), no word
at the pc (log entry 8), a word outside coprocessors 0 and 1 (spec/30_encoding.md R91). -/
def Obligations.StepRefuses : Prop :=
  (∀ s : State, bitsAt s.pc 0 2 ≠ 0 → step s = .refused (.misalignedPc s.pc)) ∧
  (∀ s : State, bitsAt s.pc 0 2 = 0 → s.fetchWord = none → step s = .refused (.noInstructionWord s.pc)) ∧
  (∀ (s : State) (w : Word), bitsAt s.pc 0 2 = 0 → s.fetchWord = some w →
    ¬ ((bitsAt w 24 4 = 14 ∨ bitsAt w 25 3 = 6) ∧ bitsAt w 9 3 = 0) → step s = .refused (.hostWord w))

/-- A class U word raises the undefined instruction exception with the pc and the word (spec/60_exceptions.md R301 (b)). That
it is skipped, without an exception, when its condition fails is the spec's own decision D4 on general knowledge
(spec/30_encoding.md R93, R107, spec/60_exceptions.md R307; log entries 20 and 31). -/
def Obligations.UndefinedWordRaises : Prop :=
  ∀ (s : State) (w : Word), bitsAt s.pc 0 2 = 0 → s.fetchWord = some w → decode w = .undefined →
    (WordPasses w s → step s = .fault (.raised (.undefinedInstruction w) s.pc)) ∧
    (¬ WordPasses w s → step s = .next { s with pc := s.pc + 4 })

/-- Two kinds of words that are class U whatever their other operands hold. TANDC, TORC, TORVSC and TEXTRC with a destination
field other than R15: by the source's own words (spec/60_exceptions.md R301 (c)). TMCR, TMRC, WLDRW and WSTRW with an
illegal control register number: by the source's own words too (R301 (d)), but that the illegal numbers are 4 to 7 and 12
to 15 is the spec's decision D12 (spec/10_state.md R34, log entry 33). That class U wins where such a word also meets a
class P condition is the spec's own order (spec/60_exceptions.md R307, spec/90_conflicts.md C27, log entries 31 and 34). -/
def Obligations.IllegalDestinationsAreUndefined : Prop :=
  (∀ (c : Cond) (ww : BitVec 2) (crn rd crm : BitVec 4) (op2 : BitVec 3), rd ≠ 15 → op2 ∈ [1#3, 2#3, 3#3, 4#3] →
    decode (transferWord (condBits c) (ww ++ 0#1) 1 crn rd 1 op2 crm) = .undefined) ∧
  (∀ (c : Cond) (x r crm : BitVec 4) (l : BitVec 1), x ∈ [4#4, 5#4, 6#4, 7#4, 12#4, 13#4, 14#4, 15#4] →
    decode (transferWord (condBits c) 0 l x r 1 0 crm) = .undefined) ∧
  (∀ (p u w l : BitVec 1) (rn x : BitVec 4) (off : BitVec 8),
    x ∈ [4#4, 5#4, 6#4, 7#4, 12#4, 13#4, 14#4, 15#4] →
    decode (memoryWord 15 p u 0 w l rn x 1 off) = .undefined)

/-- A word that names R15 as a core register operand of a transfer, a load or a store is stuck, whatever its other operand,
qualifier and constant fields hold (a reserved wCx is class U instead): TMCR, TBCST, TINSR (Rn), TMRC, TMOVMSK, TEXTRM (Rd),
TMIA, TMIAPH, TMIAxy (Rm, Rs), TMCRR, TMRRC (RdHi, RdLo), WLDR and WSTR in the three variants of R99 (Rn, and Rm of the
register offset). A store of any variant with (P,U,W) 000 (where it is not TMCRR) or 010 is stuck; a load with such a
(P,U,W) (where it is not TMRRC) is class P with its destinations and its base register. A stuck word has no successor state
(spec/40_transfer.md R130 (c), spec/46_load_store.md R272, R279; R15 in TBCST, WLDR and WSTR is decision D3, the modes are
decision D25; the model's choices, log entries 10 and 13). -/
def Obligations.StuckWords : Prop :=
  (∀ (s : State) (w : Word) (why : StuckCause), bitsAt s.pc 0 2 = 0 → s.fetchWord = some w → decode w = .stuck why →
    WordPasses w s → accessOk s = true → step s = .fault (.unpredictable (.word why w) s.pc)) ∧
  -- TMCR and TMRC; TBCST and TINSR; TMOVMSK and TEXTRM
  (∀ (c : Cond) (l : BitVec 1) (cx : CtrlReg) (crm : BitVec 4),
    decode (transferWord (condBits c) 0 l (ctrlBits cx) 15 1 0 crm) = .stuck .r15Operand) ∧
  (∀ (c : Cond) (op1 : BitVec 3) (ww : BitVec 2) (wrd crm : BitVec 4), op1 ∈ [2#3, 3#3] →
    decode (transferWord (condBits c) op1 0 wrd 15 0 (ww ++ 0#1) crm) = .stuck .r15Operand) ∧
  (∀ (c : Cond) (ww : BitVec 2) (wrn crm : BitVec 4) (op2 : BitVec 3), op2 ∈ [1#3, 3#3] →
    decode (transferWord (condBits c) (ww ++ 0#1) 1 wrn 15 0 op2 crm) = .stuck .r15Operand) ∧
  -- TMIA, TMIAPH, TMIAxy; TMCRR and TMRRC
  (∀ (c : Cond) (sel rs rm : BitVec 4) (cp : BitVec 1) (op2 : BitVec 3),
    sel ∈ [0#4, 8#4, 12#4, 13#4, 14#4, 15#4] → rs = 15 ∨ rm = 15 →
    decode (transferWord (condBits c) 1 0 sel rs cp op2 rm) = .stuck .r15Operand) ∧
  (∀ (c : Cond) (l : BitVec 1) (hi lo wr : BitVec 4), hi = 15 ∨ lo = 15 →
    decode (memoryWord (condBits c) 0 0 1 0 l hi lo 0 (0#4 ++ wr)) = .stuck .r15Operand) ∧
  -- WLDR and WSTR: immediate offset, control register, register offset
  (∀ (c : Cond) (p u n w l m : BitVec 1) (wr : BitVec 4) (off : BitVec 8), ¬ (p = 0 ∧ u = 0 ∧ n = 1 ∧ w = 0) →
    decode (memoryWord (condBits c) p u n w l 15 wr m off) = .stuck .r15Operand) ∧
  (∀ (p u w l : BitVec 1) (cx : CtrlReg) (off : BitVec 8),
    decode (memoryWord 15 p u 0 w l 15 (ctrlBits cx) 1 off) = .stuck .r15Operand) ∧
  (∀ (p u w l : BitVec 1) (rn rm wr sh : BitVec 4), rn = 15 ∨ rm = 15 →
    decode (memoryWord 15 p u 1 w l rn wr 1 (sh ++ rm)) = .stuck .r15Operand) ∧
  -- (P,U,W) = 000 and 010: immediate offset, control register, register offset
  (∀ (c : Cond) (u n m : BitVec 1) (rn : CoreReg) (d : DReg) (off : BitVec 8), u = 1 ∨ n = 0 →
    let word := fun l => memoryWord (condBits c) 0 u n 0 l (coreBits rn) (dregBits d) m off
    decode (word 0) = .stuck .addressMode ∧
      decode (word 1) = .unpredictable { wRd := some d, mup := true, x := some rn }) ∧
  (∀ (u : BitVec 1) (rn : CoreReg) (cx : CtrlReg) (off : BitVec 8),
    let word := fun l => memoryWord 15 0 u 0 0 l (coreBits rn) (ctrlBits cx) 1 off
    decode (word 0) = .stuck .addressMode ∧
      decode (word 1) = .unpredictable { destsCtrl cx with x := some rn }) ∧
  (∀ (u : BitVec 1) (rn rm : CoreReg) (d : DReg) (sh : BitVec 4),
    let word := fun l => memoryWord 15 0 u 1 0 l (coreBits rn) (dregBits d) 1 (sh ++ coreBits rm)
    decode (word 0) = .stuck .addressMode ∧
      decode (word 1) = .unpredictable { wRd := some d, mup := true, x := some rn })

/-- A class P word whose destinations are bounded executes: it completes, and only the destinations of its form are left
free (spec/00_scope.md R17, the weaker reading; the model's choice, log entry 12). -/
def Obligations.UnpredictableWordCompletes : Prop :=
  ∀ (s : State) (w : Word) (ds : Dests), bitsAt s.pc 0 2 = 0 → s.fetchWord = some w → decode w = .unpredictable ds →
    WordPasses w s → accessOk s = true →
    ∃ t, step s = .next t ∧ t.pc = s.pc + 4 ∧ t.wcid = s.wcid ∧ t.code = s.code ∧
      (∀ a, readByte t.mem a = readByte s.mem a) ∧
      (∀ e, ds.wRd ≠ some e → t.readWR e = s.readWR e) ∧
      (∀ r, ds.x ≠ some r → t.readX r = s.readX r) ∧
      (∀ k, ds.cgr ≠ some k → t.readCgr k = s.readCgr k) ∧
      (ds.casf = false → t.casf = s.casf) ∧ (ds.cssf = false → t.cssf = s.cssf) ∧
      (ds.mup = false → t.mup = s.mup) ∧ (ds.cup = false → t.cup = s.cup) ∧ (ds.nzcv = false → t.nzcv = s.nzcv)

/-! ### The envelope -/

/-- The fifteen conditions on the CPSR flags (spec/30_encoding.md R93; the table is the ARM architecture's, log entry 20). -/
def Obligations.ConditionTable : Prop :=
  ∀ (s : State) (n z c v : Bool), s.nzcv = nibbleOf n z c v →
    condPass .eq s = z ∧ condPass .ne s = !z ∧ condPass .cs s = c ∧ condPass .cc s = !c ∧
    condPass .mi s = n ∧ condPass .pl s = !n ∧ condPass .vs s = v ∧ condPass .vc s = !v ∧
    condPass .hi s = (c && !z) ∧ condPass .ls s = (!c || z) ∧
    condPass .ge s = (n == v) ∧ condPass .lt s = (n != v) ∧
    condPass .gt s = (!z && (n == v)) ∧ condPass .le s = (z || (n != v)) ∧ condPass .al s = true

/-- An instruction whose condition fails changes nothing but the pc, for every instruction with a condition
(spec/30_encoding.md R93, R107 step 2; the order of the checks is the spec's decision D4, log entry 31). -/
def Obligations.FailedConditionSkips : Prop :=
  ∀ (i : Instr) (s : State), ¬ WordPasses (encode i) s → exec i s = .next { s with pc := s.pc + 4 }

/-- With the coprocessor disabled every instruction whose condition passes raises the undefined instruction exception with
its word and pc, whatever its operands (spec/30_encoding.md R92, spec/60_exceptions.md R301 (a); decisions D4 and D32, log
entries 31 and 32). -/
def Obligations.DisabledAccessRaises : Prop :=
  ∀ (i : Instr) (s : State), WordPasses (encode i) s → ¬ (bitAt s.cpar 0 = true ∧ bitAt s.cpar 1 = true) →
    exec i s = .fault (.raised (.undefinedInstruction (encode i)) s.pc)

/-- No instruction is refused, and with the coprocessor enabled every instruction but a load or store completes: none of
them raises anything of its own (spec/60_exceptions.md R301). -/
def Obligations.EnabledInstructionsComplete : Prop :=
  (∀ (i : Instr) (s : State) (r : Refusal), exec i s ≠ .refused r) ∧
  (∀ (i : Instr) (s : State), isLoadOrStore i = false → accessOk s = true → ∃ t, exec i s = .next t)

/-! ### Transfers -/

/-- TANDC and TORC: the AND and the OR of the selected nibbles of wCASF become N, Z, C, V, and nothing else changes but the
pc (spec/40_transfer.md R131, R144). -/
def Obligations.GroupFlags : Prop :=
  ∀ (c : Cond) (s : State), Enabled c s →
    let g := fun k => field 4 k s.casf
    exec (.tandc c .b) s = .next { s with
      nzcv := g 7 &&& g 6 &&& g 5 &&& g 4 &&& g 3 &&& g 2 &&& g 1 &&& g 0, pc := s.pc + 4 } ∧
    exec (.tandc c .h) s = .next { s with nzcv := g 7 &&& g 5 &&& g 3 &&& g 1, pc := s.pc + 4 } ∧
    exec (.tandc c .w) s = .next { s with nzcv := g 7 &&& g 3, pc := s.pc + 4 } ∧
    exec (.torc c .b) s = .next { s with
      nzcv := g 7 ||| g 6 ||| g 5 ||| g 4 ||| g 3 ||| g 2 ||| g 1 ||| g 0, pc := s.pc + 4 } ∧
    exec (.torc c .h) s = .next { s with nzcv := g 7 ||| g 5 ||| g 3 ||| g 1, pc := s.pc + 4 } ∧
    exec (.torc c .w) s = .next { s with nzcv := g 7 ||| g 3, pc := s.pc + 4 }

/-- TEXTRC copies the nibble of the selected field to N, Z, C, V; TORVSC clears N, Z and C and sets V to the OR of the
selected bits of wCSSF; nothing else changes but the pc (spec/40_transfer.md R133, R145). -/
def Obligations.FlagExtraction : Prop :=
  ∀ (c : Cond) (s : State), Enabled c s →
    (∀ imm : BitVec 3,
      exec (.textrc c .b imm) s = .next { s with nzcv := field 4 imm.toNat s.casf, pc := s.pc + 4 } ∧
      exec (.textrc c .h imm) s = .next { s with
        nzcv := field 4 (2 * (imm.toNat % 4) + 1) s.casf, pc := s.pc + 4 } ∧
      exec (.textrc c .w imm) s = .next { s with
        nzcv := field 4 (4 * (imm.toNat % 2) + 3) s.casf, pc := s.pc + 4 }) ∧
    exec (.torvsc c .b) s = .next { s with
      nzcv := nibbleOf false false false (decide (s.cssf ≠ 0)), pc := s.pc + 4 } ∧
    exec (.torvsc c .h) s = .next { s with
      nzcv := nibbleOf false false false (bitAt s.cssf 7 || bitAt s.cssf 5 || bitAt s.cssf 3 || bitAt s.cssf 1),
      pc := s.pc + 4 } ∧
    exec (.torvsc c .w) s = .next { s with
      nzcv := nibbleOf false false false (bitAt s.cssf 7 || bitAt s.cssf 3), pc := s.pc + 4 }

/-- TEXTRM writes the selected field, zero- or sign-extended, to Rd; TMOVMSK gathers the top bits of the fields into Rd;
nothing else changes but the pc (spec/40_transfer.md R134, R141). -/
def Obligations.FieldToCoreRegister : Prop :=
  ∀ (c : Cond) (sz : Bhw) (rd : CoreReg) (n : DReg) (s : State), Enabled c s →
    (∀ (sg : Sign) (imm : BitVec 3), ∃ v : Word,
      (sg = .u → (v.toNat : Int) = (field (bhwWidth sz) (imm.toNat % (64 / bhwWidth sz)) (s.readWR n)).toNat) ∧
      (sg = .s → v.toInt = (field (bhwWidth sz) (imm.toNat % (64 / bhwWidth sz)) (s.readWR n)).toInt) ∧
      exec (.textrm c sg sz rd n imm) s = .next { s with x := s.x.set rd v, pc := s.pc + 4 }) ∧
    ∃ v : Word,
      (∀ k, bitAt v k =
        (decide (k < 64 / bhwWidth sz) && bitAt (s.readWR n) (bhwWidth sz * k + (bhwWidth sz - 1)))) ∧
      exec (.tmovmsk c sz rd n) s = .next { s with x := s.x.set rd v, pc := s.pc + 4 }

/-- TBCST copies the low bits of Rn to every field of wRd (low bits: the spec's decision D18, log entry 24); TINSR replaces
the selected field of wRd and keeps the others; both set wCon.MUP, and nothing else changes but the pc
(spec/40_transfer.md R132, R135). -/
def Obligations.CoreRegisterToFields : Prop :=
  ∀ (c : Cond) (sz : Bhw) (d : DReg) (rn : CoreReg) (s : State), Enabled c s →
    PutsFields (exec (.tbcst c sz d rn) s) s d (bhwWidth sz) (fun _ => BitVec.ofNat _ (s.readX rn).toNat) ∧
    ∀ imm : BitVec 3,
      PutsFields (exec (.tinsr c sz d rn imm) s) s d (bhwWidth sz) (fun i =>
        if i = imm.toNat % (64 / bhwWidth sz) then BitVec.ofNat _ (s.readX rn).toNat
        else field (bhwWidth sz) i (s.readWR d))

/-- TMCRR joins RdHi and RdLo in wRd and sets wCon.MUP; TMRRC splits wRn into RdHi and RdLo; nothing else changes but the
pc. With RdHi = RdLo, TMRRC completes and leaves that one register free (spec/40_transfer.md R137, R143; log entries 12
and 36). -/
def Obligations.PairTransfers : Prop :=
  ∀ (c : Cond) (d : DReg) (lo hi : CoreReg) (s : State), Enabled c s →
    (∃ r, (field 32 1 r = s.readX hi ∧ field 32 0 r = s.readX lo) ∧ Puts (exec (.tmcrr c d lo hi) s) s d r) ∧
    (lo ≠ hi → exec (.tmrrc c lo hi d) s = .next { s with
      x := (s.x.set hi (field 32 1 (s.readWR d))).set lo (field 32 0 (s.readWR d)), pc := s.pc + 4 }) ∧
    (lo = hi → ∃ (v : Word) (n : Nat), exec (.tmrrc c lo hi d) s = .next { s with
      x := s.x.set lo v, draws := n, pc := s.pc + 4 })

/-- TMIA, TMIAPH and TMIAxy add an exact signed product of core registers to wRd modulo 2^64 and set wCon.MUP; nothing else
changes but the pc (spec/40_transfer.md R138, R139, R140; the exact sum of TMIAPH is decision D15, log entry 27). -/
def Obligations.CoreMultiplyAccumulate : Prop :=
  ∀ (c : Cond) (d : DReg) (rm rs : CoreReg) (s : State), Enabled c s →
    let top := fun r => (field 16 1 (s.readX r)).toInt
    let bottom := fun r => (field 16 0 (s.readX r)).toInt
    Puts (exec (.tmia c d rm rs) s) s d
      (BitVec.ofInt 64 ((s.readX rm).toInt * (s.readX rs).toInt + (s.readWR d).toInt)) ∧
    Puts (exec (.tmiaph c d rm rs) s) s d
      (BitVec.ofInt 64 (top rm * top rs + bottom rm * bottom rs + (s.readWR d).toInt)) ∧
    Puts (exec (.tmiaxy c .t .t d rm rs) s) s d (BitVec.ofInt 64 (top rm * top rs + (s.readWR d).toInt)) ∧
    Puts (exec (.tmiaxy c .t .b d rm rs) s) s d (BitVec.ofInt 64 (top rm * bottom rs + (s.readWR d).toInt)) ∧
    Puts (exec (.tmiaxy c .b .t d rm rs) s) s d (BitVec.ofInt 64 (bottom rm * top rs + (s.readWR d).toInt)) ∧
    Puts (exec (.tmiaxy c .b .b d rm rs) s) s d (BitVec.ofInt 64 (bottom rm * bottom rs + (s.readWR d).toInt))

/-- TMCR writes the named control register by that register's own write rule: wCID is ignored, wCon clears by ones, wCSSF
takes the low byte, wCASF and wCGR take the word; the last three set wCon.CUP; nothing else changes but the pc
(spec/40_transfer.md R136; the details are decisions D7 to D10, log entry 28). -/
def Obligations.ControlRegisterWrite : Prop :=
  ∀ (c : Cond) (cx : CtrlReg) (rn : CoreReg) (s : State), Enabled c s →
    ∃ u, CtrlWritten cx (s.readX rn) s u ∧ exec (.tmcr c cx rn) s = .next { u with pc := s.pc + 4 }

/-- TMRC returns the defined bits of the named control register in Rd, the reserved bits free, and changes no register of
the coprocessor; nothing else changes but the pc (spec/40_transfer.md R142, spec/10_state.md R21; log entry 15). -/
def Obligations.ControlRegisterRead : Prop :=
  ∀ (c : Cond) (rd : CoreReg) (cx : CtrlReg) (s : State), Enabled c s →
    ∃ (v : Word) (n : Nat), CtrlReads cx s v ∧
      exec (.tmrc c rd cx) s = .next { s with x := s.x.set rd v, draws := n, pc := s.pc + 4 }

/-! ### Logic, average, align -/

/-- WOR, WXOR, WAND, WANDN, WMOV and WZERO: the bits of the result, N and Z of the double word in wCASF, every other bit of
wCASF 0, wCon.MUP and wCon.CUP set, and nothing else changed but the pc (spec/41_logic_average_align.md R160 to R165). -/
def Obligations.LogicResults : Prop :=
  ∀ (c : Cond) (d n m : DReg) (s : State), Enabled c s →
    let flags := fun r : DWord => nzOf r ++ (0 : BitVec 28)
    let a := s.readWR n
    let b := s.readWR m
    PutsFlags (exec (.wor c d n m) s) s d (a ||| b) (flags (a ||| b)) ∧
    PutsFlags (exec (.wxor c d n m) s) s d (a ^^^ b) (flags (a ^^^ b)) ∧
    PutsFlags (exec (.wand c d n m) s) s d (a &&& b) (flags (a &&& b)) ∧
    PutsFlags (exec (.wandn c d n m) s) s d (a &&& ~~~b) (flags (a &&& ~~~b)) ∧
    PutsFlags (exec (.wmov c d n) s) s d a (flags a) ∧
    PutsFlags (exec (.wzero c d) s) s d 0 0x40000000

/-- WAND and WXOR as their rules state them: the encoding row, the operation, the flags in wCASF, wCSSF left alone
(spec/41_logic_average_align.md R160, R163). -/
def Obligations.AndXorRules : Prop :=
  ∀ (c : Cond) (d n m : DReg) (s : State),
    encode (.wand c d n m) =
      condBits c ++ 14#4 ++ 2#4 ++ dregBits n ++ dregBits d ++ 0#4 ++ 0#3 ++ 0#1 ++ dregBits m ∧
    encode (.wxor c d n m) =
      condBits c ++ 14#4 ++ 1#4 ++ dregBits n ++ dregBits d ++ 0#4 ++ 0#3 ++ 0#1 ++ dregBits m ∧
    (Enabled c s →
      (∃ t, exec (.wand c d n m) s = .next t ∧ t.readWR d = s.readWR n &&& s.readWR m ∧
        bitAt t.casf 31 = bitAt (s.readWR n &&& s.readWR m) 63 ∧
        bitAt t.casf 30 = decide (s.readWR n &&& s.readWR m = 0) ∧ bitsAt t.casf 0 30 = 0 ∧ t.cssf = s.cssf) ∧
      (∃ t, exec (.wxor c d n m) s = .next t ∧ t.readWR d = s.readWR n ^^^ s.readWR m ∧
        bitAt t.casf 31 = bitAt (s.readWR n ^^^ s.readWR m) 63 ∧
        bitAt t.casf 30 = decide (s.readWR n ^^^ s.readWR m = 0) ∧ bitsAt t.casf 0 30 = 0 ∧ t.cssf = s.cssf))

/-- WAVG2 and WAVG4: the unsigned averages with and without rounding, byte 7 of WAVG4 0, Z of each field in wCASF with N, C
and V 0; nothing else changes but wCon and the pc (spec/41_logic_average_align.md R168, R170). -/
def Obligations.Averages : Prop :=
  ∀ (c : Cond) (r : Bool) (d n m : DReg) (s : State), Enabled c s →
    (∀ sz : Bh, ∃ f : Nat → BitVec (bhWidth sz),
      (∀ i, i < 64 / bhWidth sz → (f i).toNat =
        ((field (bhWidth sz) i (s.readWR n)).toNat + (field (bhWidth sz) i (s.readWR m)).toNat +
          (if r then 1 else 0)) / 2) ∧
      PutsFlagged (exec (.wavg2 c sz r d n m) s) s d (bhWidth sz) f (fun i => zOf (f i))) ∧
    ∃ f : Nat → BitVec 8, f 7 = 0 ∧
      (∀ i, i < 7 → (f i).toNat =
        ((field 8 (i + 1) (s.readWR n)).toNat + (field 8 (i + 1) (s.readWR m)).toNat +
          (field 8 i (s.readWR n)).toNat + (field 8 i (s.readWR m)).toNat + (if r then 2 else 1)) / 4) ∧
      PutsFlagged (exec (.wavg4 c r d n m) s) s d 8 f (fun i => zOf (f i))

/-- WALIGNI and WALIGNR: byte k of the result is byte k + offset of the pair wRm : wRn, the offset Imm3 or bits 2:0 of the
named wCGR; no flag changes, nothing else but wCon.MUP and the pc (spec/41_logic_average_align.md R174, R175). -/
def Obligations.Aligns : Prop :=
  ∀ (c : Cond) (d n m : DReg) (s : State), Enabled c s →
    let pairByte := fun j => if j < 8 then field 8 j (s.readWR n) else field 8 (j - 8) (s.readWR m)
    (∀ imm : BitVec 3,
      PutsFields (exec (.waligni c d n m imm) s) s d 8 (fun k => pairByte (k + imm.toNat))) ∧
    (∀ g : CgrIndex,
      PutsFields (exec (.walignr c g d n m) s) s d 8 (fun k => pairByte (k + (s.readCgr g).toNat % 8)))

/-! ### Shifts and rotates -/

/-- WSLL and WSRL in their three forms: bit j of a result field is bit j - sv of the source field (0 below sv), respectively
bit j + sv (0 beyond the field), so that an amount that reaches the width gives 0; N and Z of each field; nothing else
changes but wCon and the pc (spec/42_shift_rotate.md R181, R182, R185, R189; over-width amounts of the immediate form are
decision D19, log entry 25). -/
def Obligations.LogicalShifts : Prop :=
  ∀ (sz : Hwd) (d n : DReg) (s : State),
    let src := fun i => field (hwdWidth sz) i (s.readWR n)
    let left := fun (sv i j : Nat) => decide (sv ≤ j) && bitAt (src i) (j - sv)
    let right := fun (sv i j : Nat) => decide (j + sv < hwdWidth sz) && bitAt (src i) (j + sv)
    let puts := fun i bit => PutsBits (exec i s) s d (hwdWidth sz) bit
    (∀ c, Enabled c s →
      (∀ m, puts (.wsll c sz d n m) (left ((s.readWR m).toNat % 256)) ∧
        puts (.wsrl c sz d n m) (right ((s.readWR m).toNat % 256))) ∧
      (∀ k, puts (.wsllG c sz d n k) (left ((s.readCgr k).toNat % 256)) ∧
        puts (.wsrlG c sz d n k) (right ((s.readCgr k).toNat % 256)))) ∧
    (accessOk s = true → ∀ imm : BitVec 5,
      puts (.wsllI sz d n imm) (left (if imm = 0 then 32 else imm.toNat)) ∧
      puts (.wsrlI sz d n imm) (right (if imm = 0 then 32 else imm.toNat)))

/-- WSRA and WROR in their three forms: bit j of a result field is bit j + sv of the source field, the sign bit where that is
beyond it, respectively bit (j + sv) mod w; N and Z of each field; nothing else changes but wCon and the pc
(spec/42_shift_rotate.md R181, R182, R183, R187; the rotate by sv mod w is decision D19, log entry 25). -/
def Obligations.ArithmeticShiftsAndRotates : Prop :=
  ∀ (sz : Hwd) (d n : DReg) (s : State),
    let src := fun i => field (hwdWidth sz) i (s.readWR n)
    let right := fun (sv i j : Nat) => bitAt (src i) (min (j + sv) (hwdWidth sz - 1))
    let rotate := fun (sv i j : Nat) => bitAt (src i) ((j + sv) % hwdWidth sz)
    let puts := fun i bit => PutsBits (exec i s) s d (hwdWidth sz) bit
    (∀ c, Enabled c s →
      (∀ m, puts (.wsra c sz d n m) (right ((s.readWR m).toNat % 256)) ∧
        puts (.wror c sz d n m) (rotate ((s.readWR m).toNat % 256))) ∧
      (∀ k, puts (.wsraG c sz d n k) (right ((s.readCgr k).toNat % 256)) ∧
        puts (.wrorG c sz d n k) (rotate ((s.readCgr k).toNat % 256)))) ∧
    (accessOk s = true → ∀ imm : BitVec 5,
      puts (.wsraI sz d n imm) (right (if imm = 0 then 32 else imm.toNat)) ∧
      puts (.wrorI sz d n imm) (rotate (if imm = 0 then 32 else imm.toNat)))

/-- The flags common to the four shifts and rotates in all three forms: N the top bit of the result field, Z set when it is
0, C and V 0, every other nibble 0, wCSSF not changed (spec/42_shift_rotate.md R182). -/
def Obligations.ShiftFlagRule : Prop :=
  ∀ (c : Cond) (sz : Hwd) (d n m : DReg) (g : CgrIndex) (imm : BitVec 5) (s : State), Enabled c s →
    ∀ i ∈ [Instr.wsra c sz d n m, .wsraG c sz d n g, .wsraI sz d n imm, .wsll c sz d n m, .wsllG c sz d n g,
        .wsllI sz d n imm, .wsrl c sz d n m, .wsrlG c sz d n g, .wsrlI sz d n imm, .wror c sz d n m,
        .wrorG c sz d n g, .wrorI sz d n imm],
      ∃ t, exec i s = .next t ∧ t.cssf = s.cssf ∧
        IsFlags (hwdWidth sz) t.casf (fun k =>
          nibbleOf (field (hwdWidth sz) k (t.readWR d)).msb (decide (field (hwdWidth sz) k (t.readWR d) = 0))
            false false)

/-! ### Arithmetic and compare -/

/-- WABS and WABSDIFF: the clamped absolute value and the exact absolute difference of each field, Z of each field in wCASF
with N, C and V 0, wCSSF unchanged; nothing else changes but wCon and the pc (spec/43_arithmetic_compare.md R196, R198). -/
def Obligations.AbsoluteValues : Prop :=
  ∀ (c : Cond) (sz : Bhw) (d n m : DReg) (s : State), Enabled c s →
    (∃ f : Nat → BitVec (bhwWidth sz),
      (∀ i, i < 64 / bhwWidth sz → (f i).toInt =
        min |(field (bhwWidth sz) i (s.readWR n)).toInt| (2 ^ (bhwWidth sz - 1) - 1)) ∧
      PutsFlagged (exec (.wabs c sz d n) s) s d (bhwWidth sz) f (fun i => zOf (f i))) ∧
    (∃ f : Nat → BitVec (bhwWidth sz),
      (∀ i, i < 64 / bhwWidth sz → ((f i).toNat : Int) =
        |((field (bhwWidth sz) i (s.readWR n)).toNat : Int) - (field (bhwWidth sz) i (s.readWR m)).toNat|) ∧
      PutsFlagged (exec (.wabsdiff c sz d n m) s) s d (bhwWidth sz) f (fun i => zOf (f i)))

/-- WADD without saturation, with US, with SS and with C (half words and words): each field, its flags N, Z, C, V (C and V
cleared where it saturates), wCSSF ORed with the fields that saturate under US and SS and untouched otherwise
(spec/43_arithmetic_compare.md R203, R206; C and V are decision D14, log entry 26). The byte form with C is no
instruction: it completes with its destinations free (log entry 36). -/
def Obligations.Additions : Prop :=
  ∀ (c : Cond) (sz : Bhw) (d n m : DReg) (s : State), Enabled c s →
    let w := bhwWidth sz
    let x := fun i => field (bhwWidth sz) i (s.readWR n)
    let y := fun i => field (bhwWidth sz) i (s.readWR m)
    let carry := fun (cin i : Nat) => decide ((x i).toNat + (y i).toNat + cin ≥ 2 ^ w)
    let ovf := fun (cin i : Nat) => decide ((x i).toInt + (y i).toInt + cin > 2 ^ (w - 1) - 1) ||
      decide ((x i).toInt + (y i).toInt + cin < -2 ^ (w - 1))
    let plain := fun (cin : Nat → Nat) (i : Nat) => BitVec.ofNat (bhwWidth sz) ((x i).toNat + (y i).toNat + cin i)
    let flags := fun (cin : Nat → Nat) (i : Nat) =>
      nibbleOf (plain cin i).msb (decide (plain cin i = 0)) (carry (cin i) i) (ovf (cin i) i)
    let cin := fun i => (bitAt s.casf (4 * (w / 8 * (i + 1) - 1) + 1)).toNat
    PutsFlagged (exec (.wadd c sz .none d n m) s) s d (bhwWidth sz) (plain fun _ => 0) (flags fun _ => 0) ∧
    (sz ≠ .b → PutsFlagged (exec (.wadd c sz .c d n m) s) s d (bhwWidth sz) (plain cin) (flags cin)) ∧
    (let f := fun i => saturate .u (bhwWidth sz) ((x i).toNat + (y i).toNat)
     PutsSaturated (exec (.wadd c sz .us d n m) s) s d (bhwWidth sz) f
      (fun i => nibbleOf (f i).msb (decide (f i = 0)) false (!carry 0 i && ovf 0 i))
      (fun i => carry 0 i)) ∧
    (let f := fun i => saturate .s (bhwWidth sz) ((x i).toInt + (y i).toInt)
     PutsSaturated (exec (.wadd c sz .ss d n m) s) s d (bhwWidth sz) f
      (fun i => nibbleOf (f i).msb (decide (f i = 0)) (carry 0 i && !ovf 0 i) false)
      (fun i => ovf 0 i)) ∧
    (∃ (v : DWord) (a : Word) (u p : Bool) (k : Nat), exec (.wadd c .b .c d n m) s = .next { s with
      wR := s.wR.set d v, casf := a, cup := u, mup := p, draws := k, pc := s.pc + 4 })

/-- WSUB without saturation, with US and with SS, with C under either reading of SUB_CARRY (spec/43_arithmetic_compare.md
R211, R213; V is decision D14, SUB_CARRY stays open: log entries 26 and 17). -/
def Obligations.Subtractions : Prop :=
  ∀ (c : Cond) (sz : Bhw) (d n m : DReg) (s : State), Enabled c s →
    let w := bhwWidth sz
    let x := fun i => field (bhwWidth sz) i (s.readWR n)
    let y := fun i => field (bhwWidth sz) i (s.readWR m)
    let borrow := fun i => decide ((x i).toNat < (y i).toNat)
    let carry := fun i => if Config.subCarry = .borrow then borrow i else !borrow i
    let ovf := fun i => decide ((x i).toInt - (y i).toInt > 2 ^ (w - 1) - 1) ||
      decide ((x i).toInt - (y i).toInt < -2 ^ (w - 1))
    (let f := fun i => x i - y i
     PutsFlagged (exec (.wsub c sz .none d n m) s) s d (bhwWidth sz) f
      (fun i => nibbleOf (f i).msb (decide (f i = 0)) (carry i) (ovf i))) ∧
    (let f := fun i => if borrow i then 0 else x i - y i
     PutsSaturated (exec (.wsub c sz .us d n m) s) s d (bhwWidth sz) f
      (fun i => nibbleOf (f i).msb (decide (f i = 0)) (carry i && !borrow i) (ovf i && !borrow i)) borrow) ∧
    (let f := fun i => saturate .s (bhwWidth sz) ((x i).toInt - (y i).toInt)
     PutsSaturated (exec (.wsub c sz .ss d n m) s) s d (bhwWidth sz) f
      (fun i => nibbleOf (f i).msb (decide (f i = 0)) (carry i && !ovf i) false) ovf)

/-- WADDSUBHX and WSUBADDHX: the crossed, alternately added and subtracted half words with signed saturation, their flags,
and the saturation bits (spec/43_arithmetic_compare.md R209, R215; C of the subtracted halves under SUB_CARRY, log entry
17; C and V are decision D14, log entry 26). -/
def Obligations.ComplexSums : Prop :=
  ∀ (c : Cond) (d n m : DReg) (s : State), Enabled c s →
    let a := fun i => field 16 i (s.readWR n)
    let b := fun i => field 16 (if i % 2 = 0 then i + 1 else i - 1) (s.readWR m)
    let exact := fun (sub : Bool) (i : Nat) => if sub then (a i).toInt - (b i).toInt else (a i).toInt + (b i).toInt
    let carry := fun (sub : Bool) (i : Nat) =>
      if sub then
        (if Config.subCarry = .borrow then decide ((a i).toNat < (b i).toNat) else decide ((a i).toNat ≥ (b i).toNat))
      else decide ((a i).toNat + (b i).toNat ≥ 65536)
    let sat := fun (sub : Bool) (i : Nat) => decide (exact sub i > 32767) || decide (exact sub i < -32768)
    let flags := fun (sub : Bool) (i : Nat) =>
      nibbleOf (saturate .s 16 (exact sub i)).msb (decide (saturate .s 16 (exact sub i) = 0))
        (carry sub i && !sat sub i) false
    PutsSaturated (exec (.waddsubhx c d n m) s) s d 16 (fun i => saturate .s 16 (exact (i % 2 == 1) i))
      (fun i => flags (i % 2 == 1) i) (fun i => sat (i % 2 == 1) i) ∧
    PutsSaturated (exec (.wsubaddhx c d n m) s) s d 16 (fun i => saturate .s 16 (exact (i % 2 == 0) i))
      (fun i => flags (i % 2 == 0) i) (fun i => sat (i % 2 == 0) i)

/-- WCMPEQ and WCMPGT: all ones or 0 in each field, signed or unsigned, with N and Z of the result field; nothing else
changes but wCon and the pc (spec/43_arithmetic_compare.md R217, R219). -/
def Obligations.Compares : Prop :=
  ∀ (c : Cond) (sz : Bhw) (d n m : DReg) (s : State), Enabled c s →
    let x := fun i => field (bhwWidth sz) i (s.readWR n)
    let y := fun i => field (bhwWidth sz) i (s.readWR m)
    let puts := fun (i : Instr) (p : Nat → Bool) => PutsFlagged (exec i s) s d (bhwWidth sz)
      (fun k => if p k then BitVec.allOnes (bhwWidth sz) else 0) (fun k => nibbleOf (p k) (!p k) false false)
    puts (.wcmpeq c sz d n m) (fun i => decide (x i = y i)) ∧
    puts (.wcmpgt c .u sz d n m) (fun i => decide ((x i).toNat > (y i).toNat)) ∧
    puts (.wcmpgt c .s sz d n m) (fun i => decide ((x i).toInt > (y i).toInt))

/-- WMAX and WMIN as their rules state them: the encoding rows, `ww` = 11 class P, the greater or smaller field of each
pair, signed or unsigned, and no flag changed (spec/43_arithmetic_compare.md R220, R221). -/
def Obligations.MaxMinRules : Prop :=
  ∀ (c : Cond) (sg : Sign) (sz : Bhw) (d n m : DReg) (s : State),
    let row := fun (ww : BitVec 2) (k : BitVec 1) =>
      condBits c ++ 14#4 ++ ww ++ BitVec.ofBool (decide (sg = .s)) ++ k ++ dregBits n ++ dregBits d ++ 1#4 ++ 3#3 ++
        0#1 ++ dregBits m
    let val := fun (v : BitVec (bhwWidth sz)) => if sg = .s then v.toInt else (v.toNat : Int)
    let x := fun i => field (bhwWidth sz) i (s.readWR n)
    let y := fun i => field (bhwWidth sz) i (s.readWR m)
    encode (.wmax c sg sz d n m) = row (bhwBits sz) 0 ∧ encode (.wmin c sg sz d n m) = row (bhwBits sz) 1 ∧
    (∃ t, decode (row 3 0) = .unpredictable t) ∧ (∃ t, decode (row 3 1) = .unpredictable t) ∧
    (Enabled c s →
      (∃ t, exec (.wmax c sg sz d n m) s = .next t ∧ t.casf = s.casf ∧ t.cssf = s.cssf ∧
        (∀ e, e ≠ d → t.readWR e = s.readWR e) ∧
        IsFields (bhwWidth sz) (t.readWR d) (fun i => if val (x i) > val (y i) then x i else y i)) ∧
      (∃ t, exec (.wmin c sg sz d n m) s = .next t ∧ t.casf = s.casf ∧ t.cssf = s.cssf ∧
        (∀ e, e ≠ d → t.readWR e = s.readWR e) ∧
        IsFields (bhwWidth sz) (t.readWR d) (fun i => if val (x i) < val (y i) then x i else y i)))

/-- WACC writes the exact sum of the unsigned fields of wRn to wRd, whose old value plays no part; WSAD adds the absolute
differences of the fields to the low word of wRd, or to 0 with Z, modulo 2^32, and writes the high word 0; WACC, WSAD, WMAX
and WMIN change nothing else but wCon.MUP and the pc (spec/43_arithmetic_compare.md R200, R220, R221, R223). -/
def Obligations.FieldSums : Prop :=
  ∀ (c : Cond) (d n m : DReg) (s : State), Enabled c s →
    let u := fun (w i : Nat) => (field w i (s.readWR n)).toNat
    let diff := fun (w i : Nat) => |(u w i : Int) - (field w i (s.readWR m)).toNat|
    let low := fun z : Bool => if z then 0 else ((field 32 0 (s.readWR d)).toNat : Int)
    (∃ r, r.toNat = u 8 0 + u 8 1 + u 8 2 + u 8 3 + u 8 4 + u 8 5 + u 8 6 + u 8 7 ∧
      Puts (exec (.wacc c .b d n) s) s d r) ∧
    (∃ r, r.toNat = u 16 0 + u 16 1 + u 16 2 + u 16 3 ∧ Puts (exec (.wacc c .h d n) s) s d r) ∧
    (∃ r, r.toNat = u 32 0 + u 32 1 ∧ Puts (exec (.wacc c .w d n) s) s d r) ∧
    (∀ z : Bool,
      (∃ r, field 32 1 r = 0 ∧ field 32 0 r = BitVec.ofInt 32 (low z +
        (diff 8 0 + diff 8 1 + diff 8 2 + diff 8 3 + diff 8 4 + diff 8 5 + diff 8 6 + diff 8 7)) ∧
        Puts (exec (.wsad c .b z d n m) s) s d r) ∧
      (∃ r, field 32 1 r = 0 ∧
        field 32 0 r = BitVec.ofInt 32 (low z + (diff 16 0 + diff 16 1 + diff 16 2 + diff 16 3)) ∧
        Puts (exec (.wsad c .h z d n m) s) s d r)) ∧
    (∀ (sg : Sign) (sz : Bhw), (∃ r, Puts (exec (.wmax c sg sz d n m) s) s d r) ∧
      ∃ r, Puts (exec (.wmin c sg sz d n m) s) s d r)

/-! ### Multiply -/

/-- WMAC accumulates the four products of the half words into 64 bits (decision D16, log entry 22); WMADD adds, crosses or
subtracts them pairwise into two words; no flag changes, nothing else but wCon.MUP and the pc (spec/44_multiply.md R230,
R232). -/
def Obligations.HalfWordMultiplyAdd : Prop :=
  ∀ (c : Cond) (sg : Sign) (d n m : DReg) (s : State), Enabled c s →
    let p := fun i j => valOf sg (field 16 i (s.readWR n)) * valOf sg (field 16 j (s.readWR m))
    (∀ z : Bool, Puts (exec (.wmac c sg z d n m) s) s d
      (BitVec.ofInt 64 ((if z then 0 else ((s.readWR d).toNat : Int)) + (p 0 0 + p 1 1 + p 2 2 + p 3 3)))) ∧
    PutsFields (exec (.wmadd c sg .plain d n m) s) s d 32 (fun j =>
      BitVec.ofInt 32 (if j = 0 then p 0 0 + p 1 1 else p 2 2 + p 3 3)) ∧
    PutsFields (exec (.wmadd c sg .x d n m) s) s d 32 (fun j =>
      BitVec.ofInt 32 (if j = 0 then p 0 1 + p 1 0 else p 3 2 + p 2 3)) ∧
    PutsFields (exec (.wmadd c sg .n d n m) s) s d 32 (fun j =>
      BitVec.ofInt 32 (if j = 0 then p 0 0 - p 1 1 else p 2 2 - p 3 3))

/-- WMIAxy and WMIAWxy add the selected signed products to wRd modulo 2^64, or subtract them with N; no flag changes,
nothing else but wCon.MUP and the pc (spec/44_multiply.md R235, R236). -/
def Obligations.SelectedMultiplyAccumulate : Prop :=
  ∀ (c : Cond) (x y : Half) (d n m : DReg) (s : State), Enabled c s →
    let sel := fun (h : Half) (top bottom : Nat) => if h = .t then top else bottom
    let a := fun i => (field 16 i (s.readWR n)).toInt
    let b := fun i => (field 16 i (s.readWR m)).toInt
    let p1 := a (sel x 3 2) * b (sel y 3 2)
    let p2 := a (sel x 1 0) * b (sel y 1 0)
    let pw := (field 32 (sel x 1 0) (s.readWR n)).toInt * (field 32 (sel y 1 0) (s.readWR m)).toInt
    Puts (exec (.wmiaxy c false x y d n m) s) s d (s.readWR d + BitVec.ofInt 64 p1 + BitVec.ofInt 64 p2) ∧
    Puts (exec (.wmiaxy c true x y d n m) s) s d (s.readWR d - BitVec.ofInt 64 p1 - BitVec.ofInt 64 p2) ∧
    Puts (exec (.wmiawxy c false x y d n m) s) s d (s.readWR d + BitVec.ofInt 64 pw) ∧
    Puts (exec (.wmiawxy c true x y d n m) s) s d (s.readWR d - BitVec.ofInt 64 pw)

/-- WMUL and WMULW keep the low half of each product, the high half, or the high half after adding half of its least
significant bit; no flag changes, nothing else but wCon.MUP and the pc (spec/44_multiply.md R226, R237, R239). -/
def Obligations.Products : Prop :=
  ∀ (c : Cond) (d n m : DReg) (s : State), Enabled c s →
    let up := fun (w i : Nat) => ((field w i (s.readWR n)).toNat * (field w i (s.readWR m)).toNat : Int)
    let sp := fun (w i : Nat) => (field w i (s.readWR n)).toInt * (field w i (s.readWR m)).toInt
    PutsFields (exec (.wmul c .ul d n m) s) s d 16 (fun i => field 16 i (s.readWR n) * field 16 i (s.readWR m)) ∧
    PutsFields (exec (.wmul c .sl d n m) s) s d 16 (fun i => field 16 i (s.readWR n) * field 16 i (s.readWR m)) ∧
    PutsFields (exec (.wmul c .um d n m) s) s d 16 (fun i => BitVec.ofInt 16 (up 16 i / 65536)) ∧
    PutsFields (exec (.wmul c .sm d n m) s) s d 16 (fun i => BitVec.ofInt 16 (sp 16 i / 65536)) ∧
    PutsFields (exec (.wmul c .umr d n m) s) s d 16 (fun i => BitVec.ofInt 16 ((up 16 i + 32768) / 65536)) ∧
    PutsFields (exec (.wmul c .smr d n m) s) s d 16 (fun i => BitVec.ofInt 16 ((sp 16 i + 32768) / 65536)) ∧
    PutsFields (exec (.wmulw c .l d n m) s) s d 32 (fun j => field 32 j (s.readWR n) * field 32 j (s.readWR m)) ∧
    PutsFields (exec (.wmulw c .um d n m) s) s d 32 (fun j => BitVec.ofInt 32 (up 32 j / 4294967296)) ∧
    PutsFields (exec (.wmulw c .sm d n m) s) s d 32 (fun j => BitVec.ofInt 32 (sp 32 j / 4294967296)) ∧
    PutsFields (exec (.wmulw c .umr d n m) s) s d 32 (fun j => BitVec.ofInt 32 ((up 32 j + 2147483648) / 4294967296)) ∧
    PutsFields (exec (.wmulw c .smr d n m) s) s d 32 (fun j => BitVec.ofInt 32 ((sp 32 j + 2147483648) / 4294967296))

/-- WQMIAxy, WQMULM and WQMULWM: the fractional products with the left shift correction, accumulated with signed saturation,
or truncated or rounded, -1 times -1 replaced by the largest value; the saturation bits of the final sum, or of the case -1
times -1; wCASF unchanged, wCon.CUP set on saturation and otherwise set or left (spec/44_multiply.md R241, R244, R246,
spec/10_state.md R33; log entry 16). -/
def Obligations.FractionalMultiplies : Prop :=
  ∀ (c : Cond) (x y : Half) (r : Bool) (d n m : DReg) (s : State), Enabled c s →
    let op := fun (h : Half) (r : DReg) (j : Nat) => field 16 (if h = .t then 2 * j + 1 else 2 * j) (s.readWR r)
    let tmp := fun j => if op x n j = 0x8000 ∧ op y m j = 0x8000 then 0x7FFFFFFF
      else (op x n j).toInt * (op y m j).toInt * 2
    let acc := fun (neg : Bool) (j : Nat) =>
      if neg then (field 32 j (s.readWR d)).toInt - tmp j else (field 32 j (s.readWR d)).toInt + tmp j
    let a := fun (w i : Nat) => field w i (s.readWR n)
    let b := fun (w i : Nat) => field w i (s.readWR m)
    (∀ neg : Bool, PutsSatOnly (exec (.wqmiaxy c neg x y d n m) s) s d 32 (fun j => saturate .s 32 (acc neg j))
      (fun j => decide (acc neg j > 2147483647) || decide (acc neg j < -2147483648))) ∧
    PutsSatOnly (exec (.wqmulm c r d n m) s) s d 16
      (fun i => if a 16 i = 0x8000 ∧ b 16 i = 0x8000 then 0x7FFF
        else BitVec.ofInt 16 (((a 16 i).toInt * (b 16 i).toInt + (if r then 16384 else 0)) / 32768))
      (fun i => decide (a 16 i = 0x8000 ∧ b 16 i = 0x8000)) ∧
    PutsSatOnly (exec (.wqmulwm c r d n m) s) s d 32
      (fun i => if a 32 i = 0x80000000 ∧ b 32 i = 0x80000000 then 0x7FFFFFFF
        else BitVec.ofInt 32 (((a 32 i).toInt * (b 32 i).toInt + (if r then 1073741824 else 0)) / 2147483648))
      (fun i => decide (a 32 i = 0x80000000 ∧ b 32 i = 0x80000000))

/-! ### Pack, merge, shuffle, unpack -/

/-- WPACK narrows the signed fields of wRn (below) and wRm (above) to half their width with unsigned or signed saturation,
with N and Z of each result field and the saturation bits of the clamped ones (spec/45_pack_unpack_shuffle.md R250). -/
def Obligations.Packs : Prop :=
  ∀ (c : Cond) (sz : Hwd) (d n m : DReg) (s : State), Enabled c s →
    let w := hwdWidth sz
    let src := fun j => if j < 64 / w then (field w j (s.readWR n)).toInt else (field w (j - 64 / w) (s.readWR m)).toInt
    PutsSaturated (exec (.wpack c sz .us d n m) s) s d (w / 2) (fun j => saturate .u (w / 2) (src j))
      (fun j => nzOf (saturate .u (w / 2) (src j)))
      (fun j => decide (src j > 2 ^ (w / 2) - 1) || decide (src j < 0)) ∧
    PutsSaturated (exec (.wpack c sz .ss d n m) s) s d (w / 2) (fun j => saturate .s (w / 2) (src j))
      (fun j => nzOf (saturate .s (w / 2) (src j)))
      (fun j => decide (src j > 2 ^ (w / 2 - 1) - 1) || decide (src j < -2 ^ (w / 2 - 1)))

/-- WMERGE puts the low bytes of wRm above the low bytes of wRn and changes no flag; WSHUFH selects half words of wRn by
pairs of immediate bits and sets N and Z of each (spec/45_pack_unpack_shuffle.md R253, R256; WMERGE with Imm3 = 0 is
decision D19, log entry 25). -/
def Obligations.MergeAndShuffle : Prop :=
  ∀ (c : Cond) (d n m : DReg) (s : State), Enabled c s →
    (∀ imm : BitVec 3, PutsFields (exec (.wmerge c d n m imm) s) s d 8 (fun k =>
      if k < 8 - imm.toNat then field 8 k (s.readWR n) else field 8 (k - (8 - imm.toNat)) (s.readWR m))) ∧
    (∀ imm : BitVec 8,
      let f := fun i => field 16 (imm.toNat / 4 ^ i % 4) (s.readWR n)
      PutsFlagged (exec (.wshufh c d n imm) s) s d 16 f (fun i => nzOf (f i)))

/-- WUNPCKEH and WUNPCKEL extend the fields of the high or low half of wRn to twice their width, with N and Z of each
result field (spec/45_pack_unpack_shuffle.md R258, R262; the lanes are decision D17, log entry 23). -/
def Obligations.UnpackExtends : Prop :=
  ∀ (c : Cond) (sz : Bhw) (d n : DReg) (s : State), Enabled c s →
    let w := bhwWidth sz
    ∀ high : Bool,
      let src := fun j => field w (if high then 32 / w + j else j) (s.readWR n)
      let i := fun sg => if high then Instr.wunpckeh c sg sz d n else .wunpckel c sg sz d n
      (∃ f : Nat → BitVec (2 * w), (∀ j, j < 64 / (2 * w) → (f j).toNat = (src j).toNat) ∧
        PutsFlagged (exec (i .u) s) s d (2 * w) f (fun j => nzOf (f j))) ∧
      (∃ f : Nat → BitVec (2 * w), (∀ j, j < 64 / (2 * w) → (f j).toInt = (src j).toInt) ∧
        PutsFlagged (exec (i .s) s) s d (2 * w) f (fun j => nzOf (f j)))

/-- WUNPCKIH and WUNPCKIL interleave the fields of the high or low halves, wRn in the even and wRm in the odd positions,
with N and Z of each field (spec/45_pack_unpack_shuffle.md R260, R264; the lanes are decision D17, log entry 23). -/
def Obligations.UnpackInterleaves : Prop :=
  ∀ (c : Cond) (sz : Bhw) (d n m : DReg) (s : State), Enabled c s →
    let w := bhwWidth sz
    ∀ high : Bool,
      let i := if high then Instr.wunpckih c sz d n m else .wunpckil c sz d n m
      let base := if high then 32 / w else 0
      ∃ r a, (∀ j, j < 32 / w →
          field w (2 * j) r = field w (base + j) (s.readWR n) ∧ field w (2 * j + 1) r = field w (base + j) (s.readWR m)) ∧
        IsFlags w a (fun k => nzOf (field w k r)) ∧ PutsFlags (exec i s) s d r a

/-! ### Loads, stores and memory -/

/-- The offsets and the six addressing modes: offset_8 times 4 for words, double words and control registers, Rm shifted
left modulo 2^32, base plus or minus offset accessed before (P = 1) or the base accessed (P = 0), and the base updated
(spec/46_load_store.md R272; the meaning of the modes is general knowledge, log entry 21). -/
def Obligations.EffectiveAddress : Prop :=
  (∀ off : BitVec 8, (offsetImm true off).toNat = 4 * off.toNat ∧ (offsetImm false off).toNat = off.toNat) ∧
  (∀ (v : Word) (sh : BitVec 4), (offsetReg v sh).toNat = v.toNat * 2 ^ sh.toNat % 2 ^ 32) ∧
  (∀ base off : Word,
    (∀ wb, addrOf (.pre true wb) base off = base + off ∧ targetOf (.pre true wb) base off = base + off ∧
      addrOf (.pre false wb) base off = base - off ∧ targetOf (.pre false wb) base off = base - off) ∧
    addrOf (.post true) base off = base ∧ targetOf (.post true) base off = base + off ∧
    addrOf (.post false) base off = base ∧ targetOf (.post false) base off = base - off) ∧
  (∀ up, writesBack (.post up) = true ∧ writesBack (.pre up true) = true ∧ writesBack (.pre up false) = false)

/-- WLDR by an immediate and WLDRD by a register offset: on an aligned access that the host does not refuse, the bytes of
the access in the byte order of BIGEND become wRd, zero-extended; wCon.MUP is set, the base takes the target address when
the mode writes back, and nothing else changes but the pc (spec/46_load_store.md R273, R274, spec/20_memory.md R62). -/
def Obligations.DataLoads : Prop :=
  ∀ (c : Cond) (sz : Bhwd) (am : AddrMode) (d : DReg) (rn rm : CoreReg) (off : BitVec 8) (sh : BitVec 4) (s : State),
    let loads := fun (i : Instr) (n : Nat) (o : Word) =>
      (addrOf am (s.readX rn) o).toNat % n = 0 → s.refuses (addrOf am (s.readX rn) o) n .read = false →
      ∃ r : DWord, (∀ k, k < 8 → field 8 k r = if k < n then
          readByte s.mem (addrOf am (s.readX rn) o + BitVec.ofNat 32 (if s.bigend then n - 1 - k else k)).toNat else 0) ∧
        exec i s = .next { s with
          wR := s.wR.set d r, mup := true,
          x := if writesBack am then s.x.set rn (targetOf am (s.readX rn) o) else s.x, pc := s.pc + 4 }
    (Enabled c s → loads (.wldr c sz am d rn off) (bhwdBytes sz) (offsetImm (sz == .w || sz == .d) off)) ∧
    (accessOk s = true → loads (.wldrd am d rn rm sh) 8 (offsetReg (s.readX rm) sh))

/-- WLDRW: on an aligned access that the host does not refuse, the word read is written to the control register as TMCR
writes it, and the base takes the target address when the mode writes back (spec/46_load_store.md R275). -/
def Obligations.ControlLoad : Prop :=
  ∀ (am : AddrMode) (cx : CtrlReg) (rn : CoreReg) (off : BitVec 8) (s : State), accessOk s = true →
    let addr := addrOf am (s.readX rn) (offsetImm true off)
    addr.toNat % 4 = 0 → s.refuses addr 4 .read = false →
    ∃ (v : Word) (u : State),
      (∀ k, k < 4 → field 8 k v =
        readByte s.mem (addr + BitVec.ofNat 32 (if s.bigend then 3 - k else k)).toNat) ∧
      CtrlWritten cx v s u ∧
      exec (.wldrw am cx rn off) s = .next { u with
        x := if writesBack am then s.x.set rn (targetOf am (s.readX rn) (offsetImm true off)) else s.x,
        pc := s.pc + 4 }

/-- WSTR by an immediate and WSTRD by a register offset: on an aligned access that the host does not refuse, the low bytes
of wRm go to the bytes of the access in the byte order of BIGEND; every other byte of memory, every register and every flag
but the base and the pc keep their values, and the instruction words that the store overlaps are dropped
(spec/46_load_store.md R276, R277, spec/20_memory.md R63, R77; log entry 8). -/
def Obligations.DataStores : Prop :=
  ∀ (c : Cond) (sz : Bhwd) (am : AddrMode) (m : DReg) (rn rm : CoreReg) (off : BitVec 8) (sh : BitVec 4) (s : State),
    Memory.wf s.mem = true →
    let stores := fun (i : Instr) (n : Nat) (o : Word) =>
      (addrOf am (s.readX rn) o).toNat % n = 0 → s.refuses (addrOf am (s.readX rn) o) n .write = false →
      let addr := addrOf am (s.readX rn) o
      let place := fun k => (addr + BitVec.ofNat 32 (if s.bigend then n - 1 - k else k)).toNat
      ∃ mem : Memory, (∀ k, k < n → readByte mem (place k) = field 8 k (s.readWR m)) ∧
        (∀ a, (∀ k, k < n → a ≠ place k) → readByte mem a = readByte s.mem a) ∧
        exec i s = .next { s with
          mem := mem, code := s.code.filter (fun w => !overlaps addr n w),
          x := if writesBack am then s.x.set rn (targetOf am (s.readX rn) o) else s.x, pc := s.pc + 4 }
    (Enabled c s → stores (.wstr c sz am m rn off) (bhwdBytes sz) (offsetImm (sz == .w || sz == .d) off)) ∧
    (accessOk s = true → stores (.wstrd am m rn rm sh) 8 (offsetReg (s.readX rm) sh))

/-- WSTRW: on an aligned access that the host does not refuse, the word that TMRC would read goes to the four bytes of the
access; every other byte of memory, every register and every flag but the base and the pc keep their values
(spec/46_load_store.md R278, spec/20_memory.md R63; log entries 8 and 15). -/
def Obligations.ControlStore : Prop :=
  ∀ (am : AddrMode) (cx : CtrlReg) (rn : CoreReg) (off : BitVec 8) (s : State),
    Memory.wf s.mem = true → accessOk s = true →
    let addr := addrOf am (s.readX rn) (offsetImm true off)
    addr.toNat % 4 = 0 → s.refuses addr 4 .write = false →
    let place := fun k => (addr + BitVec.ofNat 32 (if s.bigend then 3 - k else k)).toNat
    ∃ (v : Word) (mem : Memory) (draws : Nat), CtrlReads cx s v ∧
      (∀ k, k < 4 → readByte mem (place k) = field 8 k v) ∧
      (∀ a, (∀ k, k < 4 → a ≠ place k) → readByte mem a = readByte s.mem a) ∧
      exec (.wstrw am cx rn off) s = .next { s with
        mem := mem, code := s.code.filter (fun w => !overlaps addr 4 w), draws := draws,
        x := if writesBack am then s.x.set rn (targetOf am (s.readX rn) (offsetImm true off)) else s.x,
        pc := s.pc + 4 }

/-- A misaligned access: with ALIGN_TRAP = 1 a load or store of a half word, word, double word or control register raises
the alignment fault with its address and nothing else happens; with ALIGN_TRAP = 0 it is UNPREDICTABLE, without a successor
state; a byte access is never misaligned (spec/20_memory.md R67; log entry 14). -/
def Obligations.MisalignedAccess : Prop :=
  ∀ (c : Cond) (sz : Bhwd) (am : AddrMode) (d : DReg) (cx : CtrlReg) (rn rm : CoreReg) (off : BitVec 8) (sh : BitVec 4)
    (s : State), Enabled c s →
    let misaligned := fun (i : Instr) (n : Nat) (o : Word) =>
      (addrOf am (s.readX rn) o).toNat % n ≠ 0 →
      (s.alignTrap = true →
        exec i s = .fault (.raised (.alignmentFault (addrOf am (s.readX rn) o)) s.pc)) ∧
      (s.alignTrap = false →
        exec i s = .fault (.unpredictable (.misaligned (addrOf am (s.readX rn) o)) s.pc))
    misaligned (.wldr c sz am d rn off) (bhwdBytes sz) (offsetImm (sz == .w || sz == .d) off) ∧
    misaligned (.wstr c sz am d rn off) (bhwdBytes sz) (offsetImm (sz == .w || sz == .d) off) ∧
    misaligned (.wldrd am d rn rm sh) 8 (offsetReg (s.readX rm) sh) ∧
    misaligned (.wstrd am d rn rm sh) 8 (offsetReg (s.readX rm) sh) ∧
    misaligned (.wldrw am cx rn off) 4 (offsetImm true off) ∧
    misaligned (.wstrw am cx rn off) 4 (offsetImm true off) ∧
    bhwdBytes .b = 1 ∧ ∀ a : Word, a.toNat % bhwdBytes .b = 0

/-- An aligned access that the host's memory predicate refuses raises the data abort with its address and nothing else
happens (spec/20_memory.md R73, spec/60_exceptions.md R304; decision D24, log entries 7 and 30). -/
def Obligations.RefusedAccessAborts : Prop :=
  ∀ (c : Cond) (sz : Bhwd) (am : AddrMode) (d : DReg) (cx : CtrlReg) (rn rm : CoreReg) (off : BitVec 8) (sh : BitVec 4)
    (s : State), Enabled c s →
    let refused := fun (i : Instr) (n : Nat) (dir : Direction) (o : Word) =>
      (addrOf am (s.readX rn) o).toNat % n = 0 → s.refuses (addrOf am (s.readX rn) o) n dir = true →
      exec i s = .fault (.raised (.dataAbort (addrOf am (s.readX rn) o)) s.pc)
    refused (.wldr c sz am d rn off) (bhwdBytes sz) .read (offsetImm (sz == .w || sz == .d) off) ∧
    refused (.wstr c sz am d rn off) (bhwdBytes sz) .write (offsetImm (sz == .w || sz == .d) off) ∧
    refused (.wldrd am d rn rm sh) 8 .read (offsetReg (s.readX rm) sh) ∧
    refused (.wstrd am d rn rm sh) 8 .write (offsetReg (s.readX rm) sh) ∧
    refused (.wldrw am cx rn off) 4 .read (offsetImm true off) ∧
    refused (.wstrw am cx rn off) 4 .write (offsetImm true off)

/-! ### Saturation and the flag formats -/

/-- Saturation: the limits, when a field saturates, and the reduction modulo 2^n without saturation (spec/00_scope.md
R14). -/
def Obligations.SaturationLimits : Prop :=
  ∀ (n : Nat) (k : Int), 0 < n →
    (if k > 2 ^ (n - 1) - 1 then (saturate .s n k).toInt = 2 ^ (n - 1) - 1 ∧ saturates .s n k = true
      else if k < -2 ^ (n - 1) then (saturate .s n k).toInt = -2 ^ (n - 1) ∧ saturates .s n k = true
      else (saturate .s n k).toInt = k ∧ saturates .s n k = false) ∧
    (if k > 2 ^ n - 1 then ((saturate .u n k).toNat : Int) = 2 ^ n - 1 ∧ saturates .u n k = true
      else if k < 0 then (saturate .u n k).toNat = 0 ∧ saturates .u n k = true
      else ((saturate .u n k).toNat : Int) = k ∧ saturates .u n k = false) ∧
    (∀ j : Int, ((sumValue n none k j).toNat : Int) = k % 2 ^ n)

/-- The formats of wCASF: one nibble N Z C V per field at the format's positions, every other nibble 0, the whole register
replaced and wCon.CUP set (spec/10_state.md R25). -/
def Obligations.FlagFormats : Prop :=
  ∀ (s : State) (flags : Nat → BitVec 4),
    (∀ w ∈ [8, 16, 32, 64], IsFlags w (s.setCasf (casfOf w flags)).casf flags ∧
      (s.setCasf (casfOf w flags)).cup = true) ∧
    (∀ k, k < 8 → field 4 k (s.setCasf (casfOf 8 flags)).casf = flags k) ∧
    (∀ i, i < 4 → field 4 (2 * i + 1) (s.setCasf (casfOf 16 flags)).casf = flags i ∧
      field 4 (2 * i) (s.setCasf (casfOf 16 flags)).casf = 0) ∧
    (∀ i, i < 2 → field 4 (4 * i + 3) (s.setCasf (casfOf 32 flags)).casf = flags i) ∧
    (bitsAt (s.setCasf (casfOf 64 flags)).casf 28 4 = flags 0 ∧ bitsAt (s.setCasf (casfOf 64 flags)).casf 0 28 = 0) ∧
    (∀ n z c v, bitAt (nibbleOf n z c v) 3 = n ∧ bitAt (nibbleOf n z c v) 2 = z ∧ bitAt (nibbleOf n z c v) 1 = c ∧
      bitAt (nibbleOf n z c v) 0 = v)

/-! ### Reset and the whole machine -/

/-- The reset values that the spec gives: wCASF, wCSSF, MUP and CUP 0, wCID its parameter (spec/10_state.md R44). -/
def Obligations.ResetValues : Prop :=
  State.reset.casf = 0 ∧ State.reset.cssf = 0 ∧ State.reset.mup = false ∧ State.reset.cup = false ∧
    State.reset.wcid = Config.wcidValue

/-- The state after reset has the invariant (the memory of the reset state and its pc are the model's choice, log entries 4
and 6). -/
def Obligations.ResetInvariant : Prop := State.Inv State.reset

/-- Every step keeps the invariant, from every state that has it: the memory stays in its canonical form, the pc stays a
multiple of 4 and wCID keeps its value (spec/10_state.md R28, R37). -/
def Obligations.StepKeepsInvariant : Prop :=
  ∀ s t : State, State.Inv s → step s = .next t → State.Inv t

/-- No step changes wCID, the coprocessor access bits, BIGEND, ALIGN_TRAP or the host's memory predicate, and every step
that answers a next state moves the pc by 4 (spec/10_state.md R28, R37, R39, R40, R41; decision D3). -/
def Obligations.HostStateIsKept : Prop :=
  ∀ s t : State, step s = .next t →
    t.wcid = s.wcid ∧ t.cpar = s.cpar ∧ t.bigend = s.bigend ∧ t.alignTrap = s.alignTrap ∧ t.denied = s.denied ∧
      t.pc = s.pc + 4

/-- The CPSR flags change only by TANDC, TORC, TORVSC and TEXTRC; a core register only by an instruction that names it as
Rd, RdHi or RdLo or writes it back as a base; a byte of memory and an instruction word only by a store (spec/10_state.md
R36, R38, spec/20_memory.md R60). -/
def Obligations.CoreStateFrame : Prop :=
  ∀ (i : Instr) (s t : State), exec i s = .next t →
    (writesCpsr i = false → t.nzcv = s.nzcv) ∧
    (∀ r, r ∉ coreDests i → t.readX r = s.readX r) ∧
    (isStore i = false → t.code = s.code ∧ ∀ a, readByte t.mem a = readByte s.mem a)

/-- A saturation flag that is set stays set unless TMCR or WLDRW writes wCSSF (spec/10_state.md R27). -/
def Obligations.SaturationIsSticky : Prop :=
  ∀ (i : Instr) (s t : State), exec i s = .next t → writesCtrl .wCSSF i = false →
    ∀ k, bitAt s.cssf k = true → bitAt t.cssf k = true

/-- MUP is set whenever a data register has changed, CUP whenever wCASF, wCSSF or a wCGR has changed, and neither is cleared
but by TMCR or WLDRW writing wCon (spec/10_state.md R31, R32, R33; decisions D7 and D8, log entry 28). -/
def Obligations.UpdateBits : Prop :=
  ∀ (i : Instr) (s t : State), i.wellFormed = true → exec i s = .next t →
    (t.wR ≠ s.wR → t.mup = true) ∧
    (t.casf ≠ s.casf ∨ t.cssf ≠ s.cssf ∨ t.cgr ≠ s.cgr → t.cup = true) ∧
    (writesCtrl .wCon i = false → (s.mup = true → t.mup = true) ∧ (s.cup = true → t.cup = true))

/-! ### The words that are no instruction -/

/-- The reserved words that are class U whatever their operand fields hold: the U rows of the CDP maps of coprocessors 0 and 1
(spec/30_encoding.md R101, R102), every combination of L, cp_num, Opcode1 and Opcode2 of the transfers, and every selector of
the TMIA group, that has no row in R103, the TMCRR and TMRRC rows with another Opcode2 or cp_num (R98), and every word with
`Cond` = 1111 that is neither an LDC or STC word of coprocessor 1 nor an immediate shift (R106). That these are class U and
not class P is the spec's own choice: decisions D31 and D33, log entry 33. -/
def Obligations.ReservedWordsAreUndefined : Prop :=
  (∀ (c : Cond) (n d m op1 : BitVec 4) (op2 : BitVec 3),
    (op2 = 0 ∧ op1 ∈ [6#4, 7#4, 10#4, 11#4, 14#4, 15#4]) ∨ (op2 = 1 ∧ op1 ∈ [12#4, 13#4, 14#4, 15#4]) ∨
      (op2 = 3 ∧ op1 ∈ [2#4, 6#4, 10#4, 14#4]) ∨ (op2 = 6 ∧ op1 ∈ [3#4, 7#4]) ∨
      (op2 = 7 ∧ op1 ∈ [3#4, 7#4, 11#4, 15#4]) →
    decode (cdpWord (condBits c) op1 n d 0 op2 m) = .undefined) ∧
  (∀ (c : Cond) (n d m op1 : BitVec 4) (op2 : BitVec 3),
    (op2 = 1 ∧ op1 ∈ [2#4, 3#4, 6#4, 7#4]) ∨ (op2 = 5 ∧ op1 ∈ [2#4, 6#4, 12#4, 13#4, 14#4, 15#4]) ∨
      (op2 = 6 ∧ op1 ∈ [3#4, 7#4, 11#4, 15#4]) →
    decode (cdpWord (condBits c) op1 n d 1 op2 m) = .undefined) ∧
  -- transfers to the coprocessor: TMCR, TBCST and TINSR, the TMIA group
  (∀ (c : Cond) (op1 op2 : BitVec 3) (cp : BitVec 1) (n d m : BitVec 4), op1 ≠ 1 →
    ¬ (cp = 1 ∧ op1 = 0 ∧ op2 = 0) → ¬ (cp = 0 ∧ op1 ∈ [2#3, 3#3] ∧ bitAt op2 0 = false) →
    decode (transferWord (condBits c) op1 0 n d cp op2 m) = .undefined) ∧
  (∀ (c : Cond) (op2 : BitVec 3) (cp : BitVec 1) (sel d m : BitVec 4), sel ∉ [0#4, 8#4, 12#4, 13#4, 14#4, 15#4] →
    decode (transferWord (condBits c) 1 0 sel d cp op2 m) = .undefined) ∧
  -- transfers from the coprocessor: TMRC; TANDC, TORC, TEXTRC, TORVSC; TMOVMSK and TEXTRM
  (∀ (c : Cond) (op1 op2 : BitVec 3) (cp : BitVec 1) (n d m : BitVec 4),
    ¬ (cp = 1 ∧ op1 = 0 ∧ op2 = 0) → ¬ (cp = 1 ∧ bitAt op1 0 = false ∧ op2 ∈ [1#3, 2#3, 3#3, 4#3]) →
    ¬ (cp = 0 ∧ bitAt op1 0 = false ∧ op2 ∈ [1#3, 3#3]) →
    decode (transferWord (condBits c) op1 1 n d cp op2 m) = .undefined) ∧
  -- TMCRR and TMRRC
  (∀ (c : Cond) (l m : BitVec 1) (hi lo : BitVec 4) (off : BitVec 8), m = 1 ∨ bitsAt off 4 4 ≠ 0 →
    decode (memoryWord (condBits c) 0 0 1 0 l hi lo m off) = .undefined) ∧
  -- the unconditional words
  (∀ w : Word, bitsAt w 28 4 = 15 → bitsAt w 24 4 = 14 ∨ bitsAt w 25 3 = 6 → bitsAt w 9 3 = 0 →
    ¬ (bitsAt w 25 3 = 6 ∧ bitsAt w 8 4 = 1) → ¬ (bitsAt w 24 4 = 14 ∧ bitsAt w 4 4 = 4) → decode w = .undefined)
end

