-- ==== Sys2Proof/Laws/Encoding.lean ====
section
/-! SUPPORT. The slices of a word determine it and are determined by it, and every operand field reads back. -/

namespace Sys2Proof

/-- A word is the word of its slices. -/
theorem assemble_fieldsOf (w : Word) : assemble (fieldsOf w) = w := by
  apply BitVec.eq_of_getLsbD_eq
  intro j hj
  simp only [assemble, fieldsOf, bitsAt, bitAt, BitVec.getLsbD_append, BitVec.getLsbD_extractLsb', BitVec.getLsbD_ofBool]
  interval_cases j <;> simp

/-- The slices of a word of slices. -/
theorem fieldsOf_assemble (f : Fields) : fieldsOf (assemble f) = f := by
  obtain ⟨c, k, p, op1, crn, crd, cpHi, cp, op2, b4, crm⟩ := f
  simp only [fieldsOf, assemble, bitsAt, bitAt, Fields.mk.injEq]
  refine ⟨?_, ?_, ?_, ?_, ?_, ?_, ?_, ?_, ?_, ?_, ?_⟩
  all_goals first
    | (apply BitVec.eq_of_getLsbD_eq; intro j hj
       simp only [BitVec.getLsbD_append, BitVec.getLsbD_extractLsb', BitVec.getLsbD_ofBool]
       interval_cases j <;> simp)
    | (simp only [BitVec.getLsbD_append, BitVec.getLsbD_ofBool]; simp)

/-- Words are equal when their slices are. -/
theorem fieldsOf_injective {v w : Word} (h : fieldsOf v = fieldsOf w) : v = w := by
  rw [← assemble_fieldsOf v, h, assemble_fieldsOf]

/-- Decoding an encoded instruction is decoding its slices. -/
theorem decode_encode_eq (i : Instr) : decode (encode i) = decodeFields (encodeFields i) := by
  simp [decode, encode, fieldsOf_assemble]

@[simp] theorem condOf_condBits (c : Cond) : condOf (condBits c) = some c := by
  cases c <;> rfl

@[simp] theorem condOf_none : condOf 15 = none := rfl

@[simp] theorem dregOf_dregBits (r : DReg) : dregOf (dregBits r) = r := rfl

@[simp] theorem dregBits_dregOf (b : BitVec 4) : dregBits (dregOf b) = b := rfl

@[simp] theorem coreOf_coreBits (r : CoreReg) : coreOf (coreBits r) = some r := by
  revert r; decide

@[simp] theorem ctrlOf_ctrlBits (cx : CtrlReg) : ctrlOf (ctrlBits cx) = some cx := by
  cases cx with
  | wCGR k => revert k; decide
  | _ => rfl

@[simp] theorem cgrOf_ctrlBits (k : CgrIndex) : cgrOf (ctrlBits (.wCGR k)) = some k := by
  revert k; decide

@[simp] theorem bhwOf_bhwBits (z : Bhw) : bhwOf (bhwBits z) = some z := by
  cases z <;> rfl

@[simp] theorem hwdOf_hwdBits (z : Hwd) : hwdOf (hwdBits z) = some z := by
  cases z <;> rfl

@[simp] theorem bhOf_bhBit (z : Bh) : bhOf (bhBit z) = z := by
  cases z <;> rfl

@[simp] theorem signOf_signBit (z : Sign) : signOf (signBit z) = z := by
  cases z <;> rfl

@[simp] theorem halfOf_halfBit (z : Half) : halfOf (halfBit z) = z := by
  cases z <;> rfl

@[simp] theorem packKindOf_packKindBit (z : PackKind) : packKindOf (packKindBit z) = z := by
  cases z <;> rfl

@[simp] theorem bhwdOf_bhwdBits (z : Bhwd) : bhwdOf (bhwdBits z).1 (bhwdBits z).2 = z := by
  cases z <;> rfl

@[simp] theorem modeOf_mode (am : AddrMode) : modeOf (modeP am) (modeU am) (modeW am) = some am := by
  cases am <;> rfl

end Sys2Proof
end

