-- ==== Sys2Proof/Laws/Envelope.lean ====
section
/-! SUPPORT. What the envelope, the loads and stores and the step can answer, once each: later proofs cite these lemmas
and do not unfold the operations. -/

namespace Sys2Proof.Machine

/-! ### The envelope (spec/30_encoding.md R107) -/

theorem complete_eq (s : State) : complete s = .next s.advance := rfl

theorem takeException_eq (e : Exception) (s : State) : takeException e s = .fault (.raised e s.pc) := rfl

theorem whenEnabled_ok {word : Word} {s : State} {k : Result} (h : accessOk s = true) : whenEnabled word s k = k := by
  simp [whenEnabled, h]

theorem whenEnabled_disabled {word : Word} {s : State} {k : Result} (h : accessOk s = false) :
    whenEnabled word s k = .fault (.raised (.undefinedInstruction word) s.pc) := by
  simp [whenEnabled, h, takeException]

theorem unconditional_ok {i : Instr} {s : State} {k : Result} (h : accessOk s = true) : unconditional i s k = k :=
  whenEnabled_ok h

theorem unconditional_disabled {i : Instr} {s : State} {k : Result} (h : accessOk s = false) :
    unconditional i s k = .fault (.raised (.undefinedInstruction (encode i)) s.pc) :=
  whenEnabled_disabled h

theorem conditional_ok {c : Cond} {i : Instr} {s : State} {k : Result} (hc : condPass c s = true)
    (h : accessOk s = true) : conditional c i s k = k := by
  simp [conditional, hc, unconditional_ok h]

theorem conditional_skip {c : Cond} {i : Instr} {s : State} {k : Result} (hc : condPass c s = false) :
    conditional c i s k = .next s.advance := by
  simp [conditional, hc, complete]

theorem conditional_disabled {c : Cond} {i : Instr} {s : State} {k : Result} (hc : condPass c s = true)
    (h : accessOk s = false) :
    conditional c i s k = .fault (.raised (.undefinedInstruction (encode i)) s.pc) := by
  simp [conditional, hc, unconditional_disabled h]

/-- An unconditional form that answers a next state answered it in its rule, with the access enabled. -/
theorem unconditional_next {i : Instr} {s t : State} {k : Result} (h : unconditional i s k = .next t) :
    accessOk s = true ∧ k = .next t := by
  unfold unconditional whenEnabled at h
  split at h
  · exact ⟨‹_›, h⟩
  · cases h

/-- A conditional form that answers a next state was skipped, or answered it in its rule. -/
theorem conditional_next {c : Cond} {i : Instr} {s t : State} {k : Result} (h : conditional c i s k = .next t) :
    (condPass c s = false ∧ t = s.advance) ∨ (condPass c s = true ∧ accessOk s = true ∧ k = .next t) := by
  unfold conditional at h
  split at h
  · exact .inr ⟨‹_›, unconditional_next h⟩
  · cases h
    exact .inl ⟨eq_false_of_ne_true ‹_›, rfl⟩

/-- A word that is no instruction and answers a next state was skipped, or answered it in its class. -/
theorem envelopeOfWord_next {word : Word} {s t : State} {k : Result} (h : envelopeOfWord word s k = .next t) :
    t = s.advance ∨ k = .next t := by
  unfold envelopeOfWord whenEnabled takeException complete at h
  split at h
  · split at h
    · split at h
      · exact .inr h
      · cases h
    · cases h; exact .inl rfl
  · split at h
    · exact .inr h
    · cases h

/-! ### Loads and stores (spec/46_load_store.md R280) -/

theorem checkedAccess_ok {s : State} {addr : Word} {n : Nat} {dir : Direction} {k : Result}
    (ha : addr.toNat % n = 0) (hr : s.refuses addr n dir = false) : checkedAccess s addr n dir k = k := by
  simp [checkedAccess, ha, hr]

theorem checkedAccess_refused {s : State} {addr : Word} {n : Nat} {dir : Direction} {k : Result}
    (ha : addr.toNat % n = 0) (hr : s.refuses addr n dir = true) :
    checkedAccess s addr n dir k = .fault (.raised (.dataAbort addr) s.pc) := by
  simp [checkedAccess, ha, hr, takeException]

theorem checkedAccess_trapped {s : State} {addr : Word} {n : Nat} {dir : Direction} {k : Result}
    (ha : addr.toNat % n ≠ 0) (ht : s.alignTrap = true) :
    checkedAccess s addr n dir k = .fault (.raised (.alignmentFault addr) s.pc) := by
  simp [checkedAccess, ha, ht, takeException]

theorem checkedAccess_untrapped {s : State} {addr : Word} {n : Nat} {dir : Direction} {k : Result}
    (ha : addr.toNat % n ≠ 0) (ht : s.alignTrap = false) :
    checkedAccess s addr n dir k = .fault (.unpredictable (.misaligned addr) s.pc) := by
  simp [checkedAccess, ha, ht]

/-- An access that answers a next state was aligned and not refused. -/
theorem checkedAccess_next {s t : State} {addr : Word} {n : Nat} {dir : Direction} {k : Result}
    (h : checkedAccess s addr n dir k = .next t) :
    addr.toNat % n = 0 ∧ s.refuses addr n dir = false ∧ k = .next t := by
  unfold checkedAccess takeException at h
  split at h
  · split at h
    · cases h
    · exact ⟨‹_›, eq_false_of_ne_true ‹_›, h⟩
  · split at h <;> cases h

/-- A load into a data register that completes. -/
theorem loadData_next {s t : State} {am : AddrMode} {n : Nat} {d : DReg} {rn : CoreReg} {off : Word}
    (h : loadData s am n d rn off = .next t) :
    (addrOf am (s.readX rn) off).toNat % n = 0 ∧ s.refuses (addrOf am (s.readX rn) off) n .read = false ∧
      t = ((s.writeWR d (s.memRead (addrOf am (s.readX rn) off) n)).writeBack am rn
        (targetOf am (s.readX rn) off)).advance := by
  obtain ⟨ha, hr, h⟩ := checkedAccess_next h
  cases h; exact ⟨ha, hr, rfl⟩

/-- A load into a control register that completes. -/
theorem loadCtrl_next {s t : State} {am : AddrMode} {cx : CtrlReg} {rn : CoreReg} {off : Word}
    (h : loadCtrl s am cx rn off = .next t) :
    (addrOf am (s.readX rn) off).toNat % 4 = 0 ∧ s.refuses (addrOf am (s.readX rn) off) 4 .read = false ∧
      t = ((s.writeCtrl cx ((s.memRead (addrOf am (s.readX rn) off) 4).setWidth 32)).writeBack am rn
        (targetOf am (s.readX rn) off)).advance := by
  obtain ⟨ha, hr, h⟩ := checkedAccess_next h
  cases h; exact ⟨ha, hr, rfl⟩

/-- A store that completes. -/
theorem storeValue_next {s u t : State} {am : AddrMode} {n : Nat} {v : DWord} {rn : CoreReg} {off : Word}
    (h : storeValue s u am n v rn off = .next t) :
    (addrOf am (s.readX rn) off).toNat % n = 0 ∧ s.refuses (addrOf am (s.readX rn) off) n .write = false ∧
      t = ((u.memWrite (addrOf am (s.readX rn) off) n v).writeBack am rn (targetOf am (s.readX rn) off)).advance := by
  obtain ⟨ha, hr, h⟩ := checkedAccess_next h
  cases h; exact ⟨ha, hr, rfl⟩

/-! ### The step -/

theorem fetchWord_handWord (s : State) (word : Word) : (s.handWord word).fetchWord = some word := by
  simp [State.fetchWord, State.handWord, lookupWord]

theorem runWord_instr {run : Instr → State → Result} {word : Word} {s : State} {i : Instr}
    (h : decode word = .instr i) : runWord run word s = run i s := by
  simp [runWord, h]

/-- A step that answers a next state fetched a word at an aligned pc and ran it. -/
theorem stepWith_next {run : Instr → State → Result} {s t : State} (h : stepWith run s = .next t) :
    bitsAt s.pc 0 2 = 0 ∧ ∃ word, s.fetchWord = some word ∧ runWord run word s = .next t := by
  unfold stepWith at h
  split at h
  · split at h
    · exact ⟨‹_›, _, ‹_›, h⟩
    · cases h
  · cases h

/-- A word that answers a next state is an instruction, a class P word whose destinations take free values, or a word
that its condition skips. -/
theorem runWord_next {run : Instr → State → Result} {word : Word} {s t : State} (h : runWord run word s = .next t) :
    (∃ i, decode word = .instr i ∧ run i s = .next t) ∨ t = s.advance ∨ (∃ ds, t = (s.drawDests ds).advance) := by
  unfold runWord at h
  split at h
  · exact .inl ⟨_, ‹_›, h⟩
  · rcases envelopeOfWord_next h with h | h
    · exact .inr (.inl h)
    · cases h
  · rcases envelopeOfWord_next h with h | h
    · exact .inr (.inl h)
    · cases h; exact .inr (.inr ⟨_, rfl⟩)
  · rcases envelopeOfWord_next h with h | h
    · exact .inr (.inl h)
    · cases h
  · cases h

end Sys2Proof.Machine
end

