-- ==== Sys2Proof/Laws/Lanes.lean ====
section
/-! SUPPORT. What the field, flag nibble and saturation bit constructions of Operands and Flags give: each result field,
nibble and bit, once. -/

namespace Sys2Proof.Machine

/-- Every bit of a placed vector. -/
theorem getLsbD_placeFields (w : Nat) (hw : 0 < w) (f : Nat → BitVec w) (k j : Nat) :
    (placeFields w f k).getLsbD j = (decide (j < 64) && decide (j < w * k) && (f (j / w)).getLsbD (j % w)) := by
  induction k with
  | zero => simp [placeFields]
  | succ k ih =>
    have hk : w * (k + 1) = w * k + w := Nat.mul_succ w k
    simp only [placeFields, BitVec.getLsbD_or, ih, BitVec.getLsbD_shiftLeft, BitVec.getLsbD_setWidth]
    by_cases h64 : j < 64
    · by_cases hlt : j < w * k
      · have h2 : j < w * (k + 1) := by omega
        simp [h64, hlt, h2]
      · by_cases h2 : j < w * (k + 1)
        · have hd : j / w = k := by
            rw [Nat.div_eq_iff hw]
            constructor
            · have := Nat.mul_comm w k; omega
            · have := Nat.mul_comm w k; omega
          have hm : j % w = j - w * k := by
            have := Nat.div_add_mod j w
            rw [hd] at this; omega
          have h3 : j - w * k < 64 := by omega
          simp [h64, hlt, h2, hd, hm, h3]
        · have h4 : w ≤ j - w * k := by omega
          simp [h64, hlt, h2, BitVec.getLsbD_of_ge (f k) _ h4]
    · simp [h64]

/-- A placed field reads back. -/
theorem field_placeFields {w : Nat} (hw : 0 < w) (f : Nat → BitVec w) {k i : Nat} (hk : w * k ≤ 64) (hi : i < k) :
    field w i (placeFields w f k) = f i := by
  have hb : w * (i + 1) ≤ w * k := Nat.mul_le_mul_left w hi
  have hs : w * (i + 1) = w * i + w := Nat.mul_succ w i
  apply BitVec.eq_of_getLsbD_eq
  intro j hj
  have h1 : (w * i + j) / w = i := by
    rw [Nat.mul_add_div hw, Nat.div_eq_of_lt hj, Nat.add_zero]
  have h2 : (w * i + j) % w = j := by
    rw [Nat.mul_add_mod, Nat.mod_eq_of_lt hj]
  simp only [field, BitVec.getLsbD_extractLsb', getLsbD_placeFields w hw, h1, h2, hj, decide_true, Bool.true_and]
  have h3 : w * i + j < 64 := by omega
  have h4 : w * i + j < w * k := by omega
  simp [h3, h4]

/-- A field above the placed ones is 0. -/
theorem field_placeFields_of_ge {w : Nat} (hw : 0 < w) (f : Nat → BitVec w) {k i : Nat} (hi : k ≤ i) :
    field w i (placeFields w f k) = 0 := by
  have hb : w * k ≤ w * i := Nat.mul_le_mul_left w hi
  apply BitVec.eq_of_getLsbD_eq
  intro j hj
  have h4 : ¬ w * i + j < w * k := by omega
  simp [field, getLsbD_placeFields w hw, hj, h4]

/-- Field `i` of `fromFields w f` is `f i`. -/
theorem field_fromFields {w : Nat} (hw : 0 < w) (f : Nat → BitVec w) {i : Nat} (hi : i < 64 / w) :
    field w i (fromFields w f) = f i :=
  field_placeFields hw f (Nat.mul_div_le 64 w) hi

/-- A 64-bit vector is determined by its fields of a width that divides 64. -/
theorem eq_of_fields {w : Nat} (hw : 0 < w) (hd : w * (64 / w) = 64) {u v : DWord}
    (h : ∀ i, i < 64 / w → field w i u = field w i v) : u = v := by
  apply BitVec.eq_of_getLsbD_eq
  intro j hj
  have hi : j / w < 64 / w := by
    rw [Nat.div_lt_iff_lt_mul hw, Nat.mul_comm]; omega
  have hm := Nat.mod_lt j hw
  have := congrArg (fun x => x.getLsbD (j % w)) (h _ hi)
  simpa [field, hm, Nat.div_add_mod] using this

/-- The flag nibbles of a SIMD format read back, and every other nibble is 0 (spec/10_state.md R25). -/
theorem casfOf_nibbles (w : Nat) (hw : w = 8 ∨ w = 16 ∨ w = 32 ∨ w = 64) (flags : Nat → BitVec 4) :
    (∀ i, i < 64 / w → field 4 (flagIndex w i) (casfOf w flags) = flags i) ∧
    (∀ k, k < 8 → (∀ i, i < 64 / w → k ≠ flagIndex w i) → field 4 k (casfOf w flags) = 0) := by
  have hbit : ∀ (v : BitVec 4) (m k j : Nat), j < 4 →
      (v.setWidth 32 <<< (4 * m)).getLsbD (4 * k + j) =
        (decide (4 * k + j < 32) && decide (m = k) && v.getLsbD j) := by
    intro v m k j hj
    simp only [BitVec.getLsbD_shiftLeft, BitVec.getLsbD_setWidth]
    by_cases h32 : 4 * k + j < 32
    · by_cases hmk : m = k
      · subst hmk
        have h1 : ¬ 4 * m + j < 4 * m := by omega
        have h2 : 4 * m + j - 4 * m = j := by omega
        have h3 : j < 32 := by omega
        simp [h32, h1, h2, h3]
      · by_cases hlt : 4 * k + j < 4 * m
        · simp [h32, hlt, hmk]
        · have h5 : 4 ≤ 4 * k + j - 4 * m := by omega
          simp [h32, hlt, hmk, BitVec.getLsbD_of_ge v _ h5]
    · simp [h32]
  have hex : ∀ (u v : BitVec 4), (∀ j, j < 4 → u.getLsbD j = v.getLsbD j) → u = v := fun u v h =>
    BitVec.eq_of_getLsbD_eq h
  constructor
  · intro i hi
    apply hex
    intro j hj
    rcases hw with rfl | rfl | rfl | rfl <;>
      simp only [field, BitVec.getLsbD_extractLsb', hj, decide_true, Bool.true_and, casfOf, placeNibbles,
        flagIndex, BitVec.getLsbD_or, Nat.reduceDiv, Nat.reduceMul, Nat.reduceAdd, Nat.reduceSub] at hi ⊢ <;>
      interval_cases i <;> interval_cases j <;> simp
  · intro k hk hno
    apply hex
    intro j hj
    rcases hw with rfl | rfl | rfl | rfl <;>
      simp only [field, BitVec.getLsbD_extractLsb', hj, decide_true, Bool.true_and, casfOf, placeNibbles,
        flagIndex, BitVec.getLsbD_or, Nat.reduceDiv, Nat.reduceMul, Nat.reduceAdd, Nat.reduceSub] at hno ⊢ <;>
      interval_cases k <;> interval_cases j <;>
      first
        | exact absurd rfl (hno 0 (by decide)) | exact absurd rfl (hno 1 (by decide))
        | exact absurd rfl (hno 2 (by decide)) | exact absurd rfl (hno 3 (by decide))
        | exact absurd rfl (hno 4 (by decide)) | exact absurd rfl (hno 5 (by decide))
        | exact absurd rfl (hno 6 (by decide)) | exact absurd rfl (hno 7 (by decide))
        | simp

/-- The bits `OrCSSF` sets: the bit of each field that saturated, and no other (spec/10_state.md R27). -/
theorem cssfOf_bits (w : Nat) (hw : w = 8 ∨ w = 16 ∨ w = 32 ∨ w = 64) (sat : Nat → Bool) :
    (∀ i, i < 64 / w → bitAt (cssfOf w sat) (flagIndex w i) = sat i) ∧
    (∀ k, k < 8 → (∀ i, i < 64 / w → k ≠ flagIndex w i) → bitAt (cssfOf w sat) k = false) := by
  have hbit : ∀ (b : Bool) (m k : Nat),
      ((BitVec.ofBool b).setWidth 8 <<< m).getLsbD k = (decide (k < 8) && decide (m = k) && b) := by
    intro b m k
    simp only [BitVec.getLsbD_shiftLeft, BitVec.getLsbD_setWidth, BitVec.getLsbD_ofBool]
    by_cases h8 : k < 8
    · by_cases hmk : m = k
      · subst hmk; simp [h8]
      · by_cases hlt : k < m
        · simp [h8, hlt, hmk]
        · have : k - m ≠ 0 := by omega
          simp [h8, hlt, hmk, this]
    · simp [h8]
  constructor
  · intro i hi
    rcases hw with rfl | rfl | rfl | rfl <;>
      simp only [bitAt, cssfOf, placeSatBits, flagIndex, BitVec.getLsbD_or, hbit, Nat.reduceDiv, Nat.reduceMul,
        Nat.reduceAdd, Nat.reduceSub] at hi ⊢ <;>
      interval_cases i <;> simp
  · intro k hk hno
    rcases hw with rfl | rfl | rfl | rfl <;>
      simp only [bitAt, cssfOf, placeSatBits, flagIndex, BitVec.getLsbD_or, hbit, Nat.reduceDiv, Nat.reduceMul,
        Nat.reduceAdd, Nat.reduceSub] at hno ⊢ <;>
      interval_cases k <;>
      first
        | exact absurd rfl (hno 0 (by decide)) | exact absurd rfl (hno 1 (by decide))
        | exact absurd rfl (hno 2 (by decide)) | exact absurd rfl (hno 3 (by decide))
        | exact absurd rfl (hno 4 (by decide)) | exact absurd rfl (hno 5 (by decide))
        | exact absurd rfl (hno 6 (by decide)) | exact absurd rfl (hno 7 (by decide))
        | simp

end Sys2Proof.Machine
end

