-- ==== Sys2Proof/Laws/Memory.lean ====
section
/-! SUPPORT. Memory keeps its canonical form; what a byte reads as after a write; the bytes of a load and of a store. -/

namespace Sys2Proof.Machine

theorem memWfFrom_cons {lo a : Nat} {b : Byte} {m : Memory} :
    memWfFrom lo ((a, b) :: m) = true ↔ lo ≤ a ∧ a < 2 ^ 32 ∧ b ≠ unlistedByte ∧ memWfFrom (a + 1) m = true := by
  simp only [memWfFrom, Bool.and_eq_true, decide_eq_true_eq, bne_iff_ne, and_assoc]

theorem memWfFrom_mono {lo lo' : Nat} (h : lo' ≤ lo) {m : Memory} (hm : memWfFrom lo m = true) :
    memWfFrom lo' m = true := by
  cases m with
  | nil => rfl
  | cons c m =>
    obtain ⟨a, b⟩ := c
    rw [memWfFrom_cons] at hm ⊢
    exact ⟨by omega, hm.2⟩

/-- Below its first address a memory in canonical form reads as unlisted. -/
theorem readByte_of_lt {lo : Nat} {m : Memory} (hm : memWfFrom lo m = true) {a : Nat} (ha : a < lo) :
    readByte m a = unlistedByte := by
  induction m generalizing lo with
  | nil => rfl
  | cons c m ih =>
    obtain ⟨a', b⟩ := c
    rw [memWfFrom_cons] at hm
    have hne : a ≠ a' := by omega
    simp [readByte, hne, ih hm.2.2.2 (by omega)]

/-- A byte write keeps the canonical form. -/
theorem memWfFrom_writeByte {lo : Nat} {m : Memory} (hm : memWfFrom lo m = true) {a : Nat} (hlo : lo ≤ a)
    (ha : a < 2 ^ 32) (v : Byte) : memWfFrom lo (writeByte m a v) = true := by
  induction m generalizing lo with
  | nil =>
    unfold writeByte
    split
    · rfl
    · exact memWfFrom_cons.2 ⟨hlo, ha, ‹_›, rfl⟩
  | cons c m ih =>
    obtain ⟨a', b⟩ := c
    obtain ⟨h1, h2, h3, h4⟩ := memWfFrom_cons.1 hm
    unfold writeByte
    split
    · split
      · exact memWfFrom_cons.2 ⟨h1, h2, h3, h4⟩
      · exact memWfFrom_cons.2 ⟨hlo, ha, ‹_›, memWfFrom_cons.2 ⟨‹a < a'›, h2, h3, h4⟩⟩
    · split
      · subst_vars
        split
        · exact memWfFrom_mono (by omega) h4
        · exact memWfFrom_cons.2 ⟨h1, h2, ‹_›, h4⟩
      · exact memWfFrom_cons.2 ⟨h1, h2, h3, ih h4 (by omega)⟩

/-- The written byte reads back. -/
theorem readByte_writeByte_self {lo : Nat} {m : Memory} (hm : memWfFrom lo m = true) (a : Nat) (v : Byte) :
    readByte (writeByte m a v) a = v := by
  induction m generalizing lo with
  | nil =>
    unfold writeByte
    split <;> simp_all [readByte]
  | cons c m ih =>
    obtain ⟨a', b⟩ := c
    obtain ⟨-, h2, h3, h4⟩ := memWfFrom_cons.1 hm
    unfold writeByte
    split
    · split
      · rw [readByte_of_lt (lo := a') (memWfFrom_cons.2 ⟨Nat.le_refl a', h2, h3, h4⟩) ‹_›]
        exact ‹v = _›.symm
      · simp [readByte]
    · split
      · split
        · subst_vars; exact readByte_of_lt h4 (by omega)
        · simp [readByte]
      · have : a ≠ a' := ‹_›
        simp [readByte, this, ih h4]

/-- A byte write leaves every other byte. -/
theorem readByte_writeByte_ne {lo : Nat} {m : Memory} (hm : memWfFrom lo m = true) {a a₁ : Nat} (h : a₁ ≠ a) (v : Byte) :
    readByte (writeByte m a v) a₁ = readByte m a₁ := by
  induction m generalizing lo with
  | nil =>
    unfold writeByte
    split <;> simp [readByte, h]
  | cons c m ih =>
    obtain ⟨a', b⟩ := c
    obtain ⟨-, -, -, h4⟩ := memWfFrom_cons.1 hm
    unfold writeByte
    split
    · split <;> simp [readByte, h]
    · split
      · subst_vars
        split <;> simp [readByte, h]
      · by_cases h1 : a₁ = a' <;> simp [readByte, h1, ih h4]

theorem byteAddr_lt (bigend : Bool) (addr : Word) (n k : Nat) : byteAddr bigend addr n k < 2 ^ 32 :=
  BitVec.isLt _

/-- A store keeps the canonical form. -/
theorem wf_writeBytes {bigend : Bool} {addr : Word} {n : Nat} {v : DWord} {m : Memory} (hm : Memory.wf m = true)
    (k : Nat) : Memory.wf (writeBytes bigend addr n v m k) = true := by
  induction k with
  | zero => exact hm
  | succ k ih => exact memWfFrom_writeByte ih (Nat.zero_le _) (byteAddr_lt _ _ _ _) _

theorem wf_memWrite {s : State} (hm : Memory.wf s.mem = true) (addr : Word) (n : Nat) (v : DWord) :
    Memory.wf (s.memWrite addr n v).mem = true :=
  wf_writeBytes hm n

theorem wf_reset : Memory.wf State.reset.mem = true := rfl

/-- The addresses of an access of at most 8 bytes are distinct. -/
theorem byteAddr_injective {bigend : Bool} {addr : Word} {n j k : Nat} (hn : n ≤ 8) (hj : j < n) (hk : k < n)
    (h : byteAddr bigend addr n j = byteAddr bigend addr n k) : j = k := by
  unfold byteAddr at h
  have h2 := congrArg BitVec.toNat ((BitVec.add_right_inj addr).1 (BitVec.eq_of_toNat_eq h))
  simp only [BitVec.toNat_ofNat] at h2
  split at h2 <;> omega

/-- A store leaves every byte outside its own. -/
theorem readByte_writeBytes_ne {bigend : Bool} {addr : Word} {n : Nat} {v : DWord} {m : Memory}
    (hm : Memory.wf m = true) {k a : Nat} (h : ∀ j, j < k → a ≠ byteAddr bigend addr n j) :
    readByte (writeBytes bigend addr n v m k) a = readByte m a := by
  induction k with
  | zero => rfl
  | succ k ih =>
    show readByte (writeByte _ _ _) a = _
    rw [readByte_writeByte_ne (wf_writeBytes hm k) (h k (by omega)), ih fun j hj => h j (by omega)]

/-- A store writes byte `k` of the value to the k-th address of the access. -/
theorem readByte_writeBytes {bigend : Bool} {addr : Word} {n : Nat} {v : DWord} {m : Memory}
    (hm : Memory.wf m = true) (hn : n ≤ 8) {i k : Nat} (hi : i ≤ n) (hk : k < i) :
    readByte (writeBytes bigend addr n v m i) (byteAddr bigend addr n k) = field 8 k v := by
  induction i with
  | zero => omega
  | succ i ih =>
    show readByte (writeByte _ _ _) _ = _
    by_cases h : k = i
    · subst h; exact readByte_writeByte_self (wf_writeBytes hm _) _ _
    · rw [readByte_writeByte_ne (wf_writeBytes hm i)
        (fun h2 => h (byteAddr_injective hn (by omega) (by omega) h2)), ih (by omega) (by omega)]

theorem readByte_memWrite {s : State} (hm : Memory.wf s.mem = true) {addr : Word} {n : Nat} (hn : n ≤ 8) (v : DWord)
    {k : Nat} (hk : k < n) :
    readByte (s.memWrite addr n v).mem (byteAddr s.bigend addr n k) = field 8 k v :=
  readByte_writeBytes hm hn (Nat.le_refl n) hk

theorem readByte_memWrite_ne {s : State} (hm : Memory.wf s.mem = true) {addr : Word} {n : Nat} (v : DWord)
    {a : Nat} (h : ∀ k, k < n → a ≠ byteAddr s.bigend addr n k) :
    readByte (s.memWrite addr n v).mem a = readByte s.mem a :=
  readByte_writeBytes_ne hm h

/-- Byte `k` of a loaded value. -/
theorem field_memRead (s : State) (addr : Word) {n k : Nat} (hn : n ≤ 8) (hk : k < n) :
    field 8 k (s.memRead addr n) = readByte s.mem (byteAddr s.bigend addr n k) :=
  field_placeFields (by omega) _ (by omega) hk

/-- A loaded value is zero-extended. -/
theorem field_memRead_of_ge (s : State) (addr : Word) {n k : Nat} (hk : n ≤ k) :
    field 8 k (s.memRead addr n) = 0 :=
  field_placeFields_of_ge (by omega) _ hk

end Sys2Proof.Machine
end

