-- ==== Sys2Proof/Laws/PerInstr.lean ====
section
/-! SUPPORT. A statement for every constructor of `Instr`: its word lies in the space of coprocessors 0 and 1
(spec/30_encoding.md R91). -/

namespace Sys2Proof.Laws.InCoprocessorSpace

/-- The word of the instruction is a WMMX2 word (R91). -/
def Statement (i : Instr) : Prop := isWmmxWord (fieldsOf (encode i)) = true

/-- The slices of the word decide. -/
theorem of_fields {i : Instr} (h : isWmmxWord (encodeFields i) = true) : Statement i := by
  rw [Statement, encode, fieldsOf_assemble, h]

theorem tandc (c : Cond) (sz : Bhw) : Statement (.tandc c sz) := of_fields rfl
theorem tbcst (c : Cond) (sz : Bhw) (d : DReg) (rn : CoreReg) : Statement (.tbcst c sz d rn) := of_fields rfl
theorem textrc (c : Cond) (sz : Bhw) (imm : BitVec 3) : Statement (.textrc c sz imm) := of_fields rfl
theorem textrm (c : Cond) (sg : Sign) (sz : Bhw) (rd : CoreReg) (n : DReg) (imm : BitVec 3) :
    Statement (.textrm c sg sz rd n imm) := of_fields rfl
theorem tinsr (c : Cond) (sz : Bhw) (d : DReg) (rn : CoreReg) (imm : BitVec 3) : Statement (.tinsr c sz d rn imm) := of_fields rfl
theorem tmcr (c : Cond) (cx : CtrlReg) (rn : CoreReg) : Statement (.tmcr c cx rn) := of_fields rfl
theorem tmcrr (c : Cond) (d : DReg) (rdLo rdHi : CoreReg) : Statement (.tmcrr c d rdLo rdHi) := of_fields rfl
theorem tmia (c : Cond) (d : DReg) (rm rs : CoreReg) : Statement (.tmia c d rm rs) := of_fields rfl
theorem tmiaph (c : Cond) (d : DReg) (rm rs : CoreReg) : Statement (.tmiaph c d rm rs) := of_fields rfl
theorem tmiaxy (c : Cond) (x y : Half) (d : DReg) (rm rs : CoreReg) : Statement (.tmiaxy c x y d rm rs) := of_fields rfl
theorem tmovmsk (c : Cond) (sz : Bhw) (rd : CoreReg) (n : DReg) : Statement (.tmovmsk c sz rd n) := of_fields rfl
theorem tmrc (c : Cond) (rd : CoreReg) (cx : CtrlReg) : Statement (.tmrc c rd cx) := of_fields rfl
theorem tmrrc (c : Cond) (rdLo rdHi : CoreReg) (n : DReg) : Statement (.tmrrc c rdLo rdHi n) := of_fields rfl
theorem torc (c : Cond) (sz : Bhw) : Statement (.torc c sz) := of_fields rfl
theorem torvsc (c : Cond) (sz : Bhw) : Statement (.torvsc c sz) := of_fields rfl
theorem wor (c : Cond) (d n m : DReg) : Statement (.wor c d n m) := of_fields rfl
theorem wxor (c : Cond) (d n m : DReg) : Statement (.wxor c d n m) := of_fields rfl
theorem wand (c : Cond) (d n m : DReg) : Statement (.wand c d n m) := of_fields rfl
theorem wandn (c : Cond) (d n m : DReg) : Statement (.wandn c d n m) := of_fields rfl
theorem wavg4 (c : Cond) (r : Bool) (d n m : DReg) : Statement (.wavg4 c r d n m) := of_fields rfl
theorem wavg2 (c : Cond) (sz : Bh) (r : Bool) (d n m : DReg) : Statement (.wavg2 c sz r d n m) := of_fields rfl
theorem waligni (c : Cond) (d n m : DReg) (imm : BitVec 3) : Statement (.waligni c d n m imm) := of_fields rfl
theorem walignr (c : Cond) (k : CgrIndex) (d n m : DReg) : Statement (.walignr c k d n m) := of_fields rfl
theorem wsra (c : Cond) (sz : Hwd) (d n m : DReg) : Statement (.wsra c sz d n m) := of_fields rfl
theorem wsraG (c : Cond) (sz : Hwd) (d n : DReg) (k : CgrIndex) : Statement (.wsraG c sz d n k) := of_fields rfl
theorem wsraI (sz : Hwd) (d n : DReg) (imm : BitVec 5) : Statement (.wsraI sz d n imm) := of_fields rfl
theorem wsll (c : Cond) (sz : Hwd) (d n m : DReg) : Statement (.wsll c sz d n m) := of_fields rfl
theorem wsllG (c : Cond) (sz : Hwd) (d n : DReg) (k : CgrIndex) : Statement (.wsllG c sz d n k) := of_fields rfl
theorem wsllI (sz : Hwd) (d n : DReg) (imm : BitVec 5) : Statement (.wsllI sz d n imm) := of_fields rfl
theorem wsrl (c : Cond) (sz : Hwd) (d n m : DReg) : Statement (.wsrl c sz d n m) := of_fields rfl
theorem wsrlG (c : Cond) (sz : Hwd) (d n : DReg) (k : CgrIndex) : Statement (.wsrlG c sz d n k) := of_fields rfl
theorem wsrlI (sz : Hwd) (d n : DReg) (imm : BitVec 5) : Statement (.wsrlI sz d n imm) := of_fields rfl
theorem wror (c : Cond) (sz : Hwd) (d n m : DReg) : Statement (.wror c sz d n m) := of_fields rfl
theorem wrorG (c : Cond) (sz : Hwd) (d n : DReg) (k : CgrIndex) : Statement (.wrorG c sz d n k) := of_fields rfl
theorem wrorI (sz : Hwd) (d n : DReg) (imm : BitVec 5) : Statement (.wrorI sz d n imm) := of_fields rfl
theorem wcmpeq (c : Cond) (sz : Bhw) (d n m : DReg) : Statement (.wcmpeq c sz d n m) := of_fields rfl
theorem wcmpgt (c : Cond) (sg : Sign) (sz : Bhw) (d n m : DReg) : Statement (.wcmpgt c sg sz d n m) := of_fields rfl
theorem wmerge (c : Cond) (d n m : DReg) (imm : BitVec 3) : Statement (.wmerge c d n m imm) := of_fields rfl
theorem wqmulm (c : Cond) (r : Bool) (d n m : DReg) : Statement (.wqmulm c r d n m) := of_fields rfl
theorem wpack (c : Cond) (sz : Hwd) (k : PackKind) (d n m : DReg) : Statement (.wpack c sz k d n m) := of_fields rfl
theorem wmiaxy (c : Cond) (neg : Bool) (x y : Half) (d n m : DReg) : Statement (.wmiaxy c neg x y d n m) := of_fields rfl
theorem wqmiaxy (c : Cond) (neg : Bool) (x y : Half) (d n m : DReg) : Statement (.wqmiaxy c neg x y d n m) := of_fields rfl
theorem wunpckeh (c : Cond) (sg : Sign) (sz : Bhw) (d n : DReg) : Statement (.wunpckeh c sg sz d n) := of_fields rfl
theorem wunpckih (c : Cond) (sz : Bhw) (d n m : DReg) : Statement (.wunpckih c sz d n m) := of_fields rfl
theorem wmulw (c : Cond) (k : MulwKind) (d n m : DReg) : Statement (.wmulw c k d n m) := of_fields rfl
theorem wunpckel (c : Cond) (sg : Sign) (sz : Bhw) (d n : DReg) : Statement (.wunpckel c sg sz d n) := of_fields rfl
theorem wunpckil (c : Cond) (sz : Bhw) (d n m : DReg) : Statement (.wunpckil c sz d n m) := of_fields rfl
theorem wqmulwm (c : Cond) (r : Bool) (d n m : DReg) : Statement (.wqmulwm c r d n m) := of_fields rfl
theorem wmul (c : Cond) (k : MulKind) (d n m : DReg) : Statement (.wmul c k d n m) := of_fields rfl
theorem wmac (c : Cond) (sg : Sign) (z : Bool) (d n m : DReg) : Statement (.wmac c sg z d n m) := of_fields rfl
theorem wmadd (c : Cond) (sg : Sign) (k : MaddKind) (d n m : DReg) : Statement (.wmadd c sg k d n m) := of_fields rfl
theorem wsad (c : Cond) (sz : Bh) (z : Bool) (d n m : DReg) : Statement (.wsad c sz z d n m) := of_fields rfl
theorem wmiawxy (c : Cond) (neg : Bool) (x y : Half) (d n m : DReg) : Statement (.wmiawxy c neg x y d n m) := of_fields rfl
theorem wmax (c : Cond) (sg : Sign) (sz : Bhw) (d n m : DReg) : Statement (.wmax c sg sz d n m) := of_fields rfl
theorem wmin (c : Cond) (sg : Sign) (sz : Bhw) (d n m : DReg) : Statement (.wmin c sg sz d n m) := of_fields rfl
theorem wadd (c : Cond) (sz : Bhw) (k : AddKind) (d n m : DReg) : Statement (.wadd c sz k d n m) := of_fields rfl
theorem wsub (c : Cond) (sz : Bhw) (k : SubKind) (d n m : DReg) : Statement (.wsub c sz k d n m) := of_fields rfl
theorem waddsubhx (c : Cond) (d n m : DReg) : Statement (.waddsubhx c d n m) := of_fields rfl
theorem wacc (c : Cond) (sz : Bhw) (d n : DReg) : Statement (.wacc c sz d n) := of_fields rfl
theorem wabsdiff (c : Cond) (sz : Bhw) (d n m : DReg) : Statement (.wabsdiff c sz d n m) := of_fields rfl
theorem wabs (c : Cond) (sz : Bhw) (d n : DReg) : Statement (.wabs c sz d n) := of_fields rfl
theorem wsubaddhx (c : Cond) (d n m : DReg) : Statement (.wsubaddhx c d n m) := of_fields rfl
theorem wshufh (c : Cond) (d n : DReg) (imm : BitVec 8) : Statement (.wshufh c d n imm) := of_fields rfl
theorem wldr (c : Cond) (sz : Bhwd) (am : AddrMode) (d : DReg) (rn : CoreReg) (off : BitVec 8) :
    Statement (.wldr c sz am d rn off) := of_fields rfl
theorem wldrd (am : AddrMode) (d : DReg) (rn rm : CoreReg) (sh : BitVec 4) : Statement (.wldrd am d rn rm sh) := of_fields rfl
theorem wldrw (am : AddrMode) (cx : CtrlReg) (rn : CoreReg) (off : BitVec 8) : Statement (.wldrw am cx rn off) := of_fields rfl
theorem wstr (c : Cond) (sz : Bhwd) (am : AddrMode) (m : DReg) (rn : CoreReg) (off : BitVec 8) :
    Statement (.wstr c sz am m rn off) := of_fields rfl
theorem wstrd (am : AddrMode) (m : DReg) (rn rm : CoreReg) (sh : BitVec 4) : Statement (.wstrd am m rn rm sh) := of_fields rfl
theorem wstrw (am : AddrMode) (cx : CtrlReg) (rn : CoreReg) (off : BitVec 8) : Statement (.wstrw am cx rn off) := of_fields rfl
theorem wmov (c : Cond) (d n : DReg) : Statement (.wmov c d n) := of_fields rfl
theorem wzero (c : Cond) (d : DReg) : Statement (.wzero c d) := of_fields rfl

end Sys2Proof.Laws.InCoprocessorSpace
end

