-- ==== Sys2Proof/Laws/Results.lean ====
section
/-! SUPPORT. What an enabled conditional form that puts fields, flags and saturation bits answers, in the words of
Safety.lean: one lemma per shape of result. -/

namespace Sys2Proof.Machine

theorem bhwWidth_mem (sz : Bhw) : bhwWidth sz = 8 ∨ bhwWidth sz = 16 ∨ bhwWidth sz = 32 ∨ bhwWidth sz = 64 := by
  cases sz <;> simp [bhwWidth]

theorem bhwWidth_pos (sz : Bhw) : 0 < bhwWidth sz := by cases sz <;> simp [bhwWidth]

theorem bhWidth_mem (sz : Bh) : bhWidth sz = 8 ∨ bhWidth sz = 16 ∨ bhWidth sz = 32 ∨ bhWidth sz = 64 := by
  cases sz <;> simp [bhWidth]

theorem bhWidth_pos (sz : Bh) : 0 < bhWidth sz := by cases sz <;> simp [bhWidth]

theorem hwdWidth_mem (sz : Hwd) : hwdWidth sz = 8 ∨ hwdWidth sz = 16 ∨ hwdWidth sz = 32 ∨ hwdWidth sz = 64 := by
  cases sz <;> simp [hwdWidth]

theorem hwdWidth_pos (sz : Hwd) : 0 < hwdWidth sz := by cases sz <;> simp [hwdWidth]

theorem nzFlags_eq {w : Nat} (r : BitVec w) : nzFlags r = nzOf r := rfl

theorem zFlags_eq {w : Nat} (r : BitVec w) : zFlags r = zOf r := rfl

/-- Fields that agree below `64 / w` are the fields of the built vector. -/
theorem isFields_fromFields {w : Nat} (hw : 0 < w) {f g : Nat → BitVec w} (h : ∀ i, i < 64 / w → f i = g i) :
    IsFields w (fromFields w f) g :=
  fun i hi => (field_fromFields hw f hi).trans (h i hi)

theorem isFlags_casfOf {w : Nat} (hw : w = 8 ∨ w = 16 ∨ w = 32 ∨ w = 64) {f g : Nat → BitVec 4}
    (h : ∀ i, i < 64 / w → f i = g i) : IsFlags w (casfOf w f) g :=
  ⟨fun i hi => ((casfOf_nibbles w hw f).1 i hi).trans (h i hi), (casfOf_nibbles w hw f).2⟩

theorem isSat_cssfOf {w : Nat} (hw : w = 8 ∨ w = 16 ∨ w = 32 ∨ w = 64) {f g : Nat → Bool}
    (h : ∀ i, i < 64 / w → f i = g i) : IsSat w (cssfOf w f) g :=
  ⟨fun i hi => ((cssfOf_bits w hw f).1 i hi).trans (h i hi), (cssfOf_bits w hw f).2⟩

/-- An enabled form without flags. -/
theorem putsFields_conditional {c : Cond} {i : Instr} {s : State} {d : DReg} {w : Nat} (hw : 0 < w)
    {f g : Nat → BitVec w} (he : Enabled c s) (h : ∀ i, i < 64 / w → f i = g i) :
    PutsFields (conditional c i s (complete (s.putFields w d f))) s d w g :=
  ⟨fromFields w f, isFields_fromFields hw h, conditional_ok he.1 he.2⟩

/-- An enabled form with flags in wCASF. -/
theorem putsFlagged_conditional {c : Cond} {i : Instr} {s : State} {d : DReg} {w : Nat} (hp : 0 < w)
    (hw : w = 8 ∨ w = 16 ∨ w = 32 ∨ w = 64) {f g : Nat → BitVec w} {a b : Nat → BitVec 4} (he : Enabled c s)
    (h : ∀ i, i < 64 / w → f i = g i) (h2 : ∀ i, i < 64 / w → a i = b i) :
    PutsFlagged (conditional c i s (complete (s.putFieldsWith w d f a))) s d w g b :=
  ⟨fromFields w f, casfOf w a, isFields_fromFields hp h, isFlags_casfOf hw h2, conditional_ok he.1 he.2⟩

/-- An enabled form with flags in wCASF and saturation bits. -/
theorem putsSaturated_conditional {c : Cond} {i : Instr} {s : State} {d : DReg} {w : Nat} (hp : 0 < w)
    (hw : w = 8 ∨ w = 16 ∨ w = 32 ∨ w = 64) {f g : Nat → BitVec w} {a b : Nat → BitVec 4} {x y : Nat → Bool}
    (he : Enabled c s) (h : ∀ i, i < 64 / w → f i = g i) (h2 : ∀ i, i < 64 / w → a i = b i)
    (h3 : ∀ i, i < 64 / w → x i = y i) :
    PutsSaturated (conditional c i s (complete ((s.putFieldsWith w d f a).orCssf (cssfOf w x)))) s d w g b y :=
  ⟨fromFields w f, casfOf w a, cssfOf w x, isFields_fromFields hp h, isFlags_casfOf hw h2, isSat_cssfOf hw h3,
    conditional_ok he.1 he.2⟩

end Sys2Proof.Machine
end

