-- ==== Sys2Proof/Laws/State.lean ====
section
/-! SUPPORT. One lemma per field of the state for each update of Machine/Ops.lean, so that no later proof unfolds a
record update. -/

namespace Sys2Proof.Machine

/-! ### writeWR -/

@[simp] theorem writeWR_wR (s : State) (d : DReg) (v : DWord) : (s.writeWR d v).wR = s.wR.set d v := rfl
@[simp] theorem writeWR_wcid (s : State) (d : DReg) (v : DWord) : (s.writeWR d v).wcid = s.wcid := rfl
@[simp] theorem writeWR_mup (s : State) (d : DReg) (v : DWord) : (s.writeWR d v).mup = true := rfl
@[simp] theorem writeWR_cup (s : State) (d : DReg) (v : DWord) : (s.writeWR d v).cup = s.cup := rfl
@[simp] theorem writeWR_cssf (s : State) (d : DReg) (v : DWord) : (s.writeWR d v).cssf = s.cssf := rfl
@[simp] theorem writeWR_casf (s : State) (d : DReg) (v : DWord) : (s.writeWR d v).casf = s.casf := rfl
@[simp] theorem writeWR_cgr (s : State) (d : DReg) (v : DWord) : (s.writeWR d v).cgr = s.cgr := rfl
@[simp] theorem writeWR_x (s : State) (d : DReg) (v : DWord) : (s.writeWR d v).x = s.x := rfl
@[simp] theorem writeWR_pc (s : State) (d : DReg) (v : DWord) : (s.writeWR d v).pc = s.pc := rfl
@[simp] theorem writeWR_nzcv (s : State) (d : DReg) (v : DWord) : (s.writeWR d v).nzcv = s.nzcv := rfl
@[simp] theorem writeWR_cpar (s : State) (d : DReg) (v : DWord) : (s.writeWR d v).cpar = s.cpar := rfl
@[simp] theorem writeWR_bigend (s : State) (d : DReg) (v : DWord) : (s.writeWR d v).bigend = s.bigend := rfl
@[simp] theorem writeWR_alignTrap (s : State) (d : DReg) (v : DWord) : (s.writeWR d v).alignTrap = s.alignTrap := rfl
@[simp] theorem writeWR_mem (s : State) (d : DReg) (v : DWord) : (s.writeWR d v).mem = s.mem := rfl
@[simp] theorem writeWR_denied (s : State) (d : DReg) (v : DWord) : (s.writeWR d v).denied = s.denied := rfl
@[simp] theorem writeWR_code (s : State) (d : DReg) (v : DWord) : (s.writeWR d v).code = s.code := rfl
@[simp] theorem writeWR_draws (s : State) (d : DReg) (v : DWord) : (s.writeWR d v).draws = s.draws := rfl

/-! ### writeX -/

@[simp] theorem writeX_wR (s : State) (r : CoreReg) (v : Word) : (s.writeX r v).wR = s.wR := rfl
@[simp] theorem writeX_wcid (s : State) (r : CoreReg) (v : Word) : (s.writeX r v).wcid = s.wcid := rfl
@[simp] theorem writeX_mup (s : State) (r : CoreReg) (v : Word) : (s.writeX r v).mup = s.mup := rfl
@[simp] theorem writeX_cup (s : State) (r : CoreReg) (v : Word) : (s.writeX r v).cup = s.cup := rfl
@[simp] theorem writeX_cssf (s : State) (r : CoreReg) (v : Word) : (s.writeX r v).cssf = s.cssf := rfl
@[simp] theorem writeX_casf (s : State) (r : CoreReg) (v : Word) : (s.writeX r v).casf = s.casf := rfl
@[simp] theorem writeX_cgr (s : State) (r : CoreReg) (v : Word) : (s.writeX r v).cgr = s.cgr := rfl
@[simp] theorem writeX_x (s : State) (r : CoreReg) (v : Word) : (s.writeX r v).x = s.x.set r v := rfl
@[simp] theorem writeX_pc (s : State) (r : CoreReg) (v : Word) : (s.writeX r v).pc = s.pc := rfl
@[simp] theorem writeX_nzcv (s : State) (r : CoreReg) (v : Word) : (s.writeX r v).nzcv = s.nzcv := rfl
@[simp] theorem writeX_cpar (s : State) (r : CoreReg) (v : Word) : (s.writeX r v).cpar = s.cpar := rfl
@[simp] theorem writeX_bigend (s : State) (r : CoreReg) (v : Word) : (s.writeX r v).bigend = s.bigend := rfl
@[simp] theorem writeX_alignTrap (s : State) (r : CoreReg) (v : Word) : (s.writeX r v).alignTrap = s.alignTrap := rfl
@[simp] theorem writeX_mem (s : State) (r : CoreReg) (v : Word) : (s.writeX r v).mem = s.mem := rfl
@[simp] theorem writeX_denied (s : State) (r : CoreReg) (v : Word) : (s.writeX r v).denied = s.denied := rfl
@[simp] theorem writeX_code (s : State) (r : CoreReg) (v : Word) : (s.writeX r v).code = s.code := rfl
@[simp] theorem writeX_draws (s : State) (r : CoreReg) (v : Word) : (s.writeX r v).draws = s.draws := rfl

/-! ### writeNzcv -/

@[simp] theorem writeNzcv_wR (s : State) (v : BitVec 4) : (s.writeNzcv v).wR = s.wR := rfl
@[simp] theorem writeNzcv_wcid (s : State) (v : BitVec 4) : (s.writeNzcv v).wcid = s.wcid := rfl
@[simp] theorem writeNzcv_mup (s : State) (v : BitVec 4) : (s.writeNzcv v).mup = s.mup := rfl
@[simp] theorem writeNzcv_cup (s : State) (v : BitVec 4) : (s.writeNzcv v).cup = s.cup := rfl
@[simp] theorem writeNzcv_cssf (s : State) (v : BitVec 4) : (s.writeNzcv v).cssf = s.cssf := rfl
@[simp] theorem writeNzcv_casf (s : State) (v : BitVec 4) : (s.writeNzcv v).casf = s.casf := rfl
@[simp] theorem writeNzcv_cgr (s : State) (v : BitVec 4) : (s.writeNzcv v).cgr = s.cgr := rfl
@[simp] theorem writeNzcv_x (s : State) (v : BitVec 4) : (s.writeNzcv v).x = s.x := rfl
@[simp] theorem writeNzcv_pc (s : State) (v : BitVec 4) : (s.writeNzcv v).pc = s.pc := rfl
@[simp] theorem writeNzcv_nzcv (s : State) (v : BitVec 4) : (s.writeNzcv v).nzcv = v := rfl
@[simp] theorem writeNzcv_cpar (s : State) (v : BitVec 4) : (s.writeNzcv v).cpar = s.cpar := rfl
@[simp] theorem writeNzcv_bigend (s : State) (v : BitVec 4) : (s.writeNzcv v).bigend = s.bigend := rfl
@[simp] theorem writeNzcv_alignTrap (s : State) (v : BitVec 4) : (s.writeNzcv v).alignTrap = s.alignTrap := rfl
@[simp] theorem writeNzcv_mem (s : State) (v : BitVec 4) : (s.writeNzcv v).mem = s.mem := rfl
@[simp] theorem writeNzcv_denied (s : State) (v : BitVec 4) : (s.writeNzcv v).denied = s.denied := rfl
@[simp] theorem writeNzcv_code (s : State) (v : BitVec 4) : (s.writeNzcv v).code = s.code := rfl
@[simp] theorem writeNzcv_draws (s : State) (v : BitVec 4) : (s.writeNzcv v).draws = s.draws := rfl

/-! ### setCasf -/

@[simp] theorem setCasf_wR (s : State) (v : Word) : (s.setCasf v).wR = s.wR := rfl
@[simp] theorem setCasf_wcid (s : State) (v : Word) : (s.setCasf v).wcid = s.wcid := rfl
@[simp] theorem setCasf_mup (s : State) (v : Word) : (s.setCasf v).mup = s.mup := rfl
@[simp] theorem setCasf_cup (s : State) (v : Word) : (s.setCasf v).cup = true := rfl
@[simp] theorem setCasf_cssf (s : State) (v : Word) : (s.setCasf v).cssf = s.cssf := rfl
@[simp] theorem setCasf_casf (s : State) (v : Word) : (s.setCasf v).casf = v := rfl
@[simp] theorem setCasf_cgr (s : State) (v : Word) : (s.setCasf v).cgr = s.cgr := rfl
@[simp] theorem setCasf_x (s : State) (v : Word) : (s.setCasf v).x = s.x := rfl
@[simp] theorem setCasf_pc (s : State) (v : Word) : (s.setCasf v).pc = s.pc := rfl
@[simp] theorem setCasf_nzcv (s : State) (v : Word) : (s.setCasf v).nzcv = s.nzcv := rfl
@[simp] theorem setCasf_cpar (s : State) (v : Word) : (s.setCasf v).cpar = s.cpar := rfl
@[simp] theorem setCasf_bigend (s : State) (v : Word) : (s.setCasf v).bigend = s.bigend := rfl
@[simp] theorem setCasf_alignTrap (s : State) (v : Word) : (s.setCasf v).alignTrap = s.alignTrap := rfl
@[simp] theorem setCasf_mem (s : State) (v : Word) : (s.setCasf v).mem = s.mem := rfl
@[simp] theorem setCasf_denied (s : State) (v : Word) : (s.setCasf v).denied = s.denied := rfl
@[simp] theorem setCasf_code (s : State) (v : Word) : (s.setCasf v).code = s.code := rfl
@[simp] theorem setCasf_draws (s : State) (v : Word) : (s.setCasf v).draws = s.draws := rfl

/-! ### orCssf -/

@[simp] theorem orCssf_wR (s : State) (b : BitVec 8) : (s.orCssf b).wR = s.wR := rfl
@[simp] theorem orCssf_wcid (s : State) (b : BitVec 8) : (s.orCssf b).wcid = s.wcid := rfl
@[simp] theorem orCssf_mup (s : State) (b : BitVec 8) : (s.orCssf b).mup = s.mup := rfl
@[simp] theorem orCssf_cup (s : State) (b : BitVec 8) : (s.orCssf b).cup = true := rfl
@[simp] theorem orCssf_cssf (s : State) (b : BitVec 8) : (s.orCssf b).cssf = s.cssf ||| b := rfl
@[simp] theorem orCssf_casf (s : State) (b : BitVec 8) : (s.orCssf b).casf = s.casf := rfl
@[simp] theorem orCssf_cgr (s : State) (b : BitVec 8) : (s.orCssf b).cgr = s.cgr := rfl
@[simp] theorem orCssf_x (s : State) (b : BitVec 8) : (s.orCssf b).x = s.x := rfl
@[simp] theorem orCssf_pc (s : State) (b : BitVec 8) : (s.orCssf b).pc = s.pc := rfl
@[simp] theorem orCssf_nzcv (s : State) (b : BitVec 8) : (s.orCssf b).nzcv = s.nzcv := rfl
@[simp] theorem orCssf_cpar (s : State) (b : BitVec 8) : (s.orCssf b).cpar = s.cpar := rfl
@[simp] theorem orCssf_bigend (s : State) (b : BitVec 8) : (s.orCssf b).bigend = s.bigend := rfl
@[simp] theorem orCssf_alignTrap (s : State) (b : BitVec 8) : (s.orCssf b).alignTrap = s.alignTrap := rfl
@[simp] theorem orCssf_mem (s : State) (b : BitVec 8) : (s.orCssf b).mem = s.mem := rfl
@[simp] theorem orCssf_denied (s : State) (b : BitVec 8) : (s.orCssf b).denied = s.denied := rfl
@[simp] theorem orCssf_code (s : State) (b : BitVec 8) : (s.orCssf b).code = s.code := rfl
@[simp] theorem orCssf_draws (s : State) (b : BitVec 8) : (s.orCssf b).draws = s.draws := rfl

/-! ### advance -/

@[simp] theorem advance_wR (s : State) : (s.advance).wR = s.wR := rfl
@[simp] theorem advance_wcid (s : State) : (s.advance).wcid = s.wcid := rfl
@[simp] theorem advance_mup (s : State) : (s.advance).mup = s.mup := rfl
@[simp] theorem advance_cup (s : State) : (s.advance).cup = s.cup := rfl
@[simp] theorem advance_cssf (s : State) : (s.advance).cssf = s.cssf := rfl
@[simp] theorem advance_casf (s : State) : (s.advance).casf = s.casf := rfl
@[simp] theorem advance_cgr (s : State) : (s.advance).cgr = s.cgr := rfl
@[simp] theorem advance_x (s : State) : (s.advance).x = s.x := rfl
@[simp] theorem advance_pc (s : State) : (s.advance).pc = s.pc + 4 := rfl
@[simp] theorem advance_nzcv (s : State) : (s.advance).nzcv = s.nzcv := rfl
@[simp] theorem advance_cpar (s : State) : (s.advance).cpar = s.cpar := rfl
@[simp] theorem advance_bigend (s : State) : (s.advance).bigend = s.bigend := rfl
@[simp] theorem advance_alignTrap (s : State) : (s.advance).alignTrap = s.alignTrap := rfl
@[simp] theorem advance_mem (s : State) : (s.advance).mem = s.mem := rfl
@[simp] theorem advance_denied (s : State) : (s.advance).denied = s.denied := rfl
@[simp] theorem advance_code (s : State) : (s.advance).code = s.code := rfl
@[simp] theorem advance_draws (s : State) : (s.advance).draws = s.draws := rfl

/-! ### handWord -/

@[simp] theorem handWord_wR (s : State) (w : Word) : (s.handWord w).wR = s.wR := rfl
@[simp] theorem handWord_wcid (s : State) (w : Word) : (s.handWord w).wcid = s.wcid := rfl
@[simp] theorem handWord_mup (s : State) (w : Word) : (s.handWord w).mup = s.mup := rfl
@[simp] theorem handWord_cup (s : State) (w : Word) : (s.handWord w).cup = s.cup := rfl
@[simp] theorem handWord_cssf (s : State) (w : Word) : (s.handWord w).cssf = s.cssf := rfl
@[simp] theorem handWord_casf (s : State) (w : Word) : (s.handWord w).casf = s.casf := rfl
@[simp] theorem handWord_cgr (s : State) (w : Word) : (s.handWord w).cgr = s.cgr := rfl
@[simp] theorem handWord_x (s : State) (w : Word) : (s.handWord w).x = s.x := rfl
@[simp] theorem handWord_pc (s : State) (w : Word) : (s.handWord w).pc = s.pc := rfl
@[simp] theorem handWord_nzcv (s : State) (w : Word) : (s.handWord w).nzcv = s.nzcv := rfl
@[simp] theorem handWord_cpar (s : State) (w : Word) : (s.handWord w).cpar = s.cpar := rfl
@[simp] theorem handWord_bigend (s : State) (w : Word) : (s.handWord w).bigend = s.bigend := rfl
@[simp] theorem handWord_alignTrap (s : State) (w : Word) : (s.handWord w).alignTrap = s.alignTrap := rfl
@[simp] theorem handWord_mem (s : State) (w : Word) : (s.handWord w).mem = s.mem := rfl
@[simp] theorem handWord_denied (s : State) (w : Word) : (s.handWord w).denied = s.denied := rfl
@[simp] theorem handWord_code (s : State) (w : Word) : (s.handWord w).code = { addr := s.pc, word := w } :: s.code := rfl
@[simp] theorem handWord_draws (s : State) (w : Word) : (s.handWord w).draws = s.draws := rfl

/-! ### memWrite -/

@[simp] theorem memWrite_wR (s : State) (a : Word) (n : Nat) (v : DWord) : (s.memWrite a n v).wR = s.wR := rfl
@[simp] theorem memWrite_wcid (s : State) (a : Word) (n : Nat) (v : DWord) : (s.memWrite a n v).wcid = s.wcid := rfl
@[simp] theorem memWrite_mup (s : State) (a : Word) (n : Nat) (v : DWord) : (s.memWrite a n v).mup = s.mup := rfl
@[simp] theorem memWrite_cup (s : State) (a : Word) (n : Nat) (v : DWord) : (s.memWrite a n v).cup = s.cup := rfl
@[simp] theorem memWrite_cssf (s : State) (a : Word) (n : Nat) (v : DWord) : (s.memWrite a n v).cssf = s.cssf := rfl
@[simp] theorem memWrite_casf (s : State) (a : Word) (n : Nat) (v : DWord) : (s.memWrite a n v).casf = s.casf := rfl
@[simp] theorem memWrite_cgr (s : State) (a : Word) (n : Nat) (v : DWord) : (s.memWrite a n v).cgr = s.cgr := rfl
@[simp] theorem memWrite_x (s : State) (a : Word) (n : Nat) (v : DWord) : (s.memWrite a n v).x = s.x := rfl
@[simp] theorem memWrite_pc (s : State) (a : Word) (n : Nat) (v : DWord) : (s.memWrite a n v).pc = s.pc := rfl
@[simp] theorem memWrite_nzcv (s : State) (a : Word) (n : Nat) (v : DWord) : (s.memWrite a n v).nzcv = s.nzcv := rfl
@[simp] theorem memWrite_cpar (s : State) (a : Word) (n : Nat) (v : DWord) : (s.memWrite a n v).cpar = s.cpar := rfl
@[simp] theorem memWrite_bigend (s : State) (a : Word) (n : Nat) (v : DWord) : (s.memWrite a n v).bigend = s.bigend := rfl
@[simp] theorem memWrite_alignTrap (s : State) (a : Word) (n : Nat) (v : DWord) : (s.memWrite a n v).alignTrap = s.alignTrap := rfl
@[simp] theorem memWrite_mem (s : State) (a : Word) (n : Nat) (v : DWord) : (s.memWrite a n v).mem = writeBytes s.bigend a n v s.mem n := rfl
@[simp] theorem memWrite_denied (s : State) (a : Word) (n : Nat) (v : DWord) : (s.memWrite a n v).denied = s.denied := rfl
@[simp] theorem memWrite_code (s : State) (a : Word) (n : Nat) (v : DWord) : (s.memWrite a n v).code = s.code.filter (fun c => !overlaps a n c) := rfl
@[simp] theorem memWrite_draws (s : State) (a : Word) (n : Nat) (v : DWord) : (s.memWrite a n v).draws = s.draws := rfl

/-! ### orCssfOnly: the fields it leaves -/

@[simp] theorem orCssfOnly_wR (s : State) (b : BitVec 8) : (s.orCssfOnly b).wR = s.wR := by
  unfold State.orCssfOnly; split <;> rfl
@[simp] theorem orCssfOnly_wcid (s : State) (b : BitVec 8) : (s.orCssfOnly b).wcid = s.wcid := by
  unfold State.orCssfOnly; split <;> rfl
@[simp] theorem orCssfOnly_mup (s : State) (b : BitVec 8) : (s.orCssfOnly b).mup = s.mup := by
  unfold State.orCssfOnly; split <;> rfl
@[simp] theorem orCssfOnly_casf (s : State) (b : BitVec 8) : (s.orCssfOnly b).casf = s.casf := by
  unfold State.orCssfOnly; split <;> rfl
@[simp] theorem orCssfOnly_cgr (s : State) (b : BitVec 8) : (s.orCssfOnly b).cgr = s.cgr := by
  unfold State.orCssfOnly; split <;> rfl
@[simp] theorem orCssfOnly_x (s : State) (b : BitVec 8) : (s.orCssfOnly b).x = s.x := by
  unfold State.orCssfOnly; split <;> rfl
@[simp] theorem orCssfOnly_pc (s : State) (b : BitVec 8) : (s.orCssfOnly b).pc = s.pc := by
  unfold State.orCssfOnly; split <;> rfl
@[simp] theorem orCssfOnly_nzcv (s : State) (b : BitVec 8) : (s.orCssfOnly b).nzcv = s.nzcv := by
  unfold State.orCssfOnly; split <;> rfl
@[simp] theorem orCssfOnly_cpar (s : State) (b : BitVec 8) : (s.orCssfOnly b).cpar = s.cpar := by
  unfold State.orCssfOnly; split <;> rfl
@[simp] theorem orCssfOnly_bigend (s : State) (b : BitVec 8) : (s.orCssfOnly b).bigend = s.bigend := by
  unfold State.orCssfOnly; split <;> rfl
@[simp] theorem orCssfOnly_alignTrap (s : State) (b : BitVec 8) : (s.orCssfOnly b).alignTrap = s.alignTrap := by
  unfold State.orCssfOnly; split <;> rfl
@[simp] theorem orCssfOnly_mem (s : State) (b : BitVec 8) : (s.orCssfOnly b).mem = s.mem := by
  unfold State.orCssfOnly; split <;> rfl
@[simp] theorem orCssfOnly_denied (s : State) (b : BitVec 8) : (s.orCssfOnly b).denied = s.denied := by
  unfold State.orCssfOnly; split <;> rfl
@[simp] theorem orCssfOnly_code (s : State) (b : BitVec 8) : (s.orCssfOnly b).code = s.code := by
  unfold State.orCssfOnly; split <;> rfl

/-! ### afterReadCtrl: the fields it leaves -/

@[simp] theorem afterReadCtrl_wR (s : State) (cx : CtrlReg) : (s.afterReadCtrl cx).wR = s.wR := by
  cases cx <;> rfl
@[simp] theorem afterReadCtrl_wcid (s : State) (cx : CtrlReg) : (s.afterReadCtrl cx).wcid = s.wcid := by
  cases cx <;> rfl
@[simp] theorem afterReadCtrl_mup (s : State) (cx : CtrlReg) : (s.afterReadCtrl cx).mup = s.mup := by
  cases cx <;> rfl
@[simp] theorem afterReadCtrl_cup (s : State) (cx : CtrlReg) : (s.afterReadCtrl cx).cup = s.cup := by
  cases cx <;> rfl
@[simp] theorem afterReadCtrl_cssf (s : State) (cx : CtrlReg) : (s.afterReadCtrl cx).cssf = s.cssf := by
  cases cx <;> rfl
@[simp] theorem afterReadCtrl_casf (s : State) (cx : CtrlReg) : (s.afterReadCtrl cx).casf = s.casf := by
  cases cx <;> rfl
@[simp] theorem afterReadCtrl_cgr (s : State) (cx : CtrlReg) : (s.afterReadCtrl cx).cgr = s.cgr := by
  cases cx <;> rfl
@[simp] theorem afterReadCtrl_x (s : State) (cx : CtrlReg) : (s.afterReadCtrl cx).x = s.x := by
  cases cx <;> rfl
@[simp] theorem afterReadCtrl_pc (s : State) (cx : CtrlReg) : (s.afterReadCtrl cx).pc = s.pc := by
  cases cx <;> rfl
@[simp] theorem afterReadCtrl_nzcv (s : State) (cx : CtrlReg) : (s.afterReadCtrl cx).nzcv = s.nzcv := by
  cases cx <;> rfl
@[simp] theorem afterReadCtrl_cpar (s : State) (cx : CtrlReg) : (s.afterReadCtrl cx).cpar = s.cpar := by
  cases cx <;> rfl
@[simp] theorem afterReadCtrl_bigend (s : State) (cx : CtrlReg) : (s.afterReadCtrl cx).bigend = s.bigend := by
  cases cx <;> rfl
@[simp] theorem afterReadCtrl_alignTrap (s : State) (cx : CtrlReg) : (s.afterReadCtrl cx).alignTrap = s.alignTrap := by
  cases cx <;> rfl
@[simp] theorem afterReadCtrl_mem (s : State) (cx : CtrlReg) : (s.afterReadCtrl cx).mem = s.mem := by
  cases cx <;> rfl
@[simp] theorem afterReadCtrl_denied (s : State) (cx : CtrlReg) : (s.afterReadCtrl cx).denied = s.denied := by
  cases cx <;> rfl
@[simp] theorem afterReadCtrl_code (s : State) (cx : CtrlReg) : (s.afterReadCtrl cx).code = s.code := by
  cases cx <;> rfl

/-! ### writeCtrl: the fields it leaves -/

@[simp] theorem writeCtrl_wR (s : State) (cx : CtrlReg) (v : Word) : (s.writeCtrl cx v).wR = s.wR := by
  cases cx <;> rfl
@[simp] theorem writeCtrl_wcid (s : State) (cx : CtrlReg) (v : Word) : (s.writeCtrl cx v).wcid = s.wcid := by
  cases cx <;> rfl
@[simp] theorem writeCtrl_x (s : State) (cx : CtrlReg) (v : Word) : (s.writeCtrl cx v).x = s.x := by
  cases cx <;> rfl
@[simp] theorem writeCtrl_pc (s : State) (cx : CtrlReg) (v : Word) : (s.writeCtrl cx v).pc = s.pc := by
  cases cx <;> rfl
@[simp] theorem writeCtrl_nzcv (s : State) (cx : CtrlReg) (v : Word) : (s.writeCtrl cx v).nzcv = s.nzcv := by
  cases cx <;> rfl
@[simp] theorem writeCtrl_cpar (s : State) (cx : CtrlReg) (v : Word) : (s.writeCtrl cx v).cpar = s.cpar := by
  cases cx <;> rfl
@[simp] theorem writeCtrl_bigend (s : State) (cx : CtrlReg) (v : Word) : (s.writeCtrl cx v).bigend = s.bigend := by
  cases cx <;> rfl
@[simp] theorem writeCtrl_alignTrap (s : State) (cx : CtrlReg) (v : Word) : (s.writeCtrl cx v).alignTrap = s.alignTrap := by
  cases cx <;> rfl
@[simp] theorem writeCtrl_mem (s : State) (cx : CtrlReg) (v : Word) : (s.writeCtrl cx v).mem = s.mem := by
  cases cx <;> rfl
@[simp] theorem writeCtrl_denied (s : State) (cx : CtrlReg) (v : Word) : (s.writeCtrl cx v).denied = s.denied := by
  cases cx <;> rfl
@[simp] theorem writeCtrl_code (s : State) (cx : CtrlReg) (v : Word) : (s.writeCtrl cx v).code = s.code := by
  cases cx <;> rfl
@[simp] theorem writeCtrl_draws (s : State) (cx : CtrlReg) (v : Word) : (s.writeCtrl cx v).draws = s.draws := by
  cases cx <;> rfl

/-! ### writeBack: the fields it leaves -/

@[simp] theorem writeBack_wR (s : State) (am : AddrMode) (rn : CoreReg) (t : Word) : (s.writeBack am rn t).wR = s.wR := by
  unfold State.writeBack; split <;> rfl
@[simp] theorem writeBack_wcid (s : State) (am : AddrMode) (rn : CoreReg) (t : Word) : (s.writeBack am rn t).wcid = s.wcid := by
  unfold State.writeBack; split <;> rfl
@[simp] theorem writeBack_mup (s : State) (am : AddrMode) (rn : CoreReg) (t : Word) : (s.writeBack am rn t).mup = s.mup := by
  unfold State.writeBack; split <;> rfl
@[simp] theorem writeBack_cup (s : State) (am : AddrMode) (rn : CoreReg) (t : Word) : (s.writeBack am rn t).cup = s.cup := by
  unfold State.writeBack; split <;> rfl
@[simp] theorem writeBack_cssf (s : State) (am : AddrMode) (rn : CoreReg) (t : Word) : (s.writeBack am rn t).cssf = s.cssf := by
  unfold State.writeBack; split <;> rfl
@[simp] theorem writeBack_casf (s : State) (am : AddrMode) (rn : CoreReg) (t : Word) : (s.writeBack am rn t).casf = s.casf := by
  unfold State.writeBack; split <;> rfl
@[simp] theorem writeBack_cgr (s : State) (am : AddrMode) (rn : CoreReg) (t : Word) : (s.writeBack am rn t).cgr = s.cgr := by
  unfold State.writeBack; split <;> rfl
@[simp] theorem writeBack_pc (s : State) (am : AddrMode) (rn : CoreReg) (t : Word) : (s.writeBack am rn t).pc = s.pc := by
  unfold State.writeBack; split <;> rfl
@[simp] theorem writeBack_nzcv (s : State) (am : AddrMode) (rn : CoreReg) (t : Word) : (s.writeBack am rn t).nzcv = s.nzcv := by
  unfold State.writeBack; split <;> rfl
@[simp] theorem writeBack_cpar (s : State) (am : AddrMode) (rn : CoreReg) (t : Word) : (s.writeBack am rn t).cpar = s.cpar := by
  unfold State.writeBack; split <;> rfl
@[simp] theorem writeBack_bigend (s : State) (am : AddrMode) (rn : CoreReg) (t : Word) : (s.writeBack am rn t).bigend = s.bigend := by
  unfold State.writeBack; split <;> rfl
@[simp] theorem writeBack_alignTrap (s : State) (am : AddrMode) (rn : CoreReg) (t : Word) : (s.writeBack am rn t).alignTrap = s.alignTrap := by
  unfold State.writeBack; split <;> rfl
@[simp] theorem writeBack_mem (s : State) (am : AddrMode) (rn : CoreReg) (t : Word) : (s.writeBack am rn t).mem = s.mem := by
  unfold State.writeBack; split <;> rfl
@[simp] theorem writeBack_denied (s : State) (am : AddrMode) (rn : CoreReg) (t : Word) : (s.writeBack am rn t).denied = s.denied := by
  unfold State.writeBack; split <;> rfl
@[simp] theorem writeBack_code (s : State) (am : AddrMode) (rn : CoreReg) (t : Word) : (s.writeBack am rn t).code = s.code := by
  unfold State.writeBack; split <;> rfl
@[simp] theorem writeBack_draws (s : State) (am : AddrMode) (rn : CoreReg) (t : Word) : (s.writeBack am rn t).draws = s.draws := by
  unfold State.writeBack; split <;> rfl

@[simp] theorem writeBack_x (s : State) (am : AddrMode) (rn : CoreReg) (t : Word) :
    (s.writeBack am rn t).x = if writesBack am then s.x.set rn t else s.x := by
  unfold State.writeBack; split <;> rfl

@[simp] theorem orCssfOnly_cssf (s : State) (b : BitVec 8) : (s.orCssfOnly b).cssf = s.cssf ||| b := by
  unfold State.orCssfOnly
  split
  · next h => simp [h]
  · rfl

/-! ### drawDests: the fields no destination of a form is -/

@[simp] theorem drawDests_wcid (s : State) (t : Dests) : (s.drawDests t).wcid = s.wcid := rfl
@[simp] theorem drawDests_pc (s : State) (t : Dests) : (s.drawDests t).pc = s.pc := rfl
@[simp] theorem drawDests_cpar (s : State) (t : Dests) : (s.drawDests t).cpar = s.cpar := rfl
@[simp] theorem drawDests_bigend (s : State) (t : Dests) : (s.drawDests t).bigend = s.bigend := rfl
@[simp] theorem drawDests_alignTrap (s : State) (t : Dests) : (s.drawDests t).alignTrap = s.alignTrap := rfl
@[simp] theorem drawDests_mem (s : State) (t : Dests) : (s.drawDests t).mem = s.mem := rfl
@[simp] theorem drawDests_denied (s : State) (t : Dests) : (s.drawDests t).denied = s.denied := rfl
@[simp] theorem drawDests_code (s : State) (t : Dests) : (s.drawDests t).code = s.code := rfl

/-! ### Reading after writing -/

theorem readWR_writeWR (s : State) (d e : DReg) (v : DWord) :
    (s.writeWR d v).readWR e = if d = e then v else s.readWR e := by
  simp [State.readWR, Vector.getElem_set, Fin.ext_iff]

theorem readX_writeX (s : State) (r q : CoreReg) (v : Word) :
    (s.writeX r v).readX q = if r = q then v else s.readX q := by
  simp [State.readX, Vector.getElem_set, Fin.ext_iff]

@[simp] theorem readX_writeWR (s : State) (d : DReg) (v : DWord) (r : CoreReg) :
    (s.writeWR d v).readX r = s.readX r := rfl

@[simp] theorem readWR_setCasf (s : State) (v : Word) (d : DReg) : (s.setCasf v).readWR d = s.readWR d := rfl

@[simp] theorem readWR_orCssf (s : State) (b : BitVec 8) (d : DReg) : (s.orCssf b).readWR d = s.readWR d := rfl

@[simp] theorem readWR_orCssfOnly (s : State) (b : BitVec 8) (d : DReg) :
    (s.orCssfOnly b).readWR d = s.readWR d := by
  simp [State.readWR]

@[simp] theorem readWR_advance (s : State) (d : DReg) : s.advance.readWR d = s.readWR d := rfl

@[simp] theorem readX_advance (s : State) (r : CoreReg) : s.advance.readX r = s.readX r := rfl

end Sys2Proof.Machine
end

