-- ==== Sys2Proof/Laws/Words.lean ====
section
/-! SUPPORT. The words of Safety.lean by their slices, so that decoding one is decoding its slices. -/

namespace Sys2Proof.Machine

theorem fieldsOf_cdpWord (cond op1 n d : BitVec 4) (cp : BitVec 1) (op2 : BitVec 3) (m : BitVec 4) :
    fieldsOf (cdpWord cond op1 n d cp op2 m) =
      { c := cond, k := 7, p := false, op1 := op1, crn := n, crd := d, cpHi := 0, cp := bitAt cp 0, op2 := op2,
        b4 := false, crm := m } := by
  refine (congrArg fieldsOf ?_).trans (fieldsOf_assemble _)
  apply BitVec.eq_of_getLsbD_eq
  intro j hj
  simp only [cdpWord, assemble, bitAt, BitVec.getLsbD_append, BitVec.getLsbD_ofBool]
  interval_cases j <;> simp

theorem fieldsOf_transferWord (cond : BitVec 4) (op1 : BitVec 3) (l : BitVec 1) (n d : BitVec 4) (cp : BitVec 1)
    (op2 : BitVec 3) (m : BitVec 4) :
    fieldsOf (transferWord cond op1 l n d cp op2 m) =
      { c := cond, k := 7, p := false, op1 := op1 ++ l, crn := n, crd := d, cpHi := 0, cp := bitAt cp 0, op2 := op2,
        b4 := true, crm := m } := by
  refine (congrArg fieldsOf ?_).trans (fieldsOf_assemble _)
  apply BitVec.eq_of_getLsbD_eq
  intro j hj
  simp only [transferWord, assemble, bitAt, BitVec.getLsbD_append, BitVec.getLsbD_ofBool]
  interval_cases j <;> simp

theorem fieldsOf_memoryWord (cond : BitVec 4) (p u n w l : BitVec 1) (rn rd : BitVec 4) (m : BitVec 1) (off : BitVec 8) :
    fieldsOf (memoryWord cond p u n w l rn rd m off) =
      { c := cond, k := 6, p := bitAt p 0, op1 := u ++ n ++ w ++ l, crn := rn, crd := rd, cpHi := 0, cp := bitAt m 0,
        op2 := bitsAt off 5 3, b4 := bitAt off 4, crm := bitsAt off 0 4 } := by
  refine (congrArg fieldsOf ?_).trans (fieldsOf_assemble _)
  apply BitVec.eq_of_getLsbD_eq
  intro j hj
  simp only [memoryWord, assemble, bitsAt, bitAt, BitVec.getLsbD_append, BitVec.getLsbD_extractLsb',
    BitVec.getLsbD_ofBool]
  interval_cases j <;> simp

end Sys2Proof.Machine
end

