-- ==== Sys2Proof/Tests/Slice0.lean ====
section
/-! SUPPORT. The model's own tests: the checks of WellFormed, decoding, one step of every instruction, and a state that
meets the hypotheses of every obligation that has any. Expected values come from spec/95_test_vectors.md. -/

namespace Sys2Proof.Tests

open Sys2Proof Sys2Proof.Machine

/-! ### Helpers -/

/-- The reset state with some data and core registers. -/
def withRegs (wr : List (DReg × DWord)) (x : List (CoreReg × Word)) : State :=
  { State.reset with
    wR := wr.foldl (fun v p => v.set p.1 p.2) State.reset.wR
    x := x.foldl (fun v p => v.set p.1 p.2) State.reset.x }

/-- M[0x1000 + k] = 0x10 + k for k = 0 to 15. -/
def mem16 : Memory := (List.range 16).map fun k => (0x1000 + k, BitVec.ofNat 8 (0x10 + k))

/-- The state after one step over a word; the reset state where the step does not answer a next state. -/
def runs (w : Word) (s : State) : State :=
  match step (s.handWord w) with
  | .next t => t
  | .fault _ | .refused _ => State.reset

/-! ### Decoding: every constructor, from words written out in spec/95_test_vectors.md -/

/-- `TANDCB R15`; `TANDCH R15`. -/
theorem test_decode_tandc :
    decode 0xEE13F130 = .instr (.tandc .al .b) ∧
      decode 0xEE53F130 = .instr (.tandc .al .h) := by decide

/-- `TBCSTB wR2, R1`; `TBCSTH wR2, R1`. -/
theorem test_decode_tbcst :
    decode 0xEE421010 = .instr (.tbcst .al .b 2 1) ∧
      decode 0xEE421050 = .instr (.tbcst .al .h 2 1) := by decide

/-- `TEXTRCB R15, #5`; `TEXTRCH R15, #5`. -/
theorem test_decode_textrc :
    decode 0xEE13F175 = .instr (.textrc .al .b 5) ∧
      decode 0xEE53F175 = .instr (.textrc .al .h 5) := by decide

/-- `TEXTRMSB R4, wR3, #7`; `TEXTRMUH R4, wR3, #3`. -/
theorem test_decode_textrm :
    decode 0xEE13407F = .instr (.textrm .al .s .b 4 3 7) ∧
      decode 0xEE534073 = .instr (.textrm .al .u .h 4 3 3) := by decide

/-- `TINSRB wR5, R6, #2`; `TINSRH wR5, R6, #3`. -/
theorem test_decode_tinsr :
    decode 0xEE656012 = .instr (.tinsr .al .b 5 6 2) ∧
      decode 0xEE656053 = .instr (.tinsr .al .h 5 6 3) := by decide

/-- `TMCR wCon, R0`; `TMCR wCGR3, R0`. -/
theorem test_decode_tmcr :
    decode 0xEE010110 = .instr (.tmcr .al .wCon 0) ∧
      decode 0xEE0B0110 = .instr (.tmcr .al (.wCGR 3) 0) := by decide

/-- `TMCRR wR9, R2, R3`. -/
theorem test_decode_tmcrr :
    decode 0xEC432009 = .instr (.tmcrr .al 9 2 3) := by decide

/-- `TMIA wR8, R1, R2`; `TMIA wR15, R1, R2`. -/
theorem test_decode_tmia :
    decode 0xEE202111 = .instr (.tmia .al 8 1 2) ∧
      decode 0xEE2021F1 = .instr (.tmia .al 15 1 2) := by decide

/-- `TMIAPH wR8, R1, R2`. -/
theorem test_decode_tmiaph :
    decode 0xEE282111 = .instr (.tmiaph .al 8 1 2) := by decide

/-- `TMIABT wR8, R1, R2`; `TMIATB wR8, R1, R2`. -/
theorem test_decode_tmiaxy :
    decode 0xEE2D2111 = .instr (.tmiaxy .al .b .t 8 1 2) ∧
      decode 0xEE2E2111 = .instr (.tmiaxy .al .t .b 8 1 2) := by decide

/-- `TMOVMSKB R0, wR3`; `TMOVMSKH R0, wR3`. -/
theorem test_decode_tmovmsk :
    decode 0xEE130030 = .instr (.tmovmsk .al .b 0 3) ∧
      decode 0xEE530030 = .instr (.tmovmsk .al .h 0 3) := by decide

/-- `TMRC R7, wCASF`. -/
theorem test_decode_tmrc :
    decode 0xEE137110 = .instr (.tmrc .al 7 .wCASF) := by decide

/-- `TMRRC R4, R5, wR9`. -/
theorem test_decode_tmrrc :
    decode 0xEC554009 = .instr (.tmrrc .al 4 5 9) := by decide

/-- `TORCB R15`; `TORCH R15`. -/
theorem test_decode_torc :
    decode 0xEE13F150 = .instr (.torc .al .b) ∧
      decode 0xEE53F150 = .instr (.torc .al .h) := by decide

/-- `TORVSCB R15`; `TORVSCH R15`. -/
theorem test_decode_torvsc :
    decode 0xEE12F190 = .instr (.torvsc .al .b) ∧
      decode 0xEE52F190 = .instr (.torvsc .al .h) := by decide

/-- `WOR wR0, wR1, wR2`. -/
theorem test_decode_wor :
    decode 0xEE010002 = .instr (.wor .al 0 1 2) := by decide

/-- `WXOR wR0, wR1, wR1`; `WXOR wR0, wR1, wR2`. -/
theorem test_decode_wxor :
    decode 0xEE110001 = .instr (.wxor .al 0 1 1) ∧
      decode 0xEE110002 = .instr (.wxor .al 0 1 2) := by decide

/-- `WAND wR0, wR1, wR2`. -/
theorem test_decode_wand :
    decode 0xEE210002 = .instr (.wand .al 0 1 2) := by decide

/-- `WANDN wR0, wR1, wR2`. -/
theorem test_decode_wandn :
    decode 0xEE310002 = .instr (.wandn .al 0 1 2) := by decide

/-- `WAVG4 wR0, wR1, wR2`; `WAVG4R wR0, wR1, wR2`. -/
theorem test_decode_wavg4 :
    decode 0xEE410002 = .instr (.wavg4 .al false 0 1 2) ∧
      decode 0xEE510002 = .instr (.wavg4 .al true 0 1 2) := by decide

/-- `WAVG2B wR0, wR1, wR2`; `WAVG2BR wR0, wR1, wR2`. -/
theorem test_decode_wavg2 :
    decode 0xEE810002 = .instr (.wavg2 .al .b false 0 1 2) ∧
      decode 0xEE910002 = .instr (.wavg2 .al .b true 0 1 2) := by decide

/-- `WALIGNI wR0, wR1, wR2, #7`. -/
theorem test_decode_waligni :
    decode 0xEE710022 = .instr (.waligni .al 0 1 2 7) := by decide

/-- `WALIGNR1 wR0, wR1, wR2`. -/
theorem test_decode_walignr :
    decode 0xEE910022 = .instr (.walignr .al 1 0 1 2) := by decide

/-- `WSRAH wR0, wR1, wR2`; `WSRAD wR0, wR1, wR2`. -/
theorem test_decode_wsra :
    decode 0xEE410042 = .instr (.wsra .al .h 0 1 2) ∧
      decode 0xEEC10042 = .instr (.wsra .al .d 0 1 2) := by decide

/-- `WSRAWG wR0, wR1, wCGR0`. -/
theorem test_decode_wsraG :
    decode 0xEE810148 = .instr (.wsraG .al .w 0 1 0) := by decide

/-- `WSRAD wR0, wR1, #32`; `WSRAH wR0, wR1, #4`. -/
theorem test_decode_wsraI :
    decode 0xFEC10040 = .instr (.wsraI .d 0 1 0) ∧
      decode 0xFE410044 = .instr (.wsraI .h 0 1 4) := by decide

/-- `WSLLH wR0, wR1, wR2`. -/
theorem test_decode_wsll :
    decode 0xEE510042 = .instr (.wsll .al .h 0 1 2) := by decide

/-- `WSLLHG wR0, wR1, wCGR0`; `WSLLWG wR0, wR1, wCGR0`. -/
theorem test_decode_wsllG :
    decode 0xEE510148 = .instr (.wsllG .al .h 0 1 0) ∧
      decode 0xEE910148 = .instr (.wsllG .al .w 0 1 0) := by decide

/-- `WSLLD wR0, wR1, #32`; `WSLLW wR0, wR1, #32`. -/
theorem test_decode_wsllI :
    decode 0xFED10040 = .instr (.wsllI .d 0 1 0) ∧
      decode 0xFE910040 = .instr (.wsllI .w 0 1 0) := by decide

/-- `WSRLH wR0, wR1, wR2`; `WSRLD wR0, wR1, wR2`. -/
theorem test_decode_wsrl :
    decode 0xEE610042 = .instr (.wsrl .al .h 0 1 2) ∧
      decode 0xEEE10042 = .instr (.wsrl .al .d 0 1 2) := by decide

/-- `WSRLWG wR0, wR1, wCGR0`. -/
theorem test_decode_wsrlG :
    decode 0xEEA10148 = .instr (.wsrlG .al .w 0 1 0) := by decide

/-- `WSRLH wR0, wR1, #16`; `WSRLW wR0, wR1, #32`. -/
theorem test_decode_wsrlI :
    decode 0xFE610140 = .instr (.wsrlI .h 0 1 16) ∧
      decode 0xFEA10040 = .instr (.wsrlI .w 0 1 0) := by decide

/-- `WRORH wR0, wR1, wR2`; `WRORD wR0, wR1, wR2`. -/
theorem test_decode_wror :
    decode 0xEE710042 = .instr (.wror .al .h 0 1 2) ∧
      decode 0xEEF10042 = .instr (.wror .al .d 0 1 2) := by decide

/-- `WRORWG wR0, wR1, wCGR0`. -/
theorem test_decode_wrorG :
    decode 0xEEB10148 = .instr (.wrorG .al .w 0 1 0) := by decide

/-- `WRORH wR0, wR1, #4`; `WRORD wR0, wR1, #32`. -/
theorem test_decode_wrorI :
    decode 0xFE710044 = .instr (.wrorI .h 0 1 4) ∧
      decode 0xFEF10040 = .instr (.wrorI .d 0 1 0) := by decide

/-- `WCMPEQB wR0, wR1, wR2`; `WCMPEQW wR0, wR1, wR2`. -/
theorem test_decode_wcmpeq :
    decode 0xEE010062 = .instr (.wcmpeq .al .b 0 1 2) ∧
      decode 0xEE810062 = .instr (.wcmpeq .al .w 0 1 2) := by decide

/-- `WCMPGTUB wR0, wR1, wR2`; `WCMPGTSB wR0, wR1, wR2`. -/
theorem test_decode_wcmpgt :
    decode 0xEE110062 = .instr (.wcmpgt .al .u .b 0 1 2) ∧
      decode 0xEE310062 = .instr (.wcmpgt .al .s .b 0 1 2) := by decide

/-- `WMERGE wR0, wR1, wR2, #3`; `WMERGE wR0, wR1, wR2, #0`. -/
theorem test_decode_wmerge :
    decode 0xEE610082 = .instr (.wmerge .al 0 1 2 3) ∧
      decode 0xEE010082 = .instr (.wmerge .al 0 1 2 0) := by decide

/-- `WQMULM wR0, wR1, wR2`; `WQMULMR wR0, wR1, wR2`. -/
theorem test_decode_wqmulm :
    decode 0xEE110082 = .instr (.wqmulm .al false 0 1 2) ∧
      decode 0xEE310082 = .instr (.wqmulm .al true 0 1 2) := by decide

/-- `WPACKHUS wR0, wR1, wR2`; `WPACKWSS wR0, wR1, wR2`. -/
theorem test_decode_wpack :
    decode 0xEE510082 = .instr (.wpack .al .h .us 0 1 2) ∧
      decode 0xEEB10082 = .instr (.wpack .al .w .ss 0 1 2) := by decide

/-- `WMIABT wR0, wR1, wR2`; `WMIATTN wR0, wR1, wR2`. -/
theorem test_decode_wmiaxy :
    decode 0xEE1100A2 = .instr (.wmiaxy .al false .b .t 0 1 2) ∧
      decode 0xEE7100A2 = .instr (.wmiaxy .al true .t .t 0 1 2) := by decide

/-- `WQMIABBN wR0, wR1, wR2`; `WQMIATT wR0, wR1, wR2`. -/
theorem test_decode_wqmiaxy :
    decode 0xEEC100A2 = .instr (.wqmiaxy .al true .b .b 0 1 2) ∧
      decode 0xEEB100A2 = .instr (.wqmiaxy .al false .t .t 0 1 2) := by decide

/-- `WUNPCKEHUB wR0, wR1`; `WUNPCKEHSH wR0, wR1`. -/
theorem test_decode_wunpckeh :
    decode 0xEE0100C0 = .instr (.wunpckeh .al .u .b 0 1) ∧
      decode 0xEE6100C0 = .instr (.wunpckeh .al .s .h 0 1) := by decide

/-- `WUNPCKIHB wR0, wR1, wR2`; `WUNPCKIHW wR0, wR1, wR2`. -/
theorem test_decode_wunpckih :
    decode 0xEE1100C2 = .instr (.wunpckih .al .b 0 1 2) ∧
      decode 0xEE9100C2 = .instr (.wunpckih .al .w 0 1 2) := by decide

/-- `WMULWUM wR0, wR1, wR2`; `WMULWSMR wR0, wR1, wR2`. -/
theorem test_decode_wmulw :
    decode 0xEED100C2 = .instr (.wmulw .al .um 0 1 2) ∧
      decode 0xEEE100C2 = .instr (.wmulw .al .smr 0 1 2) := by decide

/-- `WUNPCKELSB wR0, wR1`; `WUNPCKELUW wR0, wR1`. -/
theorem test_decode_wunpckel :
    decode 0xEE2100E0 = .instr (.wunpckel .al .s .b 0 1) ∧
      decode 0xEE8100E0 = .instr (.wunpckel .al .u .w 0 1) := by decide

/-- `WUNPCKILB wR0, wR1, wR2`; `WUNPCKILH wR0, wR1, wR2`. -/
theorem test_decode_wunpckil :
    decode 0xEE1100E2 = .instr (.wunpckil .al .b 0 1 2) ∧
      decode 0xEE5100E2 = .instr (.wunpckil .al .h 0 1 2) := by decide

/-- `WQMULWM wR0, wR1, wR2`; `WQMULWMR wR0, wR1, wR2`. -/
theorem test_decode_wqmulwm :
    decode 0xEEC100E2 = .instr (.wqmulwm .al false 0 1 2) ∧
      decode 0xEEE100E2 = .instr (.wqmulwm .al true 0 1 2) := by decide

/-- `WMULUM wR0, wR1, wR2`; `WMULSMR wR0, wR1, wR2`. -/
theorem test_decode_wmul :
    decode 0xEE110102 = .instr (.wmul .al .um 0 1 2) ∧
      decode 0xEEF10102 = .instr (.wmul .al .smr 0 1 2) := by decide

/-- `WMACUZ wR0, wR1, wR2`; `WMACS wR0, wR1, wR2`. -/
theorem test_decode_wmac :
    decode 0xEE510102 = .instr (.wmac .al .u true 0 1 2) ∧
      decode 0xEE610102 = .instr (.wmac .al .s false 0 1 2) := by decide

/-- `WMADDUX wR0, wR1, wR2`; `WMADDSN wR0, wR1, wR2`. -/
theorem test_decode_wmadd :
    decode 0xEE910102 = .instr (.wmadd .al .u .x 0 1 2) ∧
      decode 0xEEE10102 = .instr (.wmadd .al .s .n 0 1 2) := by decide

/-- `WSADB wR0, wR1, wR2`; `WSADHZ wR0, wR1, wR2`. -/
theorem test_decode_wsad :
    decode 0xEE010122 = .instr (.wsad .al .b false 0 1 2) ∧
      decode 0xEE510122 = .instr (.wsad .al .h true 0 1 2) := by decide

/-- `WMIAWBT wR0, wR1, wR2`; `WMIAWTTN wR0, wR1, wR2`. -/
theorem test_decode_wmiawxy :
    decode 0xEE910122 = .instr (.wmiawxy .al false .b .t 0 1 2) ∧
      decode 0xEEF10122 = .instr (.wmiawxy .al true .t .t 0 1 2) := by decide

/-- `WMAXSB wR0, wR1, wR2`; `WMAXUH wR0, wR1, wR2`. -/
theorem test_decode_wmax :
    decode 0xEE210162 = .instr (.wmax .al .s .b 0 1 2) ∧
      decode 0xEE410162 = .instr (.wmax .al .u .h 0 1 2) := by decide

/-- `WMINSB wR0, wR1, wR2`; `WMINUW wR0, wR1, wR2`. -/
theorem test_decode_wmin :
    decode 0xEE310162 = .instr (.wmin .al .s .b 0 1 2) ∧
      decode 0xEE910162 = .instr (.wmin .al .u .w 0 1 2) := by decide

/-- `WADDBSS wR0, wR1, wR2`; `WADDHC wR0, wR1, wR2`. -/
theorem test_decode_wadd :
    decode 0xEE310182 = .instr (.wadd .al .b .ss 0 1 2) ∧
      decode 0xEE610182 = .instr (.wadd .al .h .c 0 1 2) := by decide

/-- `WSUBB wR0, wR1, wR2`; `WSUBBSS wR0, wR1, wR2`. -/
theorem test_decode_wsub :
    decode 0xEE0101A2 = .instr (.wsub .al .b .none 0 1 2) ∧
      decode 0xEE3101A2 = .instr (.wsub .al .b .ss 0 1 2) := by decide

/-- `WADDSUBHX wR0, wR1, wR2`. -/
theorem test_decode_waddsubhx :
    decode 0xEEA101A2 = .instr (.waddsubhx .al 0 1 2) := by decide

/-- `WACCB wR0, wR1`; `WACCW wR0, wR1`. -/
theorem test_decode_wacc :
    decode 0xEE0101C0 = .instr (.wacc .al .b 0 1) ∧
      decode 0xEE8101C0 = .instr (.wacc .al .w 0 1) := by decide

/-- `WABSDIFFB wR0, wR1, wR2`; `WABSDIFFH wR0, wR1, wR2`. -/
theorem test_decode_wabsdiff :
    decode 0xEE1101C2 = .instr (.wabsdiff .al .b 0 1 2) ∧
      decode 0xEE5101C2 = .instr (.wabsdiff .al .h 0 1 2) := by decide

/-- `WABSB wR0, wR1`; `WABSW wR0, wR1`. -/
theorem test_decode_wabs :
    decode 0xEE2101C0 = .instr (.wabs .al .b 0 1) ∧
      decode 0xEEA101C0 = .instr (.wabs .al .w 0 1) := by decide

/-- `WSUBADDHX wR0, wR1, wR2`. -/
theorem test_decode_wsubaddhx :
    decode 0xEED101C2 = .instr (.wsubaddhx .al 0 1 2) := by decide

/-- `WSHUFH wR0, wR1, #0x1B`; `WSHUFH wR0, wR1, #0xE4`. -/
theorem test_decode_wshufh :
    decode 0xEE1101EB = .instr (.wshufh .al 0 1 27) ∧
      decode 0xEEE101E4 = .instr (.wshufh .al 0 1 228) := by decide

/-- `WLDRD wR0, [R1, #-8]!`; `WLDRH wR0, [R1, #2]`. -/
theorem test_decode_wldr :
    decode 0xED710102 = .instr (.wldr .al .d (.pre false true) 0 1 2) ∧
      decode 0xEDD10002 = .instr (.wldr .al .h (.pre true false) 0 1 2) := by decide

/-- `WLDRD wR0, [R1], -R2`; `WLDRD wR0, [R1, +R2, LSL #4]`. -/
theorem test_decode_wldrd :
    decode 0xFC710102 = .instr (.wldrd (.post false) 0 1 2 0) ∧
      decode 0xFDD10142 = .instr (.wldrd (.pre true false) 0 1 2 4) := by decide

/-- `WLDRW wCGR0, [R1, #4]`. -/
theorem test_decode_wldrw :
    decode 0xFD918101 = .instr (.wldrw (.pre true false) (.wCGR 0) 1 1) := by decide

/-- `WSTRH wR3, [R1, #2]`; `WSTRD wR3, [R1, #8]`. -/
theorem test_decode_wstr :
    decode 0xEDC13002 = .instr (.wstr .al .h (.pre true false) 3 1 2) ∧
      decode 0xEDC13102 = .instr (.wstr .al .d (.pre true false) 3 1 2) := by decide

/-- `WSTRD wR3, [R1, +R2, LSL #3]!`. -/
theorem test_decode_wstrd :
    decode 0xFDE13132 = .instr (.wstrd (.pre true true) 3 1 2 3) := by decide

/-- `WSTRW wCASF, [R1], #4`. -/
theorem test_decode_wstrw :
    decode 0xFCA13101 = .instr (.wstrw (.post true) .wCASF 1 1) := by decide

/-- `WMOV wR3, wR1`. -/
theorem test_decode_wmov :
    decode 0xEE013001 = .instr (.wmov .al 3 1) := by decide

/-- `WZERO wR4`. -/
theorem test_decode_wzero :
    decode 0xEE344004 = .instr (.wzero .al 4) := by decide

/-! ### One step: rows of spec/95_test_vectors.md section 2 -/

/-- `TANDCB R15`. -/
theorem test_tandc :
    let o := runs 0xEE13F130 ({ withRegs [] [] with casf := 0x40C04040, nzcv := 15 })
    o.nzcv = 0 := by decide

/-- `TANDCH R15`. -/
theorem test_tandc_2 :
    let o := runs 0xEE53F130 ({ withRegs [] [] with casf := 0x40C04040, nzcv := 15 })
    o.nzcv = 4 := by decide

/-- `TBCSTB wR2, R1`. -/
theorem test_tbcst :
    let o := runs 0xEE421010 (withRegs [] [(1, 0x123456AB)])
    o.readWR 2 = 0xABABABABABABABAB := by decide

/-- `TBCSTH wR2, R1`. -/
theorem test_tbcst_2 :
    let o := runs 0xEE421050 (withRegs [] [(1, 0x123456AB)])
    o.readWR 2 = 0x56AB56AB56AB56AB := by decide

/-- `TEXTRCB R15, #5`. -/
theorem test_textrc :
    let o := runs 0xEE13F175 ({ withRegs [] [] with casf := 0x12345678 })
    o.nzcv = 3 := by decide

/-- `TEXTRCH R15, #5`. -/
theorem test_textrc_2 :
    let o := runs 0xEE53F175 ({ withRegs [] [] with casf := 0x12345678 })
    o.nzcv = 5 := by decide

/-- `TEXTRMSB R4, wR3, #7`. -/
theorem test_textrm :
    let o := runs 0xEE13407F (withRegs [(3, 0x8877665544332211)] [])
    o.readX 4 = 0xFFFFFF88 := by decide

/-- `TEXTRMUH R4, wR3, #3`. -/
theorem test_textrm_2 :
    let o := runs 0xEE534073 (withRegs [(3, 0x8877665544332211)] [])
    o.readX 4 = 0x8877 := by decide

/-- `TINSRB wR5, R6, #2`. -/
theorem test_tinsr :
    let o := runs 0xEE656012 (withRegs [(5, 0x8877665544332211)] [(6, 0xDEADBEEF)])
    o.readWR 5 = 0x8877665544EF2211 := by decide

/-- `TINSRH wR5, R6, #3`. -/
theorem test_tinsr_2 :
    let o := runs 0xEE656053 (withRegs [(5, 0x8877665544332211)] [(6, 0xDEADBEEF)])
    o.readWR 5 = 0xBEEF665544332211 := by decide

/-- `TMCR wCon, R0`. -/
theorem test_tmcr :
    let o := runs 0xEE010110 ({ withRegs [] [(0, 0x1)] with mup := true, cup := true })
    (o.mup, o.cup) = (true, false) := by decide

/-- `TMCR wCGR3, R0`. -/
theorem test_tmcr_2 :
    let o := runs 0xEE0B0110 (withRegs [] [(0, 0xFFFFFFFF)])
    o.readCgr 3 = 0xFFFFFFFF := by decide

/-- `TMCRR wR9, R2, R3`. -/
theorem test_tmcrr :
    let o := runs 0xEC432009 (withRegs [] [(2, 0x11223344), (3, 0xAABBCCDD)])
    o.readWR 9 = 0xAABBCCDD11223344 := by decide

/-- `TMIA wR8, R1, R2`. -/
theorem test_tmia :
    let o := runs 0xEE202111 (withRegs [(8, 0x100000000)] [(1, 0xFFFFFFFE), (2, 0x3)])
    o.readWR 8 = 0xFFFFFFFA := by decide

/-- `TMIA wR15, R1, R2`. -/
theorem test_tmia_2 :
    let o := runs 0xEE2021F1 (withRegs [(15, 0x0)] [(1, 0x80000000), (2, 0x80000000)])
    o.readWR 15 = 0x4000000000000000 := by decide

/-- `TMIAPH wR8, R1, R2`. -/
theorem test_tmiaph :
    let o := runs 0xEE282111 (withRegs [(8, 0xA)] [(1, 0x2FFFF), (2, 0x30004)])
    o.readWR 8 = 0xC := by decide

/-- `TMIABT wR8, R1, R2`. -/
theorem test_tmiaxy :
    let o := runs 0xEE2D2111 (withRegs [(8, 0x0)] [(1, 0x2FFFF), (2, 0x30004)])
    o.readWR 8 = 0xFFFFFFFFFFFFFFFD := by decide

/-- `TMIATB wR8, R1, R2`. -/
theorem test_tmiaxy_2 :
    let o := runs 0xEE2E2111 (withRegs [(8, 0x0)] [(1, 0x2FFFF), (2, 0x30004)])
    o.readWR 8 = 0x8 := by decide

/-- `TMOVMSKB R0, wR3`. -/
theorem test_tmovmsk :
    let o := runs 0xEE130030 (withRegs [(3, 0x80FF7F0180000001)] [])
    o.readX 0 = 0xC8 := by decide

/-- `TMOVMSKH R0, wR3`. -/
theorem test_tmovmsk_2 :
    let o := runs 0xEE530030 (withRegs [(3, 0x80FF7F0180000001)] [])
    o.readX 0 = 0xA := by decide

/-- `TMRC R7, wCASF`. -/
theorem test_tmrc :
    let o := runs 0xEE137110 ({ withRegs [] [] with casf := 0x80402010 })
    o.readX 7 = 0x80402010 := by decide

/-- `TMRRC R4, R5, wR9`. -/
theorem test_tmrrc :
    let o := runs 0xEC554009 (withRegs [(9, 0xAABBCCDD11223344)] [])
    o.readX 4 = 0x11223344 ∧ o.readX 5 = 0xAABBCCDD := by decide

/-- `TORCB R15`. -/
theorem test_torc :
    let o := runs 0xEE13F150 ({ withRegs [] [] with casf := 0x800004, nzcv := 15 })
    o.nzcv = 12 := by decide

/-- `TORCH R15`. -/
theorem test_torc_2 :
    let o := runs 0xEE53F150 ({ withRegs [] [] with casf := 0x800004, nzcv := 15 })
    o.nzcv = 8 := by decide

/-- `TORVSCB R15`. -/
theorem test_torvsc :
    let o := runs 0xEE12F190 ({ withRegs [] [] with cssf := 0x4, nzcv := 15 })
    o.nzcv = 1 := by decide

/-- `TORVSCH R15`. -/
theorem test_torvsc_2 :
    let o := runs 0xEE52F190 ({ withRegs [] [] with cssf := 0x4, nzcv := 15 })
    o.nzcv = 0 := by decide

/-- `WOR wR0, wR1, wR2`. -/
theorem test_wor :
    let o := runs 0xEE010002 (withRegs [(1, 0xFF00FF0F0F0F0F), (2, 0xF0F0F0F00FF00FF)] [])
    o.readWR 0 = 0xFFF0FFF0FFF0FFF := by decide

/-- `WXOR wR0, wR1, wR1`. -/
theorem test_wxor :
    let o := runs 0xEE110001 (withRegs [(1, 0x5)] [])
    o.readWR 0 = 0x0 ∧ o.casf = 0x40000000 := by decide

/-- `WXOR wR0, wR1, wR2`. -/
theorem test_wxor_2 :
    let o := runs 0xEE110002 (withRegs [(1, 0xFF00FF0F0F0F0F), (2, 0xF0F0F0F00FF00FF)] [])
    o.readWR 0 = 0xFF00FF00FF00FF0 := by decide

/-- `WAND wR0, wR1, wR2`. -/
theorem test_wand :
    let o := runs 0xEE210002 (withRegs [(1, 0xFF00FF0F0F0F0F), (2, 0xF0F0F0F00FF00FF)] [])
    o.readWR 0 = 0xF000F000F000F := by decide

/-- `WANDN wR0, wR1, wR2`. -/
theorem test_wandn :
    let o := runs 0xEE310002 (withRegs [(1, 0xFF00FF0F0F0F0F), (2, 0xF0F0F0F00FF00FF)] [])
    o.readWR 0 = 0xF000F00F000F00 := by decide

/-- `WAVG4 wR0, wR1, wR2`. -/
theorem test_wavg4 :
    let o := runs 0xEE410002 (withRegs [(1, 0xFF10203040506070), (2, 0xFF11213141516171)] [])
    o.readWR 0 = 0x88182838485868 ∧ o.casf = 0x40000000 := by decide

/-- `WAVG4R wR0, wR1, wR2`. -/
theorem test_wavg4_2 :
    let o := runs 0xEE510002 (withRegs [(1, 0xFF10203040506070), (2, 0xFF11213141516171)] [])
    o.readWR 0 = 0x88192939495969 ∧ o.casf = 0x40000000 := by decide

/-- `WAVG2B wR0, wR1, wR2`. -/
theorem test_wavg2 :
    let o := runs 0xEE810002 (withRegs [(1, 0xFF01FE0200000001), (2, 0xFF02FF0300000000)] [])
    o.readWR 0 = 0xFF01FE0200000000 ∧ o.casf = 0x4444 := by decide

/-- `WAVG2BR wR0, wR1, wR2`. -/
theorem test_wavg2_2 :
    let o := runs 0xEE910002 (withRegs [(1, 0xFF01FE0200000001), (2, 0xFF02FF0300000000)] [])
    o.readWR 0 = 0xFF02FF0300000001 ∧ o.casf = 0x4440 := by decide

/-- `WALIGNI wR0, wR1, wR2, #7`. -/
theorem test_waligni :
    let o := runs 0xEE710022 ({ withRegs [(1, 0x706050403020100), (2, 0xF0E0D0C0B0A0908)] [] with casf := 0x12345678 })
    o.readWR 0 = 0xE0D0C0B0A090807 := by decide

/-- `WALIGNR1 wR0, wR1, wR2`. -/
theorem test_walignr :
    let o := runs 0xEE910022 ({ withRegs [(1, 0x706050403020100), (2, 0xF0E0D0C0B0A0908)] [] with cgr := State.reset.cgr.set 1 0xFFFFFFFD })
    o.readWR 0 = 0xC0B0A0908070605 := by decide

/-- `WSRAH wR0, wR1, wR2`. -/
theorem test_wsra :
    let o := runs 0xEE410042 (withRegs [(1, 0x8001F00F12345678), (2, 0xABCDEF0000000040)] [])
    o.readWR 0 = 0xFFFFFFFF00000000 ∧ o.casf = 0x80804040 := by decide

/-- `WSRAD wR0, wR1, wR2`. -/
theorem test_wsra_2 :
    let o := runs 0xEEC10042 (withRegs [(1, 0x8001F00F12345678), (2, 0xABCDEF0000000004)] [])
    o.readWR 0 = 0xF8001F00F1234567 ∧ o.casf = 0x80000000 := by decide

/-- `WSRAWG wR0, wR1, wCGR0`. -/
theorem test_wsraG :
    let o := runs 0xEE810148 ({ withRegs [(1, 0x8001F00F12345678)] [] with cgr := State.reset.cgr.set 0 0xFFFFFF08 })
    o.readWR 0 = 0xFF8001F000123456 ∧ o.casf = 0x80000000 := by decide

/-- `WSRAD wR0, wR1, #32`. -/
theorem test_wsraI :
    let o := runs 0xFEC10040 (withRegs [(1, 0x8001F00F12345678)] [])
    o.readWR 0 = 0xFFFFFFFF8001F00F ∧ o.casf = 0x80000000 := by decide

/-- `WSRAH wR0, wR1, #4`. -/
theorem test_wsraI_2 :
    let o := runs 0xFE410044 (withRegs [(1, 0x8001F00F12345678)] [])
    o.readWR 0 = 0xF800FF0001230567 ∧ o.casf = 0x80800000 := by decide

/-- `WSLLH wR0, wR1, wR2`. -/
theorem test_wsll :
    let o := runs 0xEE510042 (withRegs [(1, 0x8001F00F12345678), (2, 0xABCDEF0000000104)] [])
    o.readWR 0 = 0x1000F023406780 := by decide

/-- `WSLLH wR0, wR1, wR2`. -/
theorem test_wsll_2 :
    let o := runs 0xEE510042 (withRegs [(1, 0x8001F00F12345678), (2, 0xABCDEF0000000040)] [])
    o.readWR 0 = 0x0 ∧ o.casf = 0x40404040 := by decide

/-- `WSLLHG wR0, wR1, wCGR0`. -/
theorem test_wsllG :
    let o := runs 0xEE510148 ({ withRegs [(1, 0x1000100010001)] [] with cgr := State.reset.cgr.set 0 0x4 })
    o.readWR 0 = 0x10001000100010 := by decide

/-- `WSLLWG wR0, wR1, wCGR0`. -/
theorem test_wsllG_2 :
    let o := runs 0xEE910148 ({ withRegs [(1, 0x8001F00F12345678)] [] with cgr := State.reset.cgr.set 0 0xFFFFFF08 })
    o.readWR 0 = 0x1F00F0034567800 := by decide

/-- `WSLLD wR0, wR1, #32`. -/
theorem test_wsllI :
    let o := runs 0xFED10040 (withRegs [(1, 0x8001F00F12345678)] [])
    o.readWR 0 = 0x1234567800000000 := by decide

/-- `WSLLW wR0, wR1, #32`. -/
theorem test_wsllI_2 :
    let o := runs 0xFE910040 (withRegs [(1, 0x8001F00F12345678)] [])
    o.readWR 0 = 0x0 ∧ o.casf = 0x40004000 := by decide

/-- `WSRLH wR0, wR1, wR2`. -/
theorem test_wsrl :
    let o := runs 0xEE610042 (withRegs [(1, 0x8001F00F12345678), (2, 0xABCDEF0000000104)] [])
    o.readWR 0 = 0x8000F0001230567 := by decide

/-- `WSRLD wR0, wR1, wR2`. -/
theorem test_wsrl_2 :
    let o := runs 0xEEE10042 (withRegs [(1, 0x8001F00F12345678), (2, 0xABCDEF0000000040)] [])
    o.readWR 0 = 0x0 ∧ o.casf = 0x40000000 := by decide

/-- `WSRLWG wR0, wR1, wCGR0`. -/
theorem test_wsrlG :
    let o := runs 0xEEA10148 ({ withRegs [(1, 0x8001F00F12345678)] [] with cgr := State.reset.cgr.set 0 0xFFFFFF08 })
    o.readWR 0 = 0x8001F000123456 := by decide

/-- `WSRLH wR0, wR1, #16`. -/
theorem test_wsrlI :
    let o := runs 0xFE610140 (withRegs [(1, 0x8001F00F12345678)] [])
    o.readWR 0 = 0x0 ∧ o.casf = 0x40404040 := by decide

/-- `WSRLW wR0, wR1, #32`. -/
theorem test_wsrlI_2 :
    let o := runs 0xFEA10040 (withRegs [(1, 0x8001F00F12345678)] [])
    o.readWR 0 = 0x0 ∧ o.casf = 0x40004000 := by decide

/-- `WRORH wR0, wR1, wR2`. -/
theorem test_wror :
    let o := runs 0xEE710042 (withRegs [(1, 0x8001F00F12345678), (2, 0xABCDEF0000000004)] [])
    o.readWR 0 = 0x1800FF0041238567 ∧ o.casf = 0x800080 := by decide

/-- `WRORD wR0, wR1, wR2`. -/
theorem test_wror_2 :
    let o := runs 0xEEF10042 (withRegs [(1, 0x8001F00F12345678), (2, 0xABCDEF0000000004)] [])
    o.readWR 0 = 0x88001F00F1234567 ∧ o.casf = 0x80000000 := by decide

/-- `WRORWG wR0, wR1, wCGR0`. -/
theorem test_wrorG :
    let o := runs 0xEEB10148 ({ withRegs [(1, 0x8001F00F12345678)] [] with cgr := State.reset.cgr.set 0 0xFFFFFF08 })
    o.readWR 0 = 0xF8001F078123456 := by decide

/-- `WRORH wR0, wR1, #4`. -/
theorem test_wrorI :
    let o := runs 0xFE710044 (withRegs [(1, 0x8001F00F12345678)] [])
    o.readWR 0 = 0x1800FF0041238567 ∧ o.casf = 0x800080 := by decide

/-- `WRORD wR0, wR1, #32`. -/
theorem test_wrorI_2 :
    let o := runs 0xFEF10040 (withRegs [(1, 0x8001F00F12345678)] [])
    o.readWR 0 = 0x123456788001F00F := by decide

/-- `WCMPEQB wR0, wR1, wR2`. -/
theorem test_wcmpeq :
    let o := runs 0xEE010062 (withRegs [(1, 0x80017F00FFFF0005), (2, 0x7F017F01FFFE0005)] [])
    o.readWR 0 = 0xFFFF00FF00FFFF ∧ o.casf = 0x48848488 := by decide

/-- `WCMPEQW wR0, wR1, wR2`. -/
theorem test_wcmpeq_2 :
    let o := runs 0xEE810062 (withRegs [(1, 0x80017F00FFFF0005), (2, 0x7F017F01FFFE0005)] [])
    o.readWR 0 = 0x0 ∧ o.casf = 0x40004000 := by decide

/-- `WCMPGTUB wR0, wR1, wR2`. -/
theorem test_wcmpgt :
    let o := runs 0xEE110062 (withRegs [(1, 0x80017F00FFFF0005), (2, 0x7F017F01FFFE0005)] [])
    o.readWR 0 = 0xFF00000000FF0000 ∧ o.casf = 0x84444844 := by decide

/-- `WCMPGTSB wR0, wR1, wR2`. -/
theorem test_wcmpgt_2 :
    let o := runs 0xEE310062 (withRegs [(1, 0x80017F00FFFF0005), (2, 0x7F017F01FFFE0005)] [])
    o.readWR 0 = 0xFF0000 ∧ o.casf = 0x44444844 := by decide

/-- `WMERGE wR0, wR1, wR2, #3`. -/
theorem test_wmerge :
    let o := runs 0xEE610082 (withRegs [(1, 0x807060504030201), (2, 0x1817161514131211)] [])
    o.readWR 0 = 0x1312110504030201 := by decide

/-- `WMERGE wR0, wR1, wR2, #0`. -/
theorem test_wmerge_2 :
    let o := runs 0xEE010082 (withRegs [(1, 0x807060504030201), (2, 0x1817161514131211)] [])
    o.readWR 0 = 0x807060504030201 := by decide

/-- `WQMULM wR0, wR1, wR2`. -/
theorem test_wqmulm :
    let o := runs 0xEE110082 (withRegs [(1, 0x800040007FFF0001), (2, 0x800060007FFF4000)] [])
    o.readWR 0 = 0x7FFF30007FFE0000 ∧ o.cssf = 0x80 := by decide

/-- `WQMULMR wR0, wR1, wR2`. -/
theorem test_wqmulm_2 :
    let o := runs 0xEE310082 (withRegs [(1, 0x800040007FFF0001), (2, 0x800060007FFF4000)] [])
    o.readWR 0 = 0x7FFF30007FFE0001 ∧ o.cssf = 0x80 := by decide

/-- `WPACKHUS wR0, wR1, wR2`. -/
theorem test_wpack :
    let o := runs 0xEE510082 (withRegs [(1, 0x7FFF008000FFFF80), (2, 0x8000FF7F01000000)] [])
    o.readWR 0 = 0xFF00FF80FF00 ∧ o.casf = 0x44848884 ∧ o.cssf = 0xE9 := by decide

/-- `WPACKWSS wR0, wR1, wR2`. -/
theorem test_wpack_2 :
    let o := runs 0xEEB10082 (withRegs [(1, 0x7FFF008000FFFF80), (2, 0x8000FF7F01000000)] [])
    o.readWR 0 = 0x80007FFF7FFF7FFF ∧ o.casf = 0x80000000 ∧ o.cssf = 0xAA := by decide

/-- `WMIABT wR0, wR1, wR2`. -/
theorem test_wmiaxy :
    let o := runs 0xEE1100A2 (withRegs [(0, 0x64), (1, 0x2000300040005), (2, 0xFFFF000700060008)] [])
    o.readWR 0 = 0x7F := by decide

/-- `WMIATTN wR0, wR1, wR2`. -/
theorem test_wmiaxy_2 :
    let o := runs 0xEE7100A2 (withRegs [(0, 0x64), (1, 0x2000300040005), (2, 0xFFFF000700060008)] [])
    o.readWR 0 = 0x4E := by decide

/-- `WQMIABBN wR0, wR1, wR2`. -/
theorem test_wqmiaxy :
    let o := runs 0xEEC100A2 (withRegs [(0, 0x180000000), (1, 0x8000400040008000), (2, 0x8000200060008000)] [])
    o.readWR 0 = 0xF000000180000000 ∧ o.cssf = 0x8 := by decide

/-- `WQMIATT wR0, wR1, wR2`. -/
theorem test_wqmiaxy_2 :
    let o := runs 0xEEB100A2 (withRegs [(0, 0x7FFFFFFF00000010), (1, 0x8000400040008000), (2, 0x8000200060008000)] [])
    o.readWR 0 = 0x7FFFFFFF30000010 ∧ o.cssf = 0x80 := by decide

/-- `WUNPCKEHUB wR0, wR1`. -/
theorem test_wunpckeh :
    let o := runs 0xEE0100C0 (withRegs [(1, 0x80FF7F0001820000)] [])
    o.readWR 0 = 0x8000FF007F0000 ∧ o.casf = 0x40 := by decide

/-- `WUNPCKEHSH wR0, wR1`. -/
theorem test_wunpckeh_2 :
    let o := runs 0xEE6100C0 (withRegs [(1, 0x80FF7F0001820000)] [])
    o.readWR 0 = 0xFFFF80FF00007F00 ∧ o.casf = 0x80000000 := by decide

/-- `WUNPCKIHB wR0, wR1, wR2`. -/
theorem test_wunpckih :
    let o := runs 0xEE1100C2 (withRegs [(1, 0x8807060504030200), (2, 0x1817161514131200)] [])
    o.readWR 0 = 0x1888170716061505 ∧ o.casf = 0x8000000 := by decide

/-- `WUNPCKIHW wR0, wR1, wR2`. -/
theorem test_wunpckih_2 :
    let o := runs 0xEE9100C2 (withRegs [(1, 0x8807060504030200), (2, 0x1817161514131200)] [])
    o.readWR 0 = 0x1817161588070605 ∧ o.casf = 0x8000 := by decide

/-- `WMULWUM wR0, wR1, wR2`. -/
theorem test_wmulw :
    let o := runs 0xEED100C2 (withRegs [(1, 0x80000000FFFFFFFF), (2, 0x8000000180000000)] [])
    o.readWR 0 = 0x400000007FFFFFFF := by decide

/-- `WMULWSMR wR0, wR1, wR2`. -/
theorem test_wmulw_2 :
    let o := runs 0xEEE100C2 (withRegs [(1, 0x80000000FFFFFFFF), (2, 0x8000000180000000)] [])
    o.readWR 0 = 0x4000000000000001 := by decide

/-- `WUNPCKELSB wR0, wR1`. -/
theorem test_wunpckel :
    let o := runs 0xEE2100E0 (withRegs [(1, 0x80FF7F0001820000)] [])
    o.readWR 0 = 0x1FF8200000000 ∧ o.casf = 0x804040 := by decide

/-- `WUNPCKELUW wR0, wR1`. -/
theorem test_wunpckel_2 :
    let o := runs 0xEE8100E0 (withRegs [(1, 0x80FF7F0001820000)] [])
    o.readWR 0 = 0x1820000 := by decide

/-- `WUNPCKILB wR0, wR1, wR2`. -/
theorem test_wunpckil :
    let o := runs 0xEE1100E2 (withRegs [(1, 0x8807060504030200), (2, 0x1817161514131200)] [])
    o.readWR 0 = 0x1404130312020000 ∧ o.casf = 0x44 := by decide

/-- `WUNPCKILH wR0, wR1, wR2`. -/
theorem test_wunpckil_2 :
    let o := runs 0xEE5100E2 (withRegs [(1, 0x8807060504030200), (2, 0x1817161514131200)] [])
    o.readWR 0 = 0x1413040312000200 := by decide

/-- `WQMULWM wR0, wR1, wR2`. -/
theorem test_wqmulwm :
    let o := runs 0xEEC100E2 (withRegs [(1, 0x8000000040000000), (2, 0x8000000060000001)] [])
    o.readWR 0 = 0x7FFFFFFF30000000 ∧ o.cssf = 0x80 := by decide

/-- `WQMULWMR wR0, wR1, wR2`. -/
theorem test_wqmulwm_2 :
    let o := runs 0xEEE100E2 (withRegs [(1, 0x8000000040000000), (2, 0x8000000060000001)] [])
    o.readWR 0 = 0x7FFFFFFF30000001 ∧ o.cssf = 0x80 := by decide

/-- `WMULUM wR0, wR1, wR2`. -/
theorem test_wmul :
    let o := runs 0xEE110102 (withRegs [(1, 0x8000FFFF7FFF0003), (2, 0x80000002FFFF0004)] [])
    o.readWR 0 = 0x400000017FFE0000 := by decide

/-- `WMULSMR wR0, wR1, wR2`. -/
theorem test_wmul_2 :
    let o := runs 0xEEF10102 (withRegs [(1, 0x8000FFFF7FFF0003), (2, 0x80000002FFFF0004)] [])
    o.readWR 0 = 0x4000000000000000 := by decide

/-- `WMACUZ wR0, wR1, wR2`. -/
theorem test_wmac :
    let o := runs 0xEE510102 (withRegs [(0, 0x100000000), (1, 0x8000FFFF7FFF0003), (2, 0x80000002FFFF0004)] [])
    o.readWR 0 = 0xC000800B := by decide

/-- `WMACS wR0, wR1, wR2`. -/
theorem test_wmac_2 :
    let o := runs 0xEE610102 (withRegs [(0, 0x100000000), (1, 0x8000FFFF7FFF0003), (2, 0x80000002FFFF0004)] [])
    o.readWR 0 = 0x13FFF800B := by decide

/-- `WMADDUX wR0, wR1, wR2`. -/
theorem test_wmadd :
    let o := runs 0xEE910102 (withRegs [(1, 0x8000FFFF7FFF0003), (2, 0x80000002FFFF0004)] [])
    o.readWR 0 = 0x800080000004FFF9 := by decide

/-- `WMADDSN wR0, wR1, wR2`. -/
theorem test_wmadd_2 :
    let o := runs 0xEEE10102 (withRegs [(1, 0x8000FFFF7FFF0003), (2, 0x80000002FFFF0004)] [])
    o.readWR 0 = 0xBFFFFFFE0000800B := by decide

/-- `WSADB wR0, wR1, wR2`. -/
theorem test_wsad :
    let o := runs 0xEE010122 (withRegs [(0, 0xDEADBEEF00000010), (1, 0xFF10208000FFFF), (2, 0xFF0020108001FFFF)] [])
    o.readWR 0 = 0x22F := by decide

/-- `WSADHZ wR0, wR1, wR2`. -/
theorem test_wsad_2 :
    let o := runs 0xEE510122 (withRegs [(1, 0xFF10208000FFFF), (2, 0xFF0020108001FFFF)] [])
    o.readWR 0 = 0x10DF2 := by decide

/-- `WMIAWBT wR0, wR1, wR2`. -/
theorem test_wmiawxy :
    let o := runs 0xEE910122 (withRegs [(0, 0x64), (1, 0xFFFFFFFE00000003), (2, 0x7FFFFFFF00000005)] [])
    o.readWR 0 = 0x180000061 := by decide

/-- `WMIAWTTN wR0, wR1, wR2`. -/
theorem test_wmiawxy_2 :
    let o := runs 0xEEF10122 (withRegs [(0, 0x64), (1, 0xFFFFFFFE00000003), (2, 0x7FFFFFFF00000005)] [])
    o.readWR 0 = 0x100000062 := by decide

/-- `WMAXSB wR0, wR1, wR2`. -/
theorem test_wmax :
    let o := runs 0xEE210162 ({ withRegs [(1, 0x80017F00FFFF0005), (2, 0x7F017F01FFFE0005)] [] with casf := 0x12345678 })
    o.readWR 0 = 0x7F017F01FFFF0005 := by decide

/-- `WMAXUH wR0, wR1, wR2`. -/
theorem test_wmax_2 :
    let o := runs 0xEE410162 ({ withRegs [(1, 0x80017F00FFFF0005), (2, 0x7F017F01FFFE0005)] [] with casf := 0x12345678 })
    o.readWR 0 = 0x80017F01FFFF0005 := by decide

/-- `WMINSB wR0, wR1, wR2`. -/
theorem test_wmin :
    let o := runs 0xEE310162 ({ withRegs [(1, 0x80017F00FFFF0005), (2, 0x7F017F01FFFE0005)] [] with casf := 0x12345678 })
    o.readWR 0 = 0x80017F00FFFE0005 := by decide

/-- `WMINUW wR0, wR1, wR2`. -/
theorem test_wmin_2 :
    let o := runs 0xEE910162 ({ withRegs [(1, 0x80017F00FFFF0005), (2, 0x7F017F01FFFE0005)] [] with casf := 0x12345678 })
    o.readWR 0 = 0x7F017F01FFFE0005 := by decide

/-- `WADDBSS wR0, wR1, wR2`. -/
theorem test_wadd :
    let o := runs 0xEE310182 (withRegs [(1, 0x7F80FF0170FFFF00), (2, 0x180010110010100)] [])
    o.readWR 0 = 0x7F8000027F000000 ∧ o.casf = 0x8600664 ∧ o.cssf = 0xC8 := by decide

/-- `WADDHC wR0, wR1, wR2`. -/
theorem test_wadd_2 :
    let o := runs 0xEE610182 ({ withRegs [(1, 0xFFFFFFFFFFFFFFFF), (2, 0x1)] [] with casf := 0x200020 })
    o.readWR 0 = 0xFFFF0000FFFF0001 ∧ o.casf = 0x80608020 := by decide

/-- `WSUBB wR0, wR1, wR2`. -/
theorem test_wsub :
    let o := runs 0xEE0101A2 (withRegs [(1, 0x8000017F00100005), (2, 0x100020180100005)] [])
    o.readWR 0 = 0x7F00FF7E80000000 := by decide

/-- `WSUBBSS wR0, wR1, wR2`. -/
theorem test_wsub_2 :
    let o := runs 0xEE3101A2 (withRegs [(1, 0x8000017F00100005), (2, 0x100020180100005)] [])
    o.readWR 0 = 0x8000FF7E7F000000 ∧ o.cssf = 0x88 := by decide

/-- `WADDSUBHX wR0, wR1, wR2`. -/
theorem test_waddsubhx :
    let o := runs 0xEEA101A2 (withRegs [(1, 0x7FFF000180000003), (2, 0x28000FFFF0001)] [])
    o.readWR 0 = 0x7FFF000380000002 ∧ o.cssf = 0x88 := by decide

/-- `WACCB wR0, wR1`. -/
theorem test_wacc :
    let o := runs 0xEE0101C0 (withRegs [(1, 0xFFFFFFFFFFFFFFFF)] [])
    o.readWR 0 = 0x7F8 := by decide

/-- `WACCW wR0, wR1`. -/
theorem test_wacc_2 :
    let o := runs 0xEE8101C0 (withRegs [(1, 0xFFFFFFFFFFFFFFFF)] [])
    o.readWR 0 = 0x1FFFFFFFE := by decide

/-- `WABSDIFFB wR0, wR1, wR2`. -/
theorem test_wabsdiff :
    let o := runs 0xEE1101C2 (withRegs [(1, 0xFF10208000FFFF), (2, 0xFF0020108001FFFF)] [])
    o.readWR 0 = 0xFFFF101000010000 ∧ o.casf = 0x4044 := by decide

/-- `WABSDIFFH wR0, wR1, wR2`. -/
theorem test_wabsdiff_2 :
    let o := runs 0xEE5101C2 (withRegs [(1, 0xFF10208000FFFF), (2, 0xFF0020108001FFFF)] [])
    o.readWR 0 = 0xFE010FF000010000 ∧ o.casf = 0x40 := by decide

/-- `WABSB wR0, wR1`. -/
theorem test_wabs :
    let o := runs 0xEE2101C0 (withRegs [(1, 0x80FF7F0180000001)] [])
    o.readWR 0 = 0x7F017F017F000001 ∧ o.casf = 0x440 := by decide

/-- `WABSW wR0, wR1`. -/
theorem test_wabs_2 :
    let o := runs 0xEEA101C0 (withRegs [(1, 0x8000000000000000)] [])
    o.readWR 0 = 0x7FFFFFFF00000000 ∧ o.casf = 0x4000 := by decide

/-- `WSUBADDHX wR0, wR1, wR2`. -/
theorem test_wsubaddhx :
    let o := runs 0xEED101C2 (withRegs [(1, 0x7FFF000180000003), (2, 0x28000FFFF0001)] [])
    o.readWR 0 = 0xFFFFFFFF80010004 := by decide

/-- `WSHUFH wR0, wR1, #0x1B`. -/
theorem test_wshufh :
    let o := runs 0xEE1101EB (withRegs [(1, 0x8000000033334444)] [])
    o.readWR 0 = 0x4444333300008000 ∧ o.casf = 0x4080 := by decide

/-- `WSHUFH wR0, wR1, #0xE4`. -/
theorem test_wshufh_2 :
    let o := runs 0xEEE101E4 (withRegs [(1, 0x8000000033334444)] [])
    o.readWR 0 = 0x8000000033334444 ∧ o.casf = 0x80400000 := by decide

/-- `WLDRD wR0, [R1, #-8]!`. -/
theorem test_wldr :
    let o := runs 0xED710102 ({ withRegs [] [(1, 0x1010)] with mem := mem16 })
    o.readWR 0 = 0x1F1E1D1C1B1A1918 ∧ o.readX 1 = 0x1008 := by decide

/-- `WLDRH wR0, [R1, #2]`. -/
theorem test_wldr_2 :
    let o := runs 0xEDD10002 ({ withRegs [] [(1, 0x1000)] with bigend := true, mem := mem16 })
    o.readWR 0 = 0x1213 := by decide

/-- `WLDRD wR0, [R1], -R2`. -/
theorem test_wldrd :
    let o := runs 0xFC710102 ({ withRegs [] [(1, 0x1008), (2, 0x10)] with mem := mem16 })
    o.readWR 0 = 0x1F1E1D1C1B1A1918 ∧ o.readX 1 = 0xFF8 := by decide

/-- `WLDRD wR0, [R1, +R2, LSL #4]`. -/
theorem test_wldrd_2 :
    let o := runs 0xFDD10142 ({ withRegs [] [(1, 0xFF8), (2, 0x1)] with bigend := true, mem := mem16 })
    o.readWR 0 = 0x18191A1B1C1D1E1F := by decide

/-- `WLDRW wCGR0, [R1, #4]`. -/
theorem test_wldrw :
    let o := runs 0xFD918101 ({ withRegs [] [(1, 0x1000)] with mem := mem16 })
    o.readCgr 0 = 0x17161514 := by decide

/-- `WSTRH wR3, [R1, #2]`. -/
theorem test_wstr :
    let o := runs 0xEDC13002 (withRegs [(3, 0x8877665544332211)] [(1, 0x2000)])
    readByte o.mem 0x2002 = 0x11 ∧ readByte o.mem 0x2003 = 0x22 := by decide

/-- `WSTRD wR3, [R1, #8]`. -/
theorem test_wstr_2 :
    let o := runs 0xEDC13102 ({ withRegs [(3, 0x8877665544332211)] [(1, 0x2000)] with bigend := true })
    readByte o.mem 0x2008 = 0x88 ∧ readByte o.mem 0x200F = 0x11 := by decide

/-- `WSTRD wR3, [R1, +R2, LSL #3]!`. -/
theorem test_wstrd :
    let o := runs 0xFDE13132 (withRegs [(3, 0x8877665544332211)] [(1, 0x2000), (2, 0x3)])
    o.readX 1 = 0x2018 ∧ readByte o.mem 0x2018 = 0x11 ∧ readByte o.mem 0x201F = 0x88 := by decide

/-- `WSTRW wCASF, [R1], #4`. -/
theorem test_wstrw :
    let o := runs 0xFCA13101 ({ withRegs [] [(1, 0x2000)] with casf := 0x80402010, bigend := true })
    o.readX 1 = 0x2004 ∧ readByte o.mem 0x2000 = 0x80 ∧ readByte o.mem 0x2003 = 0x10 := by decide

/-- `WMOV wR3, wR1`. -/
theorem test_wmov :
    let o := runs 0xEE013001 (withRegs [(1, 0x8001F00F12345678)] [])
    o.readWR 3 = 0x8001F00F12345678 ∧ o.casf = 0x80000000 := by decide

/-- `WZERO wR4`. -/
theorem test_wzero :
    let o := runs 0xEE344004 (withRegs [(4, 0x1234)] [])
    o.readWR 4 = 0x0 ∧ o.casf = 0x40000000 := by decide

/-! ### WellFormed refuses each combination that no word encodes -/

theorem test_wellFormed_wor : (Instr.wor .al 0 1 1).wellFormed = false := by decide
theorem test_wellFormed_wandn : (Instr.wandn .al 4 4 4).wellFormed = false := by decide
theorem test_wellFormed_wadd : (Instr.wadd .al .b .c 0 1 2).wellFormed = false := by decide
theorem test_wellFormed_tmrrc : (Instr.tmrrc .al 4 4 9).wellFormed = false := by decide

/-- R17 and R301: words that are no instruction. -/
theorem test_decode_classes :
    decode 0xEE130130 = .undefined ∧ decode 0xEE040110 = .undefined ∧ decode 0xEE13F03F = .stuck .r15Operand ∧
      (∃ t, decode 0xEE4210D0 = .unpredictable t) ∧ decode 0xEE210202 = .host := by
  refine ⟨by decide, by decide, by decide, ⟨_, rfl⟩, by decide⟩

/-- A skip, a disabled access and a misaligned access (spec/95_test_vectors.md 2.1 and 2.7). -/
theorem test_envelope :
    step (State.reset.handWord 0x0E421010) = .next { State.reset.handWord 0x0E421010 with pc := 0x8004 } ∧
    step ({ State.reset with cpar := 1 }.handWord 0xEE421010) =
      .fault (.raised (.undefinedInstruction 0xEE421010) 0x8000) ∧
    step ((withRegs [] [(1, 0x1001)]).handWord 0xEDD10000) = .fault (.raised (.alignmentFault 0x1001) 0x8000) :=
  ⟨rfl, rfl, rfl⟩

/-- R79: a misaligned store at the top of the address space meets the instruction word at address 0. -/
theorem test_overlaps_wraps :
    overlaps 0xFFFFFFFF 8 { addr := 0, word := 0 } = true ∧ overlaps 0xFFFFFFF8 8 { addr := 0, word := 0 } = false ∧
      overlaps 0x1008 8 { addr := 0x1004, word := 0 } = false ∧ overlaps 0x1007 1 { addr := 0x1004, word := 0 } = true := by
  decide

/-! ### Witnesses: for every obligation with hypotheses, states and operands that meet them -/

theorem withRegs_enabled (wr : List (DReg × DWord)) (x : List (CoreReg × Word)) : Enabled .al (withRegs wr x) :=
  ⟨rfl, show (bitAt (3 : BitVec 2) 0 && bitAt (3 : BitVec 2) 1) = true by decide⟩

/-- A word passes when the condition it carries passes. -/
theorem wordPasses_of {w : Word} {s : State} {c : Cond} (h : condOf (fieldsOf w).c = some c)
    (hc : condPass c s = true) : WordPasses w s := by
  intro d hd
  rw [h] at hd
  cases hd
  exact hc

/-- A word does not pass when the condition it carries fails. -/
theorem not_wordPasses_of {w : Word} {s : State} {c : Cond} (h : condOf (fieldsOf w).c = some c)
    (hc : condPass c s = false) : ¬ WordPasses w s := by
  intro hp
  rw [hp c h] at hc
  cases hc

theorem witness_DecodeEncode :
    (Instr.wor .al 0 1 2).wellFormed = true ∧ (Instr.wandn .al 4 4 5).wellFormed = true ∧
      (Instr.wandn .al 5 4 4).wellFormed = true ∧ (Instr.wadd .al .b .us 0 1 2).wellFormed = true ∧
      (Instr.wadd .al .h .c 0 1 2).wellFormed = true ∧ (Instr.tmrrc .eq 0 14 15).wellFormed = true := by decide

theorem witness_EncodeDecode : decode 0xEE210002 = .instr (.wand .al 0 1 2) := by decide

theorem witness_StepRunsInstruction :
    bitsAt (State.reset.handWord 0xEE210002).pc 0 2 = 0 ∧
      (State.reset.handWord 0xEE210002).fetchWord = some 0xEE210002 ∧ decode 0xEE210002 = .instr (.wand .al 0 1 2) := by
  decide

/-- A pc off by 1, 2 and 3; no word at the pc; words of coprocessor 2 and of no coprocessor form. -/
theorem witness_StepRefuses :
    (∀ p ∈ [0x8001#32, 0x8002#32, 0x8003#32], bitsAt { State.reset with pc := p }.pc 0 2 ≠ 0) ∧
    (bitsAt State.reset.pc 0 2 = 0 ∧ State.reset.fetchWord = none) ∧
    ((State.reset.handWord 0xEE210202).fetchWord = some 0xEE210202 ∧
      ¬ ((bitsAt (0xEE210202 : Word) 24 4 = 14 ∨ bitsAt (0xEE210202 : Word) 25 3 = 6) ∧
        bitsAt (0xEE210202 : Word) 9 3 = 0)) ∧
    ((State.reset.handWord 0xE0000000).fetchWord = some 0xE0000000 ∧
      ¬ (bitsAt (0xE0000000 : Word) 24 4 = 14 ∨ bitsAt (0xE0000000 : Word) 25 3 = 6)) := by
  refine ⟨fun p hp => ?_, by decide, by decide, by decide⟩
  fin_cases hp <;> decide

theorem witness_UndefinedWordRaises :
    (bitsAt (State.reset.handWord 0xEE130130).pc 0 2 = 0 ∧
      (State.reset.handWord 0xEE130130).fetchWord = some 0xEE130130 ∧ decode 0xEE130130 = .undefined ∧
      WordPasses 0xEE130130 (State.reset.handWord 0xEE130130)) ∧
    ((State.reset.handWord 0x0E130130).fetchWord = some 0x0E130130 ∧ decode 0x0E130130 = .undefined ∧
      ¬ WordPasses 0x0E130130 (State.reset.handWord 0x0E130130)) :=
  ⟨⟨by decide, by decide, by decide, wordPasses_of (c := .al) (by decide) (by decide)⟩,
    ⟨by decide, by decide, not_wordPasses_of (c := .eq) (by decide) (by decide)⟩⟩

theorem witness_IllegalDestinationsAreUndefined :
    (14#4 ≠ 15 ∧ 0#4 ≠ 15 ∧ 1#3 ∈ [1#3, 2#3, 3#3, 4#3] ∧ 4#3 ∈ [1#3, 2#3, 3#3, 4#3]) ∧
    (∀ x ∈ [4#4, 7#4, 12#4, 15#4], x ∈ [4#4, 5#4, 6#4, 7#4, 12#4, 13#4, 14#4, 15#4]) := by decide

/-- Both causes; and the operand bits of the clauses, at their ends. -/
theorem witness_StuckWords :
    (∀ p ∈ [(0xEE130030#32 ||| 0xF000#32, StuckCause.r15Operand), (0xEC012100#32, StuckCause.addressMode)],
      bitsAt (State.reset.handWord p.1).pc 0 2 = 0 ∧ (State.reset.handWord p.1).fetchWord = some p.1 ∧
        decode p.1 = .stuck p.2 ∧ WordPasses p.1 (State.reset.handWord p.1) ∧
        accessOk (State.reset.handWord p.1) = true) ∧
    (2#3 ∈ [2#3, 3#3] ∧ 3#3 ∈ [1#3, 3#3] ∧ 0#4 ∈ [0#4, 8#4, 12#4, 13#4, 14#4, 15#4] ∧
      15#4 ∈ [0#4, 8#4, 12#4, 13#4, 14#4, 15#4]) ∧
    ((15#4 = 15 ∨ 0#4 = 15) ∧ (0#4 = 15 ∨ 15#4 = 15)) ∧
    (¬ (0#1 = 0 ∧ 0#1 = 0 ∧ 0#1 = 1 ∧ 0#1 = 0) ∧ ¬ (0#1 = 0 ∧ 1#1 = 0 ∧ 1#1 = 1 ∧ 0#1 = 0)) ∧
    ((1#1 = 1 ∨ 1#1 = 0) ∧ (0#1 = 1 ∨ 0#1 = 0)) := by
  refine ⟨?_, by decide⟩
  intro p hp
  simp only [List.mem_cons, List.not_mem_nil, or_false] at hp
  rcases hp with rfl | rfl
  · exact ⟨by decide, by decide, by decide, wordPasses_of (c := .al) (by decide) (by decide), by decide⟩
  · exact ⟨by decide, by decide, by decide, wordPasses_of (c := .al) (by decide) (by decide), by decide⟩

/-- A row of each CDP map; transfers beside TMCR, TINSR, TMRC, TANDC and TMOVMSK and a reserved TMIA selector; TMCRR with
another cp_num and Opcode2; unconditional words of both classes beside the three kinds. -/
theorem witness_ReservedWordsAreUndefined :
    ((0#3 = 0 ∧ 6#4 ∈ [6#4, 7#4, 10#4, 11#4, 14#4, 15#4]) ∧ (5#3 = 5 ∧ 15#4 ∈ [2#4, 6#4, 12#4, 13#4, 14#4, 15#4])) ∧
    (∀ t ∈ [(1#1, 0#3, 1#3), (0#1, 3#3, 7#3), (0#1, 0#3, 0#3)], t.2.1 ≠ 1 ∧
      ¬ (t.1 = 1 ∧ t.2.1 = 0 ∧ t.2.2 = 0) ∧ ¬ (t.1 = 0 ∧ t.2.1 ∈ [2#3, 3#3] ∧ bitAt t.2.2 0 = false)) ∧
    (1#4 ∉ [0#4, 8#4, 12#4, 13#4, 14#4, 15#4] ∧ 7#4 ∉ [0#4, 8#4, 12#4, 13#4, 14#4, 15#4]) ∧
    (∀ t ∈ [(1#1, 2#3, 0#3), (1#1, 0#3, 5#3), (0#1, 0#3, 2#3), (1#1, 1#3, 1#3)],
      ¬ (t.1 = 1 ∧ t.2.1 = 0 ∧ t.2.2 = 0) ∧
        ¬ (t.1 = 1 ∧ bitAt t.2.1 0 = false ∧ t.2.2 ∈ [1#3, 2#3, 3#3, 4#3]) ∧
        ¬ (t.1 = 0 ∧ bitAt t.2.1 0 = false ∧ t.2.2 ∈ [1#3, 3#3])) ∧
    ((1#1 = 1 ∨ bitsAt 0#8 4 4 ≠ 0) ∧ (0#1 = 1 ∨ bitsAt 0x10#8 4 4 ≠ 0)) ∧
    (∀ w ∈ [0xFE000050#32, 0xFE000020#32, 0xFD900000#32], bitsAt w 28 4 = 15 ∧
      (bitsAt w 24 4 = 14 ∨ bitsAt w 25 3 = 6) ∧ bitsAt w 9 3 = 0 ∧
      ¬ (bitsAt w 25 3 = 6 ∧ bitsAt w 8 4 = 1) ∧ ¬ (bitsAt w 24 4 = 14 ∧ bitsAt w 4 4 = 4)) :=
  ⟨by decide, by simp [bitAt], by decide, by simp [bitAt], by decide, by simp [bitsAt]⟩

theorem witness_UnpredictableWordCompletes :
    bitsAt (State.reset.handWord 0xEE4210D0).pc 0 2 = 0 ∧
      (State.reset.handWord 0xEE4210D0).fetchWord = some 0xEE4210D0 ∧
      (∃ ds, decode 0xEE4210D0 = .unpredictable ds ∧ ds.wRd = some 2 ∧ ds.casf = false ∧ ds.nzcv = false) ∧
      WordPasses 0xEE4210D0 (State.reset.handWord 0xEE4210D0) ∧
      accessOk (State.reset.handWord 0xEE4210D0) = true :=
  ⟨by decide, by decide, ⟨_, rfl, by decide, by decide, by decide⟩,
    wordPasses_of (c := .al) (by decide) (by decide), by decide⟩

theorem witness_ConditionTable : { State.reset with nzcv := 9 }.nzcv = nibbleOf true false false true := by decide

theorem witness_FailedConditionSkips : ¬ WordPasses (encode (.tbcst .eq .b 2 1)) State.reset :=
  not_wordPasses_of (c := .eq) (by decide) (by decide)

/-- One access bit clear, the other, both. -/
theorem witness_DisabledAccessRaises :
    ∀ b ∈ [0#2, 1#2, 2#2], WordPasses (encode (.tbcst .al .b 2 1)) { State.reset with cpar := b } ∧
      ¬ (bitAt b 0 = true ∧ bitAt b 1 = true) :=
  fun b hb => ⟨wordPasses_of (c := .al) (by decide) (by decide +revert), by decide +revert⟩

theorem witness_EnabledInstructionsComplete :
    isLoadOrStore (.wadd .al .b .c 0 1 2) = false ∧ isLoadOrStore (.wrorI .d 0 1 0) = false ∧
      accessOk State.reset = true := by decide

theorem witness_GroupFlags : Enabled .al State.reset ∧ Enabled .vs { State.reset with nzcv := 1 } := by decide

theorem witness_FlagExtraction : Enabled .al { State.reset with cssf := 0x80 } := by decide

theorem witness_FieldToCoreRegister : Enabled .al (withRegs [(3, 0x8877665544332211)] []) := by decide

theorem witness_CoreRegisterToFields : Enabled .al (withRegs [] [(14, 0xDEADBEEF)]) := by decide

theorem witness_PairTransfers :
    Enabled .al (withRegs [(9, 1)] []) ∧ (0 : CoreReg) ≠ 14 ∧ (14 : CoreReg) = 14 := by decide

theorem witness_CoreMultiplyAccumulate : Enabled .al (withRegs [] [(1, 0x80000000), (2, 0x80000000)]) := by decide

theorem witness_ControlRegisterWrite : Enabled .al (withRegs [] [(0, 0xFFFFFFFF)]) := by decide

theorem witness_ControlRegisterRead : Enabled .al { State.reset with mup := true, cssf := 0xFF } := by decide

theorem witness_LogicResults : Enabled .al (withRegs [(1, 5), (2, 6)] []) := by decide

theorem witness_AndXorRules : Enabled .al (withRegs [(1, 0x8000000000000000), (2, 0x8000000000000000)] []) := by
  decide

theorem witness_Averages : Enabled .al (withRegs [(1, 0xFFFFFFFFFFFFFFFF), (2, 0xFFFFFFFFFFFFFFFF)] []) := by decide

/-- Byte offset 7, by bits 2:0 of a wCGR whose upper bits are set. -/
theorem witness_Aligns :
    Enabled .al { State.reset with cgr := State.reset.cgr.set 3 0xFFFFFFFF } ∧
      ({ State.reset with cgr := State.reset.cgr.set 3 0xFFFFFFFF }.readCgr 3).toNat % 8 = 7 := by decide

/-- Amounts at and one below the width 16, 32 and 64, and above it. -/
theorem witness_LogicalShifts :
    ∀ sv ∈ [0#64, 15#64, 16#64, 31#64, 32#64, 63#64, 64#64, 0x1FF#64],
      Enabled .al (withRegs [(1, 0x8001F00F12345678), (2, sv)] []) ∧ accessOk (withRegs [(2, sv)] []) = true :=
  fun _ _ => ⟨withRegs_enabled _ _, (withRegs_enabled _ _).2⟩

theorem witness_ArithmeticShiftsAndRotates :
    ∀ sv ∈ [0#64, 15#64, 16#64, 31#64, 32#64, 63#64, 64#64, 0x1FF#64],
      Enabled .al (withRegs [(1, 0x8001F00F12345678), (2, sv)] []) ∧ accessOk (withRegs [(2, sv)] []) = true :=
  fun _ _ => ⟨withRegs_enabled _ _, (withRegs_enabled _ _).2⟩

theorem witness_ShiftFlagRule :
    Enabled .al State.reset ∧ Instr.wsraG .al .h 0 1 3 ∈ [Instr.wsra .al .h 0 1 2, .wsraG .al .h 0 1 3] := by decide

theorem witness_AbsoluteValues : Enabled .al (withRegs [(1, 0x8000000000000000)] []) := by decide

/-- A field at the carry boundary, with the carry in set; and the sizes that C has. -/
theorem witness_Additions :
    Enabled .al { withRegs [(1, 0xFFFFFFFFFFFFFFFF), (2, 1)] [] with casf := 0x20002000 } ∧
      Bhw.h ≠ .b ∧ Bhw.w ≠ .b := by decide

theorem witness_Subtractions : Enabled .al (withRegs [(1, 0x80), (2, 1)] []) := by decide

theorem witness_ComplexSums : Enabled .al (withRegs [(1, 0x7FFF000180000003), (2, 0x00028000FFFF0001)] []) := by decide

theorem witness_Compares : Enabled .al (withRegs [(1, 0x80), (2, 0x7F)] []) := by decide

theorem witness_MaxMinRules : Enabled .al (withRegs [(1, 0x80), (2, 0x7F)] []) := by decide

theorem witness_FieldSums : Enabled .al (withRegs [(0, 0xFFFFFFFFFFFFFFFF), (1, 0xFFFFFFFFFFFFFFFF)] []) := by decide

theorem witness_HalfWordMultiplyAdd : Enabled .al (withRegs [(1, 0x8000800080008000)] []) := by decide

theorem witness_SelectedMultiplyAccumulate : Enabled .al (withRegs [(1, 0x8000800080008000)] []) := by decide

theorem witness_Products : Enabled .al (withRegs [(1, 0x8000FFFF7FFF0003)] []) := by decide

/-- Both operands -1, one operand -1. -/
theorem witness_FractionalMultiplies :
    Enabled .al (withRegs [(1, 0x8000), (2, 0x8000)] []) ∧ Enabled .al (withRegs [(1, 0x8000), (2, 0x8001)] []) := by
  decide

theorem witness_Packs : Enabled .al (withRegs [(1, 0x00FF01007FFF8000)] []) := by decide

theorem witness_MergeAndShuffle : Enabled .al (withRegs [(1, 0x0807060504030201)] []) := by decide

theorem witness_UnpackExtends : Enabled .al (withRegs [(1, 0x80FF7F0001820000)] []) := by decide

theorem witness_UnpackInterleaves : Enabled .al (withRegs [(1, 0x80FF7F0001820000)] []) := by decide

/-- The highest aligned address of each size, from base 0 with U = 0; the register form; both byte orders. -/
theorem witness_DataLoads :
    ∀ b ∈ [false, true],
      let s := { withRegs [] [(1, 0), (2, 1)] with bigend := b }
      Enabled .al s ∧
        (∀ p ∈ [(Bhwd.b, 1#8), (.h, 2#8), (.w, 1#8), (.d, 2#8)],
          let o := offsetImm (p.1 == .w || p.1 == .d) p.2
          let a := addrOf (.pre false true) (s.readX 1) o
          a.toNat % bhwdBytes p.1 = 0 ∧ a.toNat + bhwdBytes p.1 = 2 ^ 32 ∧ s.refuses a (bhwdBytes p.1) .read = false) ∧
        (addrOf (.pre true false) (s.readX 1) (offsetReg (s.readX 2) 15)).toNat % 8 = 0 := by decide

theorem witness_ControlLoad :
    let s := withRegs [] [(1, 0x1000)]
    accessOk s = true ∧ (addrOf (.post false) (s.readX 1) (offsetImm true 255)).toNat % 4 = 0 ∧
      s.refuses (addrOf (.post false) (s.readX 1) (offsetImm true 255)) 4 .read = false := by decide

/-- As for the loads, with a memory that holds a byte. -/
theorem witness_DataStores :
    ∀ b ∈ [false, true],
      let s := { withRegs [(3, 0x8877665544332211)] [(1, 0), (2, 1)] with bigend := b, mem := [(0xFFFFFFFF, 1)] }
      Memory.wf s.mem = true ∧ Enabled .al s ∧
        (∀ p ∈ [(Bhwd.b, 1#8), (.h, 2#8), (.w, 1#8), (.d, 2#8)],
          let o := offsetImm (p.1 == .w || p.1 == .d) p.2
          let a := addrOf (.pre false true) (s.readX 1) o
          a.toNat % bhwdBytes p.1 = 0 ∧ a.toNat + bhwdBytes p.1 = 2 ^ 32 ∧ s.refuses a (bhwdBytes p.1) .write = false) ∧
        (addrOf (.pre true false) (s.readX 1) (offsetReg (s.readX 2) 15)).toNat % 8 = 0 := by decide

theorem witness_ControlStore :
    let s := { withRegs [] [(1, 0x2000)] with mem := mem16 }
    Memory.wf s.mem = true ∧ accessOk s = true ∧ (addrOf (.post true) (s.readX 1) (offsetImm true 1)).toNat % 4 = 0 ∧
      s.refuses (addrOf (.post true) (s.readX 1) (offsetImm true 1)) 4 .write = false := by decide

/-- One byte off, half off and the last address of the address space, with either value of ALIGN_TRAP. -/
theorem witness_MisalignedAccess :
    ∀ p ∈ [(Bhwd.h, 0x1001#32), (.w, 0x1002#32), (.d, 0x1004#32), (.d, 0xFFFFFFFF#32)], ∀ b ∈ [false, true],
      let s := { withRegs [] [(1, p.2)] with alignTrap := b }
      Enabled .al s ∧ s.alignTrap = b ∧
        (addrOf (.post true) (s.readX 1) (offsetImm true 0)).toNat % bhwdBytes p.1 ≠ 0 := by decide

/-- A refused double word at both ends of a range, and the same access just outside it not refused. -/
theorem witness_RefusedAccessAborts :
    ∀ d ∈ [Direction.read, .write],
      let s := { State.reset with denied := [{ first := 0x1000, last := 0x1008, size := 8, dir := d }] }
      Enabled .al s ∧ s.refuses 0x1000 8 d = true ∧ s.refuses 0x1008 8 d = true ∧ s.refuses 0x1010 8 d = false ∧
        (0x1008 : Word).toNat % 8 = 0 := by decide

/-- Every clause at both of its ends, for n = 8, and n = 1. -/
theorem witness_SaturationLimits :
    (0 < 8 ∧ 0 < 1) ∧ ((128 : Int) > 2 ^ (8 - 1) - 1 ∧ ¬ (127 : Int) > 2 ^ (8 - 1) - 1) ∧
    ((-129 : Int) < -2 ^ (8 - 1) ∧ ¬ (-128 : Int) < -2 ^ (8 - 1)) ∧
    ((256 : Int) > 2 ^ 8 - 1 ∧ ¬ (255 : Int) > 2 ^ 8 - 1) ∧ ((-1 : Int) < 0 ∧ ¬ (0 : Int) < 0) := by decide

theorem witness_FlagFormats : (∀ w ∈ [8, 16, 32, 64], w ∈ [8, 16, 32, 64]) ∧ 7 < 8 ∧ 3 < 4 ∧ 1 < 2 := by decide

/-- A store into the instruction stream at a state with memory. -/
theorem witness_StepKeepsInvariant :
    let s := { withRegs [(3, 0x11)] [(1, 0x8000)] with mem := mem16 }.handWord 0xED813000
    State.Inv s ∧ ∃ t, step s = .next t :=
  ⟨⟨by decide, by decide, rfl⟩, ⟨_, rfl⟩⟩

theorem witness_HostStateIsKept : ∃ t, step (State.reset.handWord 0xEE210002) = .next t := ⟨_, rfl⟩

/-- An instruction that writes no flag, one core register and no memory. -/
theorem witness_CoreStateFrame :
    let i := Instr.wldr .al .d (.post true) 0 1 1
    (∃ t, exec i (withRegs [] [(1, 0x1000)]) = .next t) ∧ writesCpsr i = false ∧ (2 : CoreReg) ∉ coreDests i ∧
      isStore i = false :=
  ⟨⟨_, rfl⟩, by decide, by decide, by decide⟩

theorem witness_SaturationIsSticky :
    let i := Instr.wadd .al .b .us 0 1 2
    (∃ t, exec i { State.reset with cssf := 0x80 } = .next t) ∧ writesCtrl .wCSSF i = false ∧
      bitAt { State.reset with cssf := 0x80 }.cssf 7 = true :=
  ⟨⟨_, rfl⟩, by decide, by decide⟩

/-- An instruction that changes a data register and wCASF, and one that starts with both update bits set. -/
theorem witness_UpdateBits :
    let i := Instr.wor .al 0 1 2
    let s := withRegs [(1, 1)] []
    i.wellFormed = true ∧ (∃ t, exec i s = .next t ∧ t.wR ≠ s.wR) ∧ writesCtrl .wCon i = false ∧
      (∃ t, exec (.wzero .al 0) s = .next t ∧ t.casf ≠ s.casf) ∧
      (∃ t, exec i { s with mup := true, cup := true } = .next t) :=
  ⟨by decide, ⟨_, rfl, by decide⟩, by decide, ⟨_, rfl, by decide⟩, ⟨_, rfl⟩⟩

end Sys2Proof.Tests
end

section
/-! SUPPORT. What the step answers for a word that is no instruction, once its condition passes and the coprocessor is
enabled (spec/30_encoding.md R107). -/

namespace Sys2Proof.Machine

/-- At an aligned pc the step runs the word the host has handed there. -/
theorem step_eq_runWord {s : State} {w : Word} (hpc : bitsAt s.pc 0 2 = 0) (hw : s.fetchWord = some w) :
    step s = runWord exec w s := by
  simp [step, stepWith, hpc, hw]

theorem envelopeOfWord_passes {w : Word} {s : State} {k : Result} (hc : WordPasses w s) (ha : accessOk s = true) :
    envelopeOfWord w s k = k := by
  unfold envelopeOfWord
  split
  · next c h => rw [if_pos (hc c h), whenEnabled_ok ha]
  · exact whenEnabled_ok ha

theorem runWord_stuck {run : Instr → State → Result} {w : Word} {s : State} {why : StuckCause}
    (hd : decode w = .stuck why) (hc : WordPasses w s) (ha : accessOk s = true) :
    runWord run w s = .fault (.unpredictable (.word why w) s.pc) := by
  simp [runWord, hd, envelopeOfWord_passes hc ha]

theorem runWord_unpredictable {run : Instr → State → Result} {w : Word} {s : State} {ds : Dests}
    (hd : decode w = .unpredictable ds) (hc : WordPasses w s) (ha : accessOk s = true) :
    runWord run w s = .next (s.drawDests ds).advance := by
  simp [runWord, hd, envelopeOfWord_passes hc ha, complete_eq]

end Sys2Proof.Machine
end

section
/-! SUPPORT. A place that is no destination of a class P form keeps its value when the destinations take free values
(spec/00_scope.md R17; notes/assumptions/12.md). -/

namespace Sys2Proof.Machine

@[simp] theorem readCgr_advance (s : State) (k : CgrIndex) : s.advance.readCgr k = s.readCgr k := rfl

variable {s : State} {ds : Dests}

theorem readWR_drawDests {e : DReg} (h : ds.wRd ≠ some e) : (s.drawDests ds).readWR e = s.readWR e := by
  cases hd : ds.wRd with
  | none => simp [State.drawDests, State.readWR, hd]
  | some d =>
    have hne : d ≠ e := fun he => h (he ▸ hd)
    simp [State.drawDests, State.readWR, hd, Fin.val_ne_of_ne hne]

theorem readX_drawDests {r : CoreReg} (h : ds.x ≠ some r) : (s.drawDests ds).readX r = s.readX r := by
  cases hd : ds.x with
  | none => simp [State.drawDests, State.readX, hd]
  | some q =>
    have hne : q ≠ r := fun he => h (he ▸ hd)
    simp [State.drawDests, State.readX, hd, Fin.val_ne_of_ne hne]

theorem readCgr_drawDests {k : CgrIndex} (h : ds.cgr ≠ some k) : (s.drawDests ds).readCgr k = s.readCgr k := by
  cases hd : ds.cgr with
  | none => simp [State.drawDests, State.readCgr, hd]
  | some j =>
    have hne : j ≠ k := fun he => h (he ▸ hd)
    simp [State.drawDests, State.readCgr, hd, Fin.val_ne_of_ne hne]

theorem drawDests_casf (h : ds.casf = false) : (s.drawDests ds).casf = s.casf := by simp [State.drawDests, h]

theorem drawDests_cssf (h : ds.cssf = false) : (s.drawDests ds).cssf = s.cssf := by simp [State.drawDests, h]

theorem drawDests_mup (h : ds.mup = false) : (s.drawDests ds).mup = s.mup := by simp [State.drawDests, h]

theorem drawDests_cup (h : ds.cup = false) : (s.drawDests ds).cup = s.cup := by simp [State.drawDests, h]

theorem drawDests_nzcv (h : ds.nzcv = false) : (s.drawDests ds).nzcv = s.nzcv := by simp [State.drawDests, h]

end Sys2Proof.Machine
end

section
/-! SUPPORT. Saturation read as an integer: what a vector holds is the limit that was passed, or the value itself
(spec/00_scope.md R14). -/

namespace Sys2Proof.Machine

/-- A value within the limits of `n` bits is held exactly, signed or unsigned (R12). -/
theorem valOf_ofInt {sg : Sign} {n : Nat} {k : Int} (hn : 0 < n) (hlo : satMin sg n ≤ k) (hhi : k ≤ satMax sg n) :
    valOf sg (BitVec.ofInt n k) = k := by
  cases sg with
  | u =>
    simp only [satMin, satMax] at hlo hhi
    have hmod : k % 2 ^ n = k := Int.emod_eq_of_lt hlo (by omega)
    simp only [valOf, BitVec.toNat_ofInt]
    push_cast
    rw [hmod, Int.toNat_of_nonneg hlo]
  | s =>
    simp only [satMin, satMax] at hlo hhi
    exact BitVec.toInt_ofInt_eq_self hn hlo (by omega)

theorem satMin_le_satMax (sg : Sign) (n : Nat) : satMin sg n ≤ satMax sg n := by
  have hfull : (0 : Int) < 2 ^ n := by positivity
  have hhalf : (0 : Int) < 2 ^ (n - 1) := by positivity
  cases sg <;> simp only [satMin, satMax] <;> omega

section
variable {sg : Sign} {n : Nat} {k : Int}

theorem saturate_of_gt (hn : 0 < n) (h : k > satMax sg n) :
    valOf sg (saturate sg n k) = satMax sg n ∧ saturates sg n k = true := by
  refine ⟨?_, by simp [saturates, h]⟩
  rw [saturate, if_pos h, valOf_ofInt hn (satMin_le_satMax sg n) le_rfl]

theorem saturate_of_lt (hn : 0 < n) (h : k < satMin sg n) :
    valOf sg (saturate sg n k) = satMin sg n ∧ saturates sg n k = true := by
  have hmax : ¬ k > satMax sg n := not_lt_of_ge (h.le.trans (satMin_le_satMax sg n))
  refine ⟨?_, by simp [saturates, h]⟩
  rw [saturate, if_neg hmax, if_pos h, valOf_ofInt hn le_rfl (satMin_le_satMax sg n)]

theorem saturate_of_within (hn : 0 < n) (hmax : ¬ k > satMax sg n) (hmin : ¬ k < satMin sg n) :
    valOf sg (saturate sg n k) = k ∧ saturates sg n k = false := by
  refine ⟨?_, by simp [saturates, hmax, hmin]⟩
  rw [saturate, if_neg hmax, if_neg hmin, valOf_ofInt hn (not_lt.mp hmin) (not_lt.mp hmax)]

end

/-- Without saturation a sum is reduced modulo 2^n (R14). -/
theorem toNat_sumValue_none (n : Nat) (k j : Int) : ((sumValue n none k j).toNat : Int) = k % 2 ^ n := by
  have hpos : (0 : Int) < 2 ^ n := by positivity
  simp only [sumValue, BitVec.toNat_ofInt]
  push_cast
  exact Int.toNat_of_nonneg (Int.emod_nonneg k hpos.ne')

end Sys2Proof.Machine
end

section
/-! SUPPORT. Which part of the decoder a word of Safety.lean reaches, and where that part answers that the word is stuck
or has no supported address mode (spec/30_encoding.md R97 to R99, R103, R105, R108). -/

namespace Sys2Proof

/-! ### Operand fields and addressing modes -/

/-- The condition field of an unconditional word, in the spelling `simp` gives it (spec/30_encoding.md R93). -/
@[simp] theorem condOf_fifteen : condOf 15#4 = none := rfl

/-- R15 is no operand (spec/10_state.md R36). -/
theorem coreOf_eq_none {b : BitVec 4} (h : b = 15) : coreOf b = none := by
  subst h; rfl

/-- The unsupported (P,U,W) are 000 and 010 (spec/46_load_store.md R272). -/
@[simp] theorem modeOf_false_false (u : Bool) : modeOf false u false = none := rfl

/-! ### R15 as an operand -/

section
variable {c : Cond} {f : Fields}

/-- TMCR. -/
theorem decodeMcr_ctrl_r15 {cx : CtrlReg} (hcp : f.cp = true) (hop1 : bitsAt f.op1 1 3 = 0) (hop2 : f.op2 = 0)
    (hx : ctrlOf f.crn = some cx) (hrn : coreOf f.crd = none) : decodeMcr c f = .stuck .r15Operand := by
  simp [decodeMcr, hcp, hop1, hop2, hx, hrn]

/-- TBCST and TINSR, whatever their size. -/
theorem decodeMcr_field_r15 (hcp : f.cp = false) (hop1 : bitsAt f.op1 1 3 = 2 ∨ bitsAt f.op1 1 3 = 3)
    (hop2 : bitAt f.op2 0 = false) (hrn : coreOf f.crd = none) : decodeMcr c f = .stuck .r15Operand := by
  rcases hop1 with htbcst | htinsr
  · simp [decodeMcr, hcp, htbcst, hop2, hrn]
  · simp [decodeMcr, hcp, htinsr, hop2, hrn]

/-- TMRC. -/
theorem decodeMrc_ctrl_r15 {cx : CtrlReg} (hcp : f.cp = true) (hop1 : bitAt f.op1 1 = false)
    (hww : bitsAt f.op1 2 2 = 0) (hop2 : f.op2 = 0) (hx : ctrlOf f.crn = some cx) (hrd : coreOf f.crd = none) :
    decodeMrc c f = .stuck .r15Operand := by
  simp [decodeMrc, hcp, hop1, hww, hop2, hx, hrd]

/-- TMOVMSK and TEXTRM, whatever their size. -/
theorem decodeMrc_field_r15 (hcp : f.cp = false) (hop1 : bitAt f.op1 1 = false) (hop2 : f.op2 = 1 ∨ f.op2 = 3)
    (hrd : coreOf f.crd = none) : decodeMrc c f = .stuck .r15Operand := by
  rcases hop2 with htmovmsk | htextrm
  · simp [decodeMrc, hcp, hop1, htmovmsk, hrd]
  · simp [decodeMrc, hcp, hop1, htextrm, hrd]

/-- The selectors of the TMIA group: 11xy, 0000 and 1000 (R97). -/
theorem tmia_selector {sel : BitVec 4} (h : sel ∈ [0#4, 8#4, 12#4, 13#4, 14#4, 15#4]) :
    (bitAt sel 3 = true ∧ bitAt sel 2 = true) ∨ sel = 0 ∨ sel = 8 := by
  revert sel; decide

/-- TMIA, TMIAPH and TMIAxy. -/
theorem decodeTmia_r15 (hsel : f.crn ∈ [0#4, 8#4, 12#4, 13#4, 14#4, 15#4])
    (h : coreOf f.crd = none ∨ coreOf f.crm = none) : decodeTmia c f = .stuck .r15Operand := by
  rcases tmia_selector hsel with ⟨h3, h2⟩ | htmia | htmiaph
  · rcases h with h | h <;> simp [decodeTmia, h3, h2, h]
  · rcases h with h | h <;> simp [decodeTmia, htmia, h]
  · rcases h with h | h <;> simp [decodeTmia, htmiaph, h]

/-- TMCRR and TMRRC. -/
theorem decodeMcrr_r15 (hcp : f.cp = false) (hop2 : f.op2 = 0) (hb4 : f.b4 = false)
    (h : coreOf f.crn = none ∨ coreOf f.crd = none) : decodeMcrr c f = .stuck .r15Operand := by
  rcases h with h | h <;> simp [decodeMcrr, hcp, hop2, hb4, h]

/-- WLDR and WSTR with an immediate offset. -/
theorem decodeLoadStore_r15 (hrn : coreOf f.crn = none) : decodeLoadStore c f = .stuck .r15Operand := by
  simp [decodeLoadStore, hrn]

/-- WLDRW and WSTRW of a control register. -/
theorem decodeLoadStoreCtrl_r15 {cx : CtrlReg} (hx : ctrlOf f.crd = some cx) (hrn : coreOf f.crn = none) :
    decodeLoadStoreCtrl f = .stuck .r15Operand := by
  simp [decodeLoadStoreCtrl, hx, hrn]

/-- WLDRD and WSTRD with a register offset. -/
theorem decodeLoadStoreReg_r15 (h : coreOf f.crn = none ∨ coreOf f.crm = none) :
    decodeLoadStoreReg f = .stuck .r15Operand := by
  rcases h with h | h <;> simp [decodeLoadStoreReg, h]

/-! ### No supported address mode -/

theorem decodeLoadStore_noMode {rn : CoreReg} (hm : modeOf f.p (bitAt f.op1 3) (bitAt f.op1 1) = none)
    (hrn : coreOf f.crn = some rn) :
    decodeLoadStore c f = unsupportedMode (bitAt f.op1 0) (destsData (dregOf f.crd)) rn := by
  simp [decodeLoadStore, hm, hrn]

theorem decodeLoadStoreCtrl_noMode {rn : CoreReg} {cx : CtrlReg}
    (hm : modeOf f.p (bitAt f.op1 3) (bitAt f.op1 1) = none) (hx : ctrlOf f.crd = some cx)
    (hrn : coreOf f.crn = some rn) :
    decodeLoadStoreCtrl f = unsupportedMode (bitAt f.op1 0) (destsCtrl cx) rn := by
  simp [decodeLoadStoreCtrl, hm, hx, hrn]

theorem decodeLoadStoreReg_noMode {rn rm : CoreReg} (hm : modeOf f.p (bitAt f.op1 3) (bitAt f.op1 1) = none)
    (hrn : coreOf f.crn = some rn) (hrm : coreOf f.crm = some rm) :
    decodeLoadStoreReg f = unsupportedMode (bitAt f.op1 0) (destsData (dregOf f.crd)) rn := by
  simp [decodeLoadStoreReg, hm, hrn, hrm]

end

end Sys2Proof

namespace Sys2Proof.Machine

/-! ### The bits of Opcode1 -/

theorem bitAt_zero_eq_decide (b : BitVec 1) : bitAt b 0 = decide (b = 1) := by
  revert b; decide

theorem bit_ne_one_iff (b : BitVec 1) : ¬ b = 1#1 ↔ b = 0#1 := by
  revert b; decide

theorem bitAt_append_one {n : Nat} (v : BitVec n) (b : BitVec 1) (i : Nat) :
    bitAt (v ++ b) i = if i = 0 then bitAt b i else bitAt v (i - 1) := by
  simp [bitAt, BitVec.getLsbD_append]

/-- Opcode1 of MCR and MRC: three bits, and L (R95, R96). -/
theorem bitsAt_append_one (op1 : BitVec 3) (l : BitVec 1) : bitsAt (op1 ++ l : BitVec 4) 1 3 = op1 := by
  revert op1 l; decide

/-- L of a load or store (R99). -/
theorem bitAt_load (u n w l : BitVec 1) : bitAt (u ++ n ++ w ++ l : BitVec 4) 0 = bitAt l 0 := by
  simp [bitAt_append_one]

/-- P = 0 and W = 0 name no address mode, whatever U is (spec/46_load_store.md R272). -/
theorem modeOf_noMode (u n l : BitVec 1) :
    modeOf (bitAt (0 : BitVec 1) 0) (bitAt (u ++ n ++ (0 : BitVec 1) ++ l : BitVec 4) 3)
      (bitAt (u ++ n ++ (0 : BitVec 1) ++ l : BitVec 4) 1) = none := by
  simp [bitAt_append_one, bitAt_zero_eq_decide]

/-- `I[3:0]` of a load or store (R99). -/
theorem bitsAt_append_right (sh rm : BitVec 4) : bitsAt (sh ++ rm : BitVec 8) 0 4 = rm := by
  revert sh rm; decide

/-! ### The part of the decoder a word reaches (R108) -/

/-- MCR and MRC words. -/
theorem decode_transferWord (c : Cond) (op1 : BitVec 3) (l : BitVec 1) (n d : BitVec 4) (cp : BitVec 1)
    (op2 : BitVec 3) (m : BitVec 4) :
    let f := fieldsOf (transferWord (condBits c) op1 l n d cp op2 m)
    decode (transferWord (condBits c) op1 l n d cp op2 m) =
      if l = 1 then decodeMrc c f else if op1 = 1 then decodeTmia c f else decodeMcr c f := by
  simp [decode, fieldsOf_transferWord, decodeFields, isWmmxWord, decodeCop, bitsAt_append_one,
    bitAt_append_one, bitAt_zero_eq_decide]

/-- MCRR, MRRC, load and store words with a condition. -/
theorem decode_memoryWord_cond (c : Cond) (p u n w l : BitVec 1) (rn rd : BitVec 4) (m : BitVec 1) (off : BitVec 8) :
    let f := fieldsOf (memoryWord (condBits c) p u n w l rn rd m off)
    decode (memoryWord (condBits c) p u n w l rn rd m off) =
      if p = 0 ∧ u = 0 ∧ n = 1 ∧ w = 0 then decodeMcrr c f else decodeLoadStore c f := by
  simp [decode, fieldsOf_memoryWord, decodeFields, isWmmxWord, decodeMem, bitAt_append_one, bitAt_zero_eq_decide,
    bit_ne_one_iff]

/-- Load and store words without a condition. -/
theorem decode_memoryWord_uncond (p u n w l : BitVec 1) (rn rd : BitVec 4) (m : BitVec 1) (off : BitVec 8) :
    let f := fieldsOf (memoryWord 15 p u n w l rn rd m off)
    decode (memoryWord 15 p u n w l rn rd m off) =
      if m = 1 then if n = 1 then decodeLoadStoreReg f else decodeLoadStoreCtrl f else .undefined := by
  simp [decode, fieldsOf_memoryWord, decodeFields, isWmmxWord, decodeMem, bitAt_append_one, bitAt_zero_eq_decide]

/-! ### The words that are stuck, by their rows -/

/-- TMCR and TMRC of a control register that there is. -/
theorem decode_ctrlTransfer_r15 (c : Cond) (l : BitVec 1) (cx : CtrlReg) (crm : BitVec 4) :
    decode (transferWord (condBits c) 0 l (ctrlBits cx) 15 1 0 crm) = .stuck .r15Operand := by
  rw [decode_transferWord, fieldsOf_transferWord]
  split
  · next hl =>
    subst hl
    exact decodeMrc_ctrl_r15 rfl (by simp [bitAt]) (by simp [bitsAt]) rfl (ctrlOf_ctrlBits cx) rfl
  · rw [if_neg (by decide)]
    exact decodeMcr_ctrl_r15 rfl (bitsAt_append_one 0 l) rfl (ctrlOf_ctrlBits cx) rfl

/-- TBCST and TINSR. -/
theorem decode_toField_r15 (c : Cond) (op1 : BitVec 3) (ww : BitVec 2) (wrd crm : BitVec 4) (h : op1 ∈ [2#3, 3#3]) :
    decode (transferWord (condBits c) op1 0 wrd 15 0 (ww ++ 0#1) crm) = .stuck .r15Operand := by
  have hop1 : op1 = 2 ∨ op1 = 3 := by simpa using h
  have hne : op1 ≠ 1 := by rcases hop1 with rfl | rfl <;> decide
  rw [decode_transferWord, if_neg (by decide), if_neg hne, fieldsOf_transferWord]
  refine decodeMcr_field_r15 rfl ?_ (by rw [bitAt_append_one]; rfl) rfl
  rwa [bitsAt_append_one]

/-- TMOVMSK and TEXTRM. -/
theorem decode_fromField_r15 (c : Cond) (ww : BitVec 2) (wrn crm : BitVec 4) (op2 : BitVec 3) (h : op2 ∈ [1#3, 3#3]) :
    decode (transferWord (condBits c) (ww ++ 0#1) 1 wrn 15 0 op2 crm) = .stuck .r15Operand := by
  rw [decode_transferWord, if_pos rfl, fieldsOf_transferWord]
  exact decodeMrc_field_r15 rfl (by simp only [bitAt_append_one]; rfl) (by simpa using h) rfl

/-- TMIA, TMIAPH and TMIAxy. -/
theorem decode_tmia_r15 (c : Cond) (sel rs rm : BitVec 4) (cp : BitVec 1) (op2 : BitVec 3)
    (hsel : sel ∈ [0#4, 8#4, 12#4, 13#4, 14#4, 15#4]) (h : rs = 15 ∨ rm = 15) :
    decode (transferWord (condBits c) 1 0 sel rs cp op2 rm) = .stuck .r15Operand := by
  rw [decode_transferWord, if_neg (by decide), if_pos rfl, fieldsOf_transferWord]
  exact decodeTmia_r15 hsel (h.imp coreOf_eq_none coreOf_eq_none)

/-- TMCRR and TMRRC. -/
theorem decode_pairTransfer_r15 (c : Cond) (l : BitVec 1) (hi lo wr : BitVec 4) (h : hi = 15 ∨ lo = 15) :
    decode (memoryWord (condBits c) 0 0 1 0 l hi lo 0 (0#4 ++ wr)) = .stuck .r15Operand := by
  rw [decode_memoryWord_cond, if_pos (by decide), fieldsOf_memoryWord]
  refine decodeMcrr_r15 rfl ?_ ?_ (h.imp coreOf_eq_none coreOf_eq_none)
  · show bitsAt (0#4 ++ wr : BitVec 8) 5 3 = 0
    revert wr; decide
  · show bitAt (0#4 ++ wr : BitVec 8) 4 = false
    revert wr; decide

/-- WLDR and WSTR with an immediate offset. -/
theorem decode_loadStore_r15 (c : Cond) (p u n w l m : BitVec 1) (wr : BitVec 4) (off : BitVec 8)
    (h : ¬ (p = 0 ∧ u = 0 ∧ n = 1 ∧ w = 0)) :
    decode (memoryWord (condBits c) p u n w l 15 wr m off) = .stuck .r15Operand := by
  rw [decode_memoryWord_cond, if_neg h, fieldsOf_memoryWord]
  exact decodeLoadStore_r15 rfl

/-- WLDRW and WSTRW of a control register that there is. -/
theorem decode_loadStoreCtrl_r15 (p u w l : BitVec 1) (cx : CtrlReg) (off : BitVec 8) :
    decode (memoryWord 15 p u 0 w l 15 (ctrlBits cx) 1 off) = .stuck .r15Operand := by
  rw [decode_memoryWord_uncond, if_pos rfl, if_neg (by decide), fieldsOf_memoryWord]
  exact decodeLoadStoreCtrl_r15 (ctrlOf_ctrlBits cx) rfl

/-- WLDRD and WSTRD with a register offset. -/
theorem decode_loadStoreReg_r15 (p u w l : BitVec 1) (rn rm wr sh : BitVec 4) (h : rn = 15 ∨ rm = 15) :
    decode (memoryWord 15 p u 1 w l rn wr 1 (sh ++ rm)) = .stuck .r15Operand := by
  rw [decode_memoryWord_uncond, if_pos rfl, if_pos rfl, fieldsOf_memoryWord]
  refine decodeLoadStoreReg_r15 (h.imp coreOf_eq_none fun hrm => ?_)
  rw [bitsAt_append_right]
  exact coreOf_eq_none hrm

/-! ### Loads and stores without an address mode, by their rows -/

theorem decode_loadStore_noMode (c : Cond) (u n l m : BitVec 1) (rn : CoreReg) (d : DReg) (off : BitVec 8)
    (h : u = 1 ∨ n = 0) :
    decode (memoryWord (condBits c) 0 u n 0 l (coreBits rn) (dregBits d) m off) =
      unsupportedMode (bitAt l 0) (destsData d) rn := by
  have hldst : ¬ ((0 : BitVec 1) = 0 ∧ u = 0 ∧ n = 1 ∧ (0 : BitVec 1) = 0) := by
    rcases h with rfl | rfl <;> simp
  rw [decode_memoryWord_cond, if_neg hldst, fieldsOf_memoryWord,
    decodeLoadStore_noMode (rn := rn) (modeOf_noMode _ _ _) (coreOf_coreBits rn),
    bitAt_load, dregOf_dregBits]

theorem decode_loadStoreCtrl_noMode (u l : BitVec 1) (rn : CoreReg) (cx : CtrlReg) (off : BitVec 8) :
    decode (memoryWord 15 0 u 0 0 l (coreBits rn) (ctrlBits cx) 1 off) =
      unsupportedMode (bitAt l 0) (destsCtrl cx) rn := by
  rw [decode_memoryWord_uncond, if_pos rfl, if_neg (by decide), fieldsOf_memoryWord,
    decodeLoadStoreCtrl_noMode (rn := rn) (modeOf_noMode _ _ _) (ctrlOf_ctrlBits cx) (coreOf_coreBits rn),
    bitAt_load]

theorem decode_loadStoreReg_noMode (u l : BitVec 1) (rn rm : CoreReg) (d : DReg) (sh : BitVec 4) :
    decode (memoryWord 15 0 u 1 0 l (coreBits rn) (dregBits d) 1 (sh ++ coreBits rm)) =
      unsupportedMode (bitAt l 0) (destsData d) rn := by
  have hrm : coreOf (bitsAt (sh ++ coreBits rm : BitVec 8) 0 4) = some rm := by
    rw [bitsAt_append_right, coreOf_coreBits]
  rw [decode_memoryWord_uncond, if_pos rfl, if_pos rfl, fieldsOf_memoryWord,
    decodeLoadStoreReg_noMode (rn := rn) (modeOf_noMode _ _ _) (coreOf_coreBits rn) hrm,
    bitAt_load, dregOf_dregBits]

end Sys2Proof.Machine
end

section
/-! Statements of spec/00_scope.md: saturation and class P words, settled from the lemmas above. -/

namespace Sys2Proof.Machine

/-- Settles O51: signed and unsigned are the two readings of one rule about the limits. -/
theorem saturationLimits : Obligations.SaturationLimits := by
  intro n k hn
  refine ⟨?_, ?_, toNat_sumValue_none n k⟩
  · split
    · next habove => exact saturate_of_gt (sg := .s) hn habove
    · next habove =>
      split
      · next hbelow => exact saturate_of_lt (sg := .s) hn hbelow
      · next hbelow => exact saturate_of_within (sg := .s) hn habove hbelow
  · split
    · next habove => exact saturate_of_gt (sg := .u) hn habove
    · next habove =>
      split
      · next hbelow =>
        obtain ⟨hval, hsat⟩ := saturate_of_lt (sg := .u) hn hbelow
        exact ⟨Int.natCast_eq_zero.mp hval, hsat⟩
      · next hbelow => exact saturate_of_within (sg := .u) hn habove hbelow

/-- Settles O9: the state reached is the drawn one, one word on. -/
theorem unpredictableWordCompletes : Obligations.UnpredictableWordCompletes := by
  intro s w ds hpc hw hd hc ha
  refine ⟨(s.drawDests ds).advance, ?_, by simp, by simp, by simp, by simp, ?_⟩
  · rw [step_eq_runWord hpc hw, runWord_unpredictable hd hc ha]
  · exact ⟨fun _ => readWR_drawDests, fun _ => readX_drawDests, fun _ => readCgr_drawDests,
      drawDests_casf, drawDests_cssf, drawDests_mup, drawDests_cup, drawDests_nzcv⟩

/-- Settles O8: each clause is the lemma above for its row of R98, R99 or R103. -/
theorem stuckWords : Obligations.StuckWords := by
  refine ⟨?_, decode_ctrlTransfer_r15, decode_toField_r15, decode_fromField_r15, decode_tmia_r15,
    decode_pairTransfer_r15, decode_loadStore_r15, decode_loadStoreCtrl_r15, decode_loadStoreReg_r15, ?_, ?_, ?_⟩
  · intro s w why hpc hw hd hc ha
    rw [step_eq_runWord hpc hw, runWord_stuck hd hc ha]
  · intro c u n m rn d off h
    exact ⟨decode_loadStore_noMode c u n 0 m rn d off h, decode_loadStore_noMode c u n 1 m rn d off h⟩
  · intro u rn cx off
    exact ⟨decode_loadStoreCtrl_noMode u 0 rn cx off, decode_loadStoreCtrl_noMode u 1 rn cx off⟩
  · intro u rn rm d sh
    exact ⟨decode_loadStoreReg_noMode u 0 rn rm d sh, decode_loadStoreReg_noMode u 1 rn rm d sh⟩

end Sys2Proof.Machine
end

section
/-! SUPPORT. What the instructions can write, said once: a next state is reached by writes that the instruction may make,
and then the pc moves on. A statement about every instruction is an induction over these writes. -/

namespace Sys2Proof.Machine

/-- The states that `s` becomes by writes that `i` may make, before the pc moves on. Each write carries what entitles
`i` to it: CPSR (spec/10_state.md R38), core registers (R36), memory (spec/20_memory.md R60). A write of a control
register (R27 to R33) and the free values of an ill-formed term (spec/00_scope.md R17) come before any other write. -/
inductive WrittenBy (i : Instr) (s : State) : State → Prop
  | start : WrittenBy i s s
  | ctrl {cx : CtrlReg} (h : writesCtrl cx i = true) (v : Word) : WrittenBy i s (s.writeCtrl cx v)
  | free {ds : Dests} (h : i.wellFormed = false) (hcssf : ds.cssf = false) (hnzcv : ds.nzcv = false)
      (hx : ∀ r, ds.x = some r → r ∈ coreDests i) : WrittenBy i s (s.drawDests ds)
  | data {u : State} (hu : WrittenBy i s u) (d : DReg) (v : DWord) : WrittenBy i s (u.writeWR d v)
  | casf {u : State} (hu : WrittenBy i s u) (v : Word) : WrittenBy i s (u.setCasf v)
  | cssf {u : State} (hu : WrittenBy i s u) (b : BitVec 8) : WrittenBy i s (u.orCssf b)
  | cssfOnly {u : State} (hu : WrittenBy i s u) (b : BitVec 8) : WrittenBy i s (u.orCssfOnly b)
  | readCtrl {u : State} (hu : WrittenBy i s u) (cx : CtrlReg) : WrittenBy i s (u.afterReadCtrl cx)
  | cpsr {u : State} (hu : WrittenBy i s u) (h : writesCpsr i = true) (v : BitVec 4) : WrittenBy i s (u.writeNzcv v)
  | core {u : State} (hu : WrittenBy i s u) {r : CoreReg} (h : r ∈ coreDests i) (v : Word) : WrittenBy i s (u.writeX r v)
  | base {u : State} (hu : WrittenBy i s u) {am : AddrMode} {rn : CoreReg}
      (h : writesBack am = true → rn ∈ coreDests i) (v : Word) : WrittenBy i s (u.writeBack am rn v)
  | store {u : State} (hu : WrittenBy i s u) (h : isStore i = true) (addr : Word) (n : Nat) (v : DWord) :
      WrittenBy i s (u.memWrite addr n v)

/-- A next state that `i` may answer at `s`. -/
def Completes (i : Instr) (s t : State) : Prop := ∃ u, WrittenBy i s u ∧ t = u.advance

/-! ### The envelope -/

section
variable {i j : Instr} {c : Cond} {s t u : State} {k : Result}

theorem complete_completes (hu : WrittenBy i s u) (h : complete u = .next t) : Completes i s t := by
  cases h
  exact ⟨u, hu, rfl⟩

/-- A condition that fails skips the instruction, which then writes nothing (spec/30_encoding.md R107). -/
theorem conditional_completes (hk : k = .next t → Completes i s t) (h : conditional c j s k = .next t) :
    Completes i s t := by
  rcases conditional_next h with ⟨-, rfl⟩ | ⟨-, -, hrun⟩
  · exact ⟨s, .start, rfl⟩
  · exact hk hrun

theorem conditional_written (hu : WrittenBy i s u) (h : conditional c j s (complete u) = .next t) :
    Completes i s t :=
  conditional_completes (complete_completes hu) h

theorem unconditional_written (hu : WrittenBy i s u) (h : unconditional j s (complete u) = .next t) :
    Completes i s t :=
  complete_completes hu (unconditional_next h).2

end

/-! ### Loads and stores -/

section
variable {i : Instr} {s t u : State} {am : AddrMode} {n : Nat} {d : DReg} {cx : CtrlReg} {rn : CoreReg} {v : DWord}
  {off : Word}

/-- The base register is a destination in the modes that write it back (spec/46_load_store.md R272). -/
theorem mem_baseDest (h : writesBack am = true) : rn ∈ if writesBack am then [rn] else [] := by
  simp [h]

theorem loadData_completes (hrn : writesBack am = true → rn ∈ coreDests i) (h : loadData s am n d rn off = .next t) :
    Completes i s t := by
  obtain ⟨-, -, rfl⟩ := loadData_next h
  exact ⟨_, .base (.data .start d _) hrn _, rfl⟩

theorem loadCtrl_completes (hcx : writesCtrl cx i = true) (hrn : writesBack am = true → rn ∈ coreDests i)
    (h : loadCtrl s am cx rn off = .next t) : Completes i s t := by
  obtain ⟨-, -, rfl⟩ := loadCtrl_next h
  exact ⟨_, .base (.ctrl hcx _) hrn _, rfl⟩

theorem storeValue_completes (hu : WrittenBy i s u) (hi : isStore i = true)
    (hrn : writesBack am = true → rn ∈ coreDests i) (h : storeValue s u am n v rn off = .next t) :
    Completes i s t := by
  obtain ⟨-, -, rfl⟩ := storeValue_next h
  exact ⟨_, .base (.store hu hi _ _ _) hrn _, rfl⟩

end

/-! ### Additions and the pair transfer, which may be ill-formed -/

theorem addFields_written {i : Instr} (s : State) (w : Nat) (k : AddKind) (d n m : DReg) :
    WrittenBy i s (s.addFields w k d n m) := by
  cases k with
  | none | c => exact .casf (.data .start d _) _
  | us | ss => exact .cssf (.casf (.data .start d _) _) _

theorem wadd_completes {c : Cond} {sz : Bhw} {k : AddKind} {d n m : DReg} {s t : State}
    (h : execWadd c sz k d n m s = .next t) : Completes (.wadd c sz k d n m) s t := by
  refine conditional_written ?_ h
  split
  · next hbc =>
    obtain ⟨rfl, rfl⟩ := hbc
    exact .free rfl rfl rfl (by simp [destsAdd, destsFlags])
  · exact addFields_written s _ k d n m

theorem tmrrc_completes {c : Cond} {lo hi : CoreReg} {n : DReg} {s t : State}
    (h : execTmrrc c lo hi n s = .next t) : Completes (.tmrrc c lo hi n) s t := by
  refine conditional_written ?_ h
  split
  · next hsame =>
    subst hsame
    exact .free (by simp [Instr.wellFormed]) rfl rfl (by simp [destsCore, coreDests])
  · exact .core (.core .start (by simp [coreDests]) _) (by simp [coreDests]) _

/-! ### Every instruction -/

/-- An instruction that answers a next state has made only writes that it may make. -/
theorem exec_completes {i : Instr} {s t : State} (h : exec i s = .next t) : Completes i s t := by
  cases i with
  -- the CPSR flags
  | tandc | torc | torvsc | textrc => exact conditional_written (.cpsr .start rfl _) h
  -- core registers
  | textrm | tmovmsk => exact conditional_written (.core .start (List.mem_singleton_self _) _) h
  | tmrc _ _ cx => exact conditional_written (.core (.readCtrl .start cx) (List.mem_singleton_self _) _) h
  | tmrrc => exact tmrrc_completes h
  -- a control register
  | tmcr => exact conditional_written (.ctrl (beq_self_eq_true _) _) h
  -- a data register, no flag
  | tbcst | tinsr | tmcrr | tmia | tmiaph | tmiaxy | waligni | walignr | wmerge | wmiaxy | wmiawxy | wmul | wmulw
  | wmac | wmadd | wsad | wmax | wmin | wacc =>
    exact conditional_written (.data .start _ _) h
  -- a data register and wCASF
  | wor | wxor | wand | wandn | wmov | wzero | wavg2 | wavg4 | wsra | wsraG | wsll | wsllG | wsrl | wsrlG | wror
  | wrorG | wcmpeq | wcmpgt | wabs | wabsdiff | wshufh | wunpckeh | wunpckel | wunpckih | wunpckil =>
    exact conditional_written (.casf (.data .start _ _) _) h
  | wsraI | wsllI | wsrlI | wrorI => exact unconditional_written (.casf (.data .start _ _) _) h
  -- a data register, wCASF and wCSSF
  | wpack | waddsubhx | wsubaddhx => exact conditional_written (.cssf (.casf (.data .start _ _) _) _) h
  | wadd => exact wadd_completes h
  | wsub _ _ k =>
    cases k with
    | none => exact conditional_written (.casf (.data .start _ _) _) h
    | us | ss => exact conditional_written (.cssf (.casf (.data .start _ _) _) _) h
  -- a data register and wCSSF
  | wqmulm | wqmulwm | wqmiaxy => exact conditional_written (.cssfOnly (.data .start _ _) _) h
  -- loads and stores
  | wldr => exact conditional_completes (loadData_completes mem_baseDest) h
  | wldrd => exact loadData_completes mem_baseDest (unconditional_next h).2
  | wldrw => exact loadCtrl_completes (beq_self_eq_true _) mem_baseDest (unconditional_next h).2
  | wstr => exact conditional_completes (storeValue_completes .start rfl mem_baseDest) h
  | wstrd => exact storeValue_completes .start rfl mem_baseDest (unconditional_next h).2
  | wstrw _ cx => exact storeValue_completes (.readCtrl .start cx) rfl mem_baseDest (unconditional_next h).2

/-- A step that answers a next state has skipped its word, has given the destinations of a class P word free values, or
has run an instruction (spec/30_encoding.md R107). -/
theorem step_completes {s t : State} (h : step s = .next t) :
    t = s.advance ∨ (∃ ds, t = (s.drawDests ds).advance) ∨ ∃ i, Completes i s t := by
  obtain ⟨-, word, -, hrun⟩ := stepWith_next h
  rcases runWord_next hrun with ⟨i, -, hi⟩ | hskip | hdraw
  · exact .inr (.inr ⟨i, exec_completes hi⟩)
  · exact .inl hskip
  · exact .inr (.inl hdraw)

end Sys2Proof.Machine
end

section
/-! SUPPORT. What the writes of an instruction keep and record, one induction for each part of the state
(spec/10_state.md R27 to R41, spec/20_memory.md R60). -/

namespace Sys2Proof.Machine

/-- The parts of `s` that no write of an instruction and no free value touches: wCID, the host's controls and the pc. -/
def SameHost (s u : State) : Prop :=
  u.wcid = s.wcid ∧ u.cpar = s.cpar ∧ u.bigend = s.bigend ∧ u.alignTrap = s.alignTrap ∧ u.denied = s.denied ∧
    u.pc = s.pc

theorem sameHost_refl (s : State) : SameHost s s := ⟨rfl, rfl, rfl, rfl, rfl, rfl⟩

theorem sameHost_drawDests (s : State) (ds : Dests) : SameHost s (s.drawDests ds) := by
  simp [SameHost]

section
variable {i : Instr} {s u : State}

theorem WrittenBy.sameHost (h : WrittenBy i s u) : SameHost s u := by
  induction h with
  | start => exact sameHost_refl s
  | ctrl => simp [SameHost]
  | free => exact sameHost_drawDests s _
  | data _ _ _ ih | casf _ _ ih | cssf _ _ ih | cssfOnly _ _ ih | readCtrl _ _ ih | cpsr _ _ _ ih | core _ _ _ ih
  | base _ _ _ ih | store _ _ _ _ _ ih => simpa [SameHost] using ih

/-- Only a store writes memory, and a store keeps the canonical form. -/
theorem WrittenBy.wf_mem (h : WrittenBy i s u) (hs : Memory.wf s.mem = true) : Memory.wf u.mem = true := by
  induction h with
  | start => exact hs
  | ctrl | free => simpa using hs
  | store _ _ _ _ _ ih => exact wf_memWrite ih _ _ _
  | data _ _ _ ih | casf _ _ ih | cssf _ _ ih | cssfOnly _ _ ih | readCtrl _ _ ih | cpsr _ _ _ ih | core _ _ _ ih
  | base _ _ _ ih => simpa using ih

theorem WrittenBy.mem_code (h : WrittenBy i s u) (hi : isStore i = false) : u.mem = s.mem ∧ u.code = s.code := by
  induction h with
  | start => exact ⟨rfl, rfl⟩
  | ctrl | free => simp
  | store _ hst => exact absurd hst (by simp [hi])
  | data _ _ _ ih | casf _ _ ih | cssf _ _ ih | cssfOnly _ _ ih | readCtrl _ _ ih | cpsr _ _ _ ih | core _ _ _ ih
  | base _ _ _ ih => simpa using ih

theorem WrittenBy.nzcv (h : WrittenBy i s u) (hi : writesCpsr i = false) : u.nzcv = s.nzcv := by
  induction h with
  | start => rfl
  | ctrl => simp
  | free _ _ hnzcv _ => exact drawDests_nzcv hnzcv
  | cpsr _ hw => exact absurd hw (by simp [hi])
  | data _ _ _ ih | casf _ _ ih | cssf _ _ ih | cssfOnly _ _ ih | readCtrl _ _ ih | core _ _ _ ih | base _ _ _ ih
  | store _ _ _ _ _ ih => simpa using ih

theorem readX_congr {r : CoreReg} (h : u.x = s.x) : u.readX r = s.readX r := by
  simp [State.readX, h]

theorem readX_writeBack_of_ne {am : AddrMode} {rn r : CoreReg} (h : writesBack am = true → rn ≠ r) (v : Word) :
    (s.writeBack am rn v).readX r = s.readX r := by
  unfold State.writeBack
  split
  · next hwb => rw [readX_writeX, if_neg (h hwb)]
  · rfl

theorem WrittenBy.readX (h : WrittenBy i s u) {r : CoreReg} (hr : r ∉ coreDests i) : u.readX r = s.readX r := by
  induction h with
  | start => rfl
  | ctrl => exact readX_congr (by simp)
  | free _ _ _ hx => exact readX_drawDests fun he => hr (hx r he)
  | core _ hq _ ih => rw [readX_writeX, if_neg (ne_of_mem_of_not_mem hq hr), ih]
  | base _ hrn _ ih => rw [readX_writeBack_of_ne (fun hwb => ne_of_mem_of_not_mem (hrn hwb) hr), ih]
  | data _ _ _ ih | casf _ _ ih | cssf _ _ ih | cssfOnly _ _ ih | readCtrl _ _ ih | cpsr _ _ _ ih
  | store _ _ _ _ _ ih => exact (readX_congr (by simp)).trans ih

/-! ### The saturation flags (spec/10_state.md R27) -/

theorem bitAt_or_left {w : Nat} {a : BitVec w} {k : Nat} (h : bitAt a k = true) (b : BitVec w) :
    bitAt (a ||| b) k = true := by
  unfold bitAt at h ⊢
  rw [BitVec.getLsbD_or, h, Bool.true_or]

theorem writeCtrl_cssf_of_ne {cx : CtrlReg} (h : cx ≠ .wCSSF) (v : Word) : (s.writeCtrl cx v).cssf = s.cssf := by
  cases cx with
  | wCSSF => exact absurd rfl h
  | wCID | wCon | wCASF | wCGR => rfl

/-- An instruction names one control register to write. -/
theorem ne_of_writesCtrl {cx cy : CtrlReg} (h : writesCtrl cx i = true) (hi : writesCtrl cy i = false) : cx ≠ cy := by
  rintro rfl
  exact absurd h (by simp [hi])

theorem WrittenBy.cssf_sticky (h : WrittenBy i s u) (hi : writesCtrl .wCSSF i = false) {k : Nat}
    (hk : bitAt s.cssf k = true) : bitAt u.cssf k = true := by
  induction h with
  | start => exact hk
  | ctrl hw => rwa [writeCtrl_cssf_of_ne (ne_of_writesCtrl hw hi)]
  | free _ hcssf => rwa [drawDests_cssf hcssf]
  | cssf _ b ih => exact bitAt_or_left ih b
  | cssfOnly _ b ih => rw [orCssfOnly_cssf]; exact bitAt_or_left ih b
  | data _ _ _ ih | casf _ _ ih | readCtrl _ _ ih | cpsr _ _ _ ih | core _ _ _ ih | base _ _ _ ih
  | store _ _ _ _ _ ih => simpa using ih

/-! ### The update bits (spec/10_state.md R31 to R33) -/

theorem orCssfOnly_cup_of_cup {b : BitVec 8} (h : s.cup = true) : (s.orCssfOnly b).cup = true := by
  unfold State.orCssfOnly
  split
  · simp [h]
  · rfl

/-- A field that saturates sets CUP (R33). -/
theorem orCssfOnly_cup_of_ne {b : BitVec 8} (h : b ≠ 0) : (s.orCssfOnly b).cup = true := by
  rw [State.orCssfOnly, if_neg h, orCssf_cup]

/-- A control register that changes one of the registers CUP watches sets CUP. -/
theorem writeCtrl_cup_of_changed {cx : CtrlReg} {v : Word}
    (h : (s.writeCtrl cx v).casf ≠ s.casf ∨ (s.writeCtrl cx v).cssf ≠ s.cssf ∨ (s.writeCtrl cx v).cgr ≠ s.cgr) :
    (s.writeCtrl cx v).cup = true := by
  cases cx with
  | wCID | wCon => simp [State.writeCtrl] at h
  | wCSSF | wCASF | wCGR => rfl

theorem writeCtrl_keeps_updateBits {cx : CtrlReg} (h : cx ≠ .wCon) (v : Word) :
    (s.mup = true → (s.writeCtrl cx v).mup = true) ∧ (s.cup = true → (s.writeCtrl cx v).cup = true) := by
  cases cx with
  | wCon => exact absurd rfl h
  | wCID => exact ⟨id, id⟩
  | wCSSF | wCASF | wCGR => exact ⟨id, fun _ => rfl⟩

theorem WrittenBy.mup_of_changed (h : WrittenBy i s u) (hi : i.wellFormed = true) (hne : u.wR ≠ s.wR) :
    u.mup = true := by
  induction h with
  | start => exact absurd rfl hne
  | ctrl => exact absurd (writeCtrl_wR _ _ _) hne
  | free hw => exact absurd hi (by simp [hw])
  | data => rfl
  | casf _ _ ih | cssf _ _ ih | cssfOnly _ _ ih | readCtrl _ _ ih | cpsr _ _ _ ih | core _ _ _ ih | base _ _ _ ih
  | store _ _ _ _ _ ih =>
    simpa using ih (by simpa using hne)

theorem WrittenBy.cup_of_changed (h : WrittenBy i s u) (hi : i.wellFormed = true)
    (hne : u.casf ≠ s.casf ∨ u.cssf ≠ s.cssf ∨ u.cgr ≠ s.cgr) : u.cup = true := by
  induction h with
  | start => simp at hne
  | ctrl => exact writeCtrl_cup_of_changed hne
  | free hw => exact absurd hi (by simp [hw])
  | casf | cssf => rfl
  | cssfOnly _ b ih =>
    by_cases hb : b = 0
    · subst hb
      exact orCssfOnly_cup_of_cup (ih (by simpa using hne))
    · exact orCssfOnly_cup_of_ne hb
  | data _ _ _ ih | readCtrl _ _ ih | cpsr _ _ _ ih | core _ _ _ ih | base _ _ _ ih | store _ _ _ _ _ ih =>
    simpa using ih (by simpa using hne)

theorem WrittenBy.keeps_updateBits (h : WrittenBy i s u) (hwf : i.wellFormed = true)
    (hi : writesCtrl .wCon i = false) : (s.mup = true → u.mup = true) ∧ (s.cup = true → u.cup = true) := by
  induction h with
  | start => exact ⟨id, id⟩
  | ctrl hw => exact writeCtrl_keeps_updateBits (ne_of_writesCtrl hw hi) _
  | free hw => exact absurd hwf (by simp [hw])
  | cssfOnly _ b ih => exact ⟨by simpa using ih.1, fun hs => orCssfOnly_cup_of_cup (ih.2 hs)⟩
  | data _ _ _ ih => exact ⟨fun _ => rfl, ih.2⟩
  | casf _ _ ih | cssf _ _ ih => exact ⟨ih.1, fun _ => rfl⟩
  | readCtrl _ _ ih | cpsr _ _ _ ih | core _ _ _ ih | base _ _ _ ih | store _ _ _ _ _ ih => simpa using ih

end

/-- All that a step does beside moving the pc leaves what is the host's. -/
theorem step_sameHost {s t : State} (h : step s = .next t) : ∃ u, SameHost s u ∧ t = u.advance := by
  rcases step_completes h with hskip | ⟨ds, hdraw⟩ | ⟨i, u, hu, ht⟩
  · exact ⟨s, sameHost_refl s, hskip⟩
  · exact ⟨_, sameHost_drawDests s ds, hdraw⟩
  · exact ⟨u, hu.sameHost, ht⟩

theorem step_wf_mem {s t : State} (h : step s = .next t) (hs : Memory.wf s.mem = true) : Memory.wf t.mem = true := by
  rcases step_completes h with rfl | ⟨ds, rfl⟩ | ⟨i, u, hu, rfl⟩
  · exact hs
  · exact hs
  · exact hu.wf_mem hs

/-- Moving the pc by a word keeps its alignment (spec/10_state.md R37). -/
theorem bitsAt_add_four (a : Word) : bitsAt (a + 4) 0 2 = bitsAt a 0 2 := by
  apply BitVec.eq_of_toNat_eq
  have hfour : (4 : Word).toNat = 4 := rfl
  simp only [bitsAt, BitVec.extractLsb'_toNat, BitVec.toNat_add, hfour]
  omega

end Sys2Proof.Machine
end

section
/-! SUPPORT. The nibbles of wCASF by their bits (spec/10_state.md R25). -/

namespace Sys2Proof.Machine

theorem flagFormat_width {w : Nat} (h : w ∈ [8, 16, 32, 64]) : w = 8 ∨ w = 16 ∨ w = 32 ∨ w = 64 := by
  simpa using h

/-- Nibbles that are 0 up to nibble `n` are `4 * n` bits that are 0. -/
theorem bitsAt_eq_zero_of_nibbles {a : Word} {n : Nat} (h : ∀ k, k < n → field 4 k a = 0) :
    bitsAt a 0 (4 * n) = 0 := by
  apply BitVec.eq_of_getLsbD_eq
  intro j hj
  have hbit := congrArg (fun v => v.getLsbD (j % 4)) (h (j / 4) (by omega))
  simpa [bitsAt, field, hj, Nat.mod_lt, Nat.div_add_mod] using hbit

theorem bitAt_nibbleOf (n z c v : Bool) :
    bitAt (nibbleOf n z c v) 3 = n ∧ bitAt (nibbleOf n z c v) 2 = z ∧ bitAt (nibbleOf n z c v) 1 = c ∧
      bitAt (nibbleOf n z c v) 0 = v := by
  revert n z c v; decide

end Sys2Proof.Machine
end

section
/-! SUPPORT. Where the decoder answers class U for an illegal destination or control register (spec/30_encoding.md R103,
R105, R106). -/

namespace Sys2Proof

/-- The control register numbers 4 to 7 and 12 to 15 are reserved (spec/10_state.md R34). -/
theorem ctrlOf_reserved {x : BitVec 4} (h : x ∈ [4#4, 5#4, 6#4, 7#4, 12#4, 13#4, 14#4, 15#4]) : ctrlOf x = none := by
  revert x; decide

section
variable {c : Cond} {f : Fields}

theorem decodeGroup_undefined {crn : BitVec 4} {ok : Bool} {i : Bhw → Instr} (h : f.crd ≠ 15) :
    decodeGroup f crn ok i = .undefined := by
  rw [decodeGroup, if_neg h]

/-- TANDC, TORC, TEXTRC and TORVSC. -/
theorem decodeMrc_group_undefined (hcp : f.cp = true) (hop1 : bitAt f.op1 1 = false)
    (hop2 : f.op2 ∈ [1#3, 2#3, 3#3, 4#3]) (hrd : f.crd ≠ 15) : decodeMrc c f = .undefined := by
  have hop2 : f.op2 = 1 ∨ f.op2 = 2 ∨ f.op2 = 3 ∨ f.op2 = 4 := by simpa using hop2
  rcases hop2 with htandc | htorc | htextrc | htorvsc
  · simp [decodeMrc, hcp, hop1, htandc, decodeGroup_undefined hrd]
  · simp [decodeMrc, hcp, hop1, htorc, decodeGroup_undefined hrd]
  · simp [decodeMrc, hcp, hop1, htextrc, decodeGroup_undefined hrd]
  · simp [decodeMrc, hcp, hop1, htorvsc, decodeGroup_undefined hrd]

/-- TMRC. -/
theorem decodeMrc_ctrl_undefined (hcp : f.cp = true) (hop1 : bitAt f.op1 1 = false) (hww : bitsAt f.op1 2 2 = 0)
    (hop2 : f.op2 = 0) (hx : ctrlOf f.crn = none) : decodeMrc c f = .undefined := by
  simp [decodeMrc, hcp, hop1, hww, hop2, hx]

/-- TMCR. -/
theorem decodeMcr_ctrl_undefined (hcp : f.cp = true) (hop1 : bitsAt f.op1 1 3 = 0) (hop2 : f.op2 = 0)
    (hx : ctrlOf f.crn = none) : decodeMcr c f = .undefined := by
  simp [decodeMcr, hcp, hop1, hop2, hx]

/-- WLDRW and WSTRW. -/
theorem decodeLoadStoreCtrl_undefined (hx : ctrlOf f.crd = none) : decodeLoadStoreCtrl f = .undefined := by
  simp [decodeLoadStoreCtrl, hx]

end

end Sys2Proof

namespace Sys2Proof.Machine

/-! ### The words, by their rows -/

/-- TANDC, TORC, TORVSC and TEXTRC with a destination other than R15. -/
theorem decode_group_undefined (c : Cond) (ww : BitVec 2) (crn rd crm : BitVec 4) (op2 : BitVec 3) (hrd : rd ≠ 15)
    (hop2 : op2 ∈ [1#3, 2#3, 3#3, 4#3]) :
    decode (transferWord (condBits c) (ww ++ 0#1) 1 crn rd 1 op2 crm) = .undefined := by
  rw [decode_transferWord, if_pos rfl, fieldsOf_transferWord]
  exact decodeMrc_group_undefined rfl (by simp only [bitAt_append_one]; rfl) hop2 hrd

/-- TMCR and TMRC of a control register that there is not. -/
theorem decode_ctrlTransfer_undefined (c : Cond) (x r crm : BitVec 4) (l : BitVec 1)
    (hx : x ∈ [4#4, 5#4, 6#4, 7#4, 12#4, 13#4, 14#4, 15#4]) :
    decode (transferWord (condBits c) 0 l x r 1 0 crm) = .undefined := by
  rw [decode_transferWord, fieldsOf_transferWord]
  split
  · next hl =>
    subst hl
    exact decodeMrc_ctrl_undefined rfl (by simp [bitAt]) (by simp [bitsAt]) rfl (ctrlOf_reserved hx)
  · rw [if_neg (by decide)]
    exact decodeMcr_ctrl_undefined rfl (bitsAt_append_one 0 l) rfl (ctrlOf_reserved hx)

/-- WLDRW and WSTRW of a control register that there is not. -/
theorem decode_loadStoreCtrl_undefined (p u w l : BitVec 1) (rn x : BitVec 4) (off : BitVec 8)
    (hx : x ∈ [4#4, 5#4, 6#4, 7#4, 12#4, 13#4, 14#4, 15#4]) :
    decode (memoryWord 15 p u 0 w l rn x 1 off) = .undefined := by
  rw [decode_memoryWord_uncond, if_pos rfl, if_neg (by decide), fieldsOf_memoryWord]
  exact decodeLoadStoreCtrl_undefined (ctrlOf_reserved hx)

end Sys2Proof.Machine
end

section
/-! Statements of spec/10_state.md, settled from the lemmas above. -/

namespace Sys2Proof.Machine

/-- Settles O53: each value stands in `State.reset`. -/
theorem resetValues : Obligations.ResetValues := ⟨rfl, rfl, rfl, rfl, rfl⟩

/-- Settles O54: the memory of reset is empty and its pc is 0x8000. -/
theorem resetInvariant : Obligations.ResetInvariant := ⟨wf_reset, by decide, rfl⟩

/-- Settles O56: the writes of a step touch nothing of the host's, and the pc moves after them. -/
theorem hostStateIsKept : Obligations.HostStateIsKept := by
  intro s t h
  obtain ⟨u, ⟨hwcid, hcpar, hbigend, halign, hdenied, hpc⟩, rfl⟩ := step_sameHost h
  exact ⟨hwcid, hcpar, hbigend, halign, hdenied, by rw [advance_pc, hpc]⟩

/-- Settles O55: the memory by what the writes keep, the pc and wCID by O56. -/
theorem stepKeepsInvariant : Obligations.StepKeepsInvariant := by
  rintro s t ⟨hmem, halign, hwcid⟩ h
  obtain ⟨hsame, -, -, -, -, hpc⟩ := hostStateIsKept s t h
  exact ⟨step_wf_mem h hmem, by rw [hpc, bitsAt_add_four, halign], hsame.trans hwcid⟩

/-- Settles O57: each part changes only by the write that its instructions are entitled to. -/
theorem coreStateFrame : Obligations.CoreStateFrame := by
  intro i s t h
  obtain ⟨u, hu, rfl⟩ := exec_completes h
  refine ⟨hu.nzcv, fun r => hu.readX, fun hi => ?_⟩
  obtain ⟨hmem, hcode⟩ := hu.mem_code hi
  exact ⟨hcode, fun a => by rw [advance_mem, hmem]⟩

/-- Settles O58: every other write leaves wCSSF or ORs into it. -/
theorem saturationIsSticky : Obligations.SaturationIsSticky := by
  intro i s t h hi k hk
  obtain ⟨u, hu, rfl⟩ := exec_completes h
  exact hu.cssf_sticky hi hk

/-- Settles O59: every write of a watched register sets its bit, and only a write of wCon clears one. -/
theorem updateBits : Obligations.UpdateBits := by
  intro i s t hwf h
  obtain ⟨u, hu, rfl⟩ := exec_completes h
  exact ⟨hu.mup_of_changed hwf, hu.cup_of_changed hwf, hu.keeps_updateBits hwf⟩

/-- Settles O52: each format's clause is its nibbles read at their positions. -/
theorem flagFormats : Obligations.FlagFormats := by
  intro s flags
  have format : ∀ w ∈ [8, 16, 32, 64], IsFlags w (casfOf w flags) flags := fun w hw =>
    isFlags_casfOf (flagFormat_width hw) fun _ _ => rfl
  obtain ⟨h8, -⟩ := format 8 (by decide)
  obtain ⟨h16, h16zero⟩ := format 16 (by decide)
  obtain ⟨h32, -⟩ := format 32 (by decide)
  obtain ⟨h64, h64zero⟩ := format 64 (by decide)
  refine ⟨fun w hw => ⟨format w hw, rfl⟩, ?_, ?_, ?_, ⟨?_, ?_⟩, bitAt_nibbleOf⟩
  · intro k hk
    simpa using h8 k hk
  · intro i hi
    refine ⟨?_, h16zero (2 * i) (by omega) fun j _ => by omega⟩
    simpa [Nat.mul_add] using h16 i hi
  · intro i hi
    simpa [Nat.mul_add] using h32 i hi
  · exact h64 0 (by decide)
  · exact bitsAt_eq_zero_of_nibbles (n := 7) fun k hk => h64zero k (by omega) fun j hj => by omega

/-- Settles O7: each clause is the lemma above for its row of R103 or R106. -/
theorem illegalDestinationsAreUndefined : Obligations.IllegalDestinationsAreUndefined :=
  ⟨decode_group_undefined, decode_ctrlTransfer_undefined, decode_loadStoreCtrl_undefined⟩

end Sys2Proof.Machine
end

section
/-! SUPPORT. Each load and store, once enabled, is one checked access at its effective address; how a checked access stops
is then how the instruction stops (spec/46_load_store.md R280). -/

namespace Sys2Proof.Machine

/-- The scale bit of a size is set for words and double words (spec/46_load_store.md R272). -/
theorem bhwdBits_scale (sz : Bhwd) : (bhwdBits sz).2 = (sz == .w || sz == .d) := by
  cases sz <;> rfl

/-! ### The enabled loads and stores -/

section
variable {s : State}

theorem exec_wldr_enabled {c : Cond} (h : Enabled c s) (sz : Bhwd) (am : AddrMode) (d : DReg) (rn : CoreReg)
    (off : BitVec 8) :
    exec (.wldr c sz am d rn off) s = loadData s am (bhwdBytes sz) d rn (offsetImm (sz == .w || sz == .d) off) := by
  rw [← bhwdBits_scale]
  exact conditional_ok h.1 h.2

theorem exec_wstr_enabled {c : Cond} (h : Enabled c s) (sz : Bhwd) (am : AddrMode) (m : DReg) (rn : CoreReg)
    (off : BitVec 8) :
    exec (.wstr c sz am m rn off) s =
      storeValue s s am (bhwdBytes sz) (s.readWR m) rn (offsetImm (sz == .w || sz == .d) off) := by
  rw [← bhwdBits_scale]
  exact conditional_ok h.1 h.2

theorem exec_wldrd_enabled (h : accessOk s = true) (am : AddrMode) (d : DReg) (rn rm : CoreReg) (sh : BitVec 4) :
    exec (.wldrd am d rn rm sh) s = loadData s am 8 d rn (offsetReg (s.readX rm) sh) :=
  unconditional_ok h

theorem exec_wstrd_enabled (h : accessOk s = true) (am : AddrMode) (m : DReg) (rn rm : CoreReg) (sh : BitVec 4) :
    exec (.wstrd am m rn rm sh) s = storeValue s s am 8 (s.readWR m) rn (offsetReg (s.readX rm) sh) :=
  unconditional_ok h

theorem exec_wldrw_enabled (h : accessOk s = true) (am : AddrMode) (cx : CtrlReg) (rn : CoreReg) (off : BitVec 8) :
    exec (.wldrw am cx rn off) s = loadCtrl s am cx rn (offsetImm true off) :=
  unconditional_ok h

theorem exec_wstrw_enabled (h : accessOk s = true) (am : AddrMode) (cx : CtrlReg) (rn : CoreReg) (off : BitVec 8) :
    exec (.wstrw am cx rn off) s =
      storeValue s (s.afterReadCtrl cx) am 4 ((s.readCtrl cx).setWidth 64) rn (offsetImm true off) :=
  unconditional_ok h

end

/-! ### How an instruction that is a checked access stops -/

section
variable {i : Instr} {s : State} {addr : Word} {n : Nat} {dir : Direction} {k : Result}

/-- Misaligned: by the alignment fault, or without a successor state (spec/20_memory.md R67). -/
theorem exec_misaligned (h : exec i s = checkedAccess s addr n dir k) (ha : addr.toNat % n ≠ 0) :
    (s.alignTrap = true → exec i s = .fault (.raised (.alignmentFault addr) s.pc)) ∧
      (s.alignTrap = false → exec i s = .fault (.unpredictable (.misaligned addr) s.pc)) :=
  ⟨fun ht => h.trans (checkedAccess_trapped ha ht), fun ht => h.trans (checkedAccess_untrapped ha ht)⟩

/-- Aligned and refused: by the data abort (spec/20_memory.md R73). -/
theorem exec_refused (h : exec i s = checkedAccess s addr n dir k) (ha : addr.toNat % n = 0)
    (hr : s.refuses addr n dir = true) : exec i s = .fault (.raised (.dataAbort addr) s.pc) :=
  h.trans (checkedAccess_refused ha hr)

end

end Sys2Proof.Machine
end

section
/-! Statements of spec/20_memory.md on accesses that stop, settled from the lemmas above. -/

namespace Sys2Proof.Machine

/-- Settles O49: the six forms are checked accesses, and every address is a multiple of the size of a byte. -/
theorem misalignedAccess : Obligations.MisalignedAccess := by
  intro c sz am d cx rn rm off sh s hen
  exact ⟨exec_misaligned (exec_wldr_enabled hen sz am d rn off),
    exec_misaligned (exec_wstr_enabled hen sz am d rn off),
    exec_misaligned (exec_wldrd_enabled hen.2 am d rn rm sh),
    exec_misaligned (exec_wstrd_enabled hen.2 am d rn rm sh),
    exec_misaligned (exec_wldrw_enabled hen.2 am cx rn off),
    exec_misaligned (exec_wstrw_enabled hen.2 am cx rn off),
    rfl, fun a => Nat.mod_one a.toNat⟩

/-- Settles O50: the six forms are checked accesses in their direction, loads reading and stores writing. -/
theorem refusedAccessAborts : Obligations.RefusedAccessAborts := by
  intro c sz am d cx rn rm off sh s hen
  exact ⟨exec_refused (exec_wldr_enabled hen sz am d rn off),
    exec_refused (exec_wstr_enabled hen sz am d rn off),
    exec_refused (exec_wldrd_enabled hen.2 am d rn rm sh),
    exec_refused (exec_wstrd_enabled hen.2 am d rn rm sh),
    exec_refused (exec_wldrw_enabled hen.2 am cx rn off),
    exec_refused (exec_wstrw_enabled hen.2 am cx rn off)⟩

end Sys2Proof.Machine
end

section
/-! SUPPORT. Every value of an operand field is the field of an operand or is reserved (spec/30_encoding.md R93 to R103,
spec/10_state.md R22, R23, R36): the converse of the facts of Laws/Encoding.lean. -/

namespace Sys2Proof

theorem cond_cases (b : BitVec 4) :
    b = 15#4 ∨
      ∃ c ∈ [Cond.eq, .ne, .cs, .cc, .mi, .pl, .vs, .vc, .hi, .ls, .ge, .lt, .gt, .le, .al], b = condBits c := by
  revert b; decide

theorem core_cases (b : BitVec 4) : coreOf b = none ∨ ∃ r, b = coreBits r := by
  revert b; decide

theorem ctrl_cases (b : BitVec 4) :
    ctrlOf b = none ∨
      ∃ cx ∈ [.wCID, .wCon, .wCSSF, .wCASF, .wCGR 0, .wCGR 1, .wCGR 2, .wCGR 3], b = ctrlBits cx := by
  revert b; decide

theorem cgr_cases (b : BitVec 4) : cgrOf b = none ∨ ∃ k, b = ctrlBits (.wCGR k) := by
  revert b; decide

theorem bhw_cases (ww : BitVec 2) : ww = 3#2 ∨ ∃ sz ∈ [Bhw.b, .h, .w], ww = bhwBits sz := by
  revert ww; decide

theorem hwd_cases (ww : BitVec 2) : ww = 0#2 ∨ ∃ sz ∈ [Hwd.h, .w, .d], ww = hwdBits sz := by
  revert ww; decide

theorem addKind_cases (ss : BitVec 2) : ∃ k ∈ [AddKind.none, .us, .ss, .c], ss = addKindBits k := by
  revert ss; decide

theorem mode_cases (p u w : Bool) :
    modeOf p u w = none ∨ ∃ am, p = modeP am ∧ u = modeU am ∧ w = modeW am := by
  cases p with
  | true => exact .inr ⟨.pre u w, rfl, rfl, rfl⟩
  | false =>
    cases w with
    | true => exact .inr ⟨.post u, rfl, rfl, rfl⟩
    | false => exact .inl rfl

theorem signBit_surjective : Function.Surjective signBit := fun b => ⟨signOf b, by cases b <;> rfl⟩

theorem halfBit_surjective : Function.Surjective halfBit := fun b => ⟨halfOf b, by cases b <;> rfl⟩

theorem bhBit_surjective : Function.Surjective bhBit := fun b => ⟨bhOf b, by cases b <;> rfl⟩

theorem packKindBit_surjective : Function.Surjective packKindBit := fun b => ⟨packKindOf b, by cases b <;> rfl⟩

/-- Every pair (N, M) is a size (spec/46_load_store.md R271). -/
theorem bhwd_cases (n m : Bool) : ∃ sz, bhwdBits sz = (n, m) := ⟨bhwdOf n m, by cases n <;> cases m <;> rfl⟩

@[simp] theorem bhwOf_three : bhwOf 3#2 = none := rfl

@[simp] theorem hwdOf_zero : hwdOf 0#2 = none := rfl

@[simp] theorem addKindOf_addKindBits (k : AddKind) : addKindOf (addKindBits k) = k := by
  cases k <;> rfl

/-- The constant field of a form holds its constant, or the word is class P (spec/30_encoding.md R105 (iv)). -/
@[simp] theorem orUnpredictable_true (ds : Dests) (i : Instr) : orUnpredictable true ds i = .instr i := rfl

@[simp] theorem orUnpredictable_eq_instr {ok : Bool} {ds : Dests} {i j : Instr} :
    orUnpredictable ok ds i = .instr j ↔ ok = true ∧ i = j := by
  cases ok <;> simp [orUnpredictable]

end Sys2Proof
end

section
/-! SUPPORT. The slices of the fields that the bit rows of spec/30_encoding.md compose of smaller ones, and the pieces
that a field is composed of. -/

namespace Sys2Proof

/-! ### Opcode1 of CDP -/

section
variable (hi lo : BitVec 2) (a b : Bool)

@[simp] theorem bitsAt_op1Of : bitsAt (op1Of hi lo) 2 2 = hi ∧ bitsAt (op1Of hi lo) 0 2 = lo := by
  revert hi lo; decide

@[simp] theorem bitAt_op1Of :
    bitAt (op1Of hi lo) 3 = bitAt hi 1 ∧ bitAt (op1Of hi lo) 2 = bitAt hi 0 ∧ bitAt (op1Of hi lo) 1 = bitAt lo 1 ∧
      bitAt (op1Of hi lo) 0 = bitAt lo 0 := by
  revert hi lo; decide

@[simp] theorem bitAt_pair : bitAt (pair a b) 1 = a ∧ bitAt (pair a b) 0 = b := by
  revert a b; decide

/-- The two-bit operation codes that the rows write as numbers (R180, R195). -/
@[simp] theorem bitAt_operation :
    bitAt 1#2 1 = false ∧ bitAt 1#2 0 = true ∧
      bitAt 2#2 1 = true ∧ bitAt 2#2 0 = false ∧ bitAt 3#2 1 = true ∧ bitAt 3#2 0 = true := by
  decide

end

@[simp] theorem bitAt_zero {w : Nat} (i : Nat) : bitAt 0#w i = false := by
  simp [bitAt]

@[simp] theorem bitsAt_zero {w : Nat} (lo len : Nat) : bitsAt 0#w lo len = 0#len := by
  simp [bitsAt]

/-- The selector of TMIAPH is none of TMIAxy (R97). -/
@[simp] theorem bitAt_tmiaph : bitAt 8#4 2 = false := by
  decide

theorem op1_eq_op1Of (op1 : BitVec 4) : ∃ hi lo, op1 = op1Of hi lo := by
  revert op1; decide

theorem eq_pair (v : BitVec 2) : ∃ a b, v = pair a b := by
  revert v; decide

theorem two_bits (v : BitVec 2) : v = 0#2 ∨ v = 1#2 ∨ v = 2#2 ∨ v = 3#2 := by
  revert v; decide

/-! ### Sizes and immediates -/

section
variable (ww : BitVec 2) (imm : BitVec 3) (b : Bool)

/-- `ww` and a zero: Opcode2 of TBCST and TINSR (R103). -/
@[simp] theorem sizeField_slices : bitAt (ww ++ 0#1) 0 = false ∧ bitsAt (ww ++ 0#1) 1 2 = ww := by
  revert ww; decide

/-- Imm3 in `I[3:0]`. -/
@[simp] theorem imm3_slices : bitAt (0#1 ++ imm) 3 = false ∧ bitsAt (0#1 ++ imm) 0 3 = imm := by
  revert imm; decide

/-- The sign and Imm3 of TEXTRM. -/
@[simp] theorem signImm3_slices :
    bitAt (BitVec.ofBool b ++ imm) 3 = b ∧ bitsAt (BitVec.ofBool b ++ imm) 0 3 = imm := by
  revert b imm; decide

/-- Imm3 of WMERGE. -/
@[simp] theorem mergeImm_slices : bitAt (imm ++ 0#1) 0 = false ∧ bitsAt (imm ++ 0#1) 1 3 = imm := by
  revert imm; decide

/-- wCGRk of WALIGNR. -/
@[simp] theorem alignCgr_slices (k : BitVec 2) :
    bitAt (2#2 ++ k) 3 = true ∧ bitAt (2#2 ++ k) 2 = false ∧ bitsAt (2#2 ++ k) 0 2 = k := by
  revert k; decide

end

@[simp] theorem bit_append_bits4 (v : BitVec 4) : BitVec.ofBool (bitAt v 3) ++ bitsAt v 0 3 = v := by
  revert v; decide

theorem bits_append_bit4 (v : BitVec 4) : bitsAt v 1 3 ++ BitVec.ofBool (bitAt v 0) = v := by
  revert v; decide

@[simp] theorem bit_append_bits5 (v : BitVec 5) : BitVec.ofBool (bitAt v 4) ++ bitsAt v 0 4 = v := by
  revert v; decide

@[simp] theorem bits_append_bits8 (v : BitVec 8) : bitsAt v 4 4 ++ bitsAt v 0 4 = v := by
  revert v; decide

/-- `I[7:0]` is Opcode2, bit 4 and `I[3:0]`. -/
@[simp] theorem offset_slices (v : BitVec 8) : bitsAt v 5 3 ++ BitVec.ofBool (bitAt v 4) ++ bitsAt v 0 4 = v := by
  revert v; decide

theorem offset_parts (op2 : BitVec 3) (b4 : Bool) (crm : BitVec 4) :
    bitsAt (op2 ++ BitVec.ofBool b4 ++ crm) 5 3 = op2 ∧ bitAt (op2 ++ BitVec.ofBool b4 ++ crm) 4 = b4 ∧
      bitsAt (op2 ++ BitVec.ofBool b4 ++ crm) 0 4 = crm := by
  revert op2 b4 crm; decide

/-- A shift and a register in `I[7:0]` (R99 variant (c)). -/
@[simp] theorem shiftRm_slices (sh rm : BitVec 4) :
    bitsAt (sh ++ rm) 5 3 ++ BitVec.ofBool (bitAt (sh ++ rm) 4) = sh ∧ bitsAt (sh ++ rm) 0 4 = rm := by
  revert sh rm; decide

/-! ### The fields of the transfers, loads and stores -/

section
variable (c : Cond) (opcode1 : BitVec 3) (l : Bool) (crn crd : BitVec 4) (cp : Bool) (op2 : BitVec 3) (m : BitVec 4)

/-- MCR and MRC (R95, R96). -/
@[simp] theorem xferFields_slices :
    (xferFields c opcode1 l crn crd cp op2 m).c = condBits c ∧ (xferFields c opcode1 l crn crd cp op2 m).crn = crn ∧
      (xferFields c opcode1 l crn crd cp op2 m).crd = crd ∧ (xferFields c opcode1 l crn crd cp op2 m).cp = cp ∧
      (xferFields c opcode1 l crn crd cp op2 m).op2 = op2 ∧ (xferFields c opcode1 l crn crd cp op2 m).b4 = true ∧
      (xferFields c opcode1 l crn crd cp op2 m).crm = m :=
  ⟨rfl, rfl, rfl, rfl, rfl, rfl, rfl⟩

/-- Opcode1 of MCR and MRC is followed by L (R95, R96). -/
@[simp] theorem xferFields_op1 :
    bitAt (xferFields c opcode1 l crn crd cp op2 m).op1 0 = l ∧
      bitAt (xferFields c opcode1 l crn crd cp op2 m).op1 1 = bitAt opcode1 0 ∧
      bitsAt (xferFields c opcode1 l crn crd cp op2 m).op1 1 3 = opcode1 ∧
      bitsAt (xferFields c opcode1 l crn crd cp op2 m).op1 2 2 = bitsAt opcode1 1 2 := by
  simp only [xferFields]
  revert opcode1 l; decide

/-- MCRR and MRRC (R98). -/
@[simp] theorem mcrrFields_slices (hi lo : CoreReg) (d : DReg) :
    (mcrrFields c l hi lo d).crn = coreBits hi ∧ (mcrrFields c l hi lo d).crd = coreBits lo ∧
      (mcrrFields c l hi lo d).cp = false ∧ (mcrrFields c l hi lo d).op2 = 0#3 ∧
      (mcrrFields c l hi lo d).b4 = false ∧ (mcrrFields c l hi lo d).crm = dregBits d ∧
      bitAt (mcrrFields c l hi lo d).op1 0 = l := by
  refine ⟨rfl, rfl, rfl, rfl, rfl, rfl, ?_⟩
  cases l <;> simp [mcrrFields, bitAt]

end

section
variable (c : BitVec 4) (am : AddrMode) (n l : Bool) (rn : CoreReg) (crd : BitVec 4) (m : Bool) (off : BitVec 8)

/-- LDC and STC (R99). -/
@[simp] theorem ldcFields_slices :
    (ldcFields c am n l rn crd m off).c = c ∧ (ldcFields c am n l rn crd m off).p = modeP am ∧
      (ldcFields c am n l rn crd m off).crn = coreBits rn ∧ (ldcFields c am n l rn crd m off).crd = crd ∧
      (ldcFields c am n l rn crd m off).cp = m ∧ (ldcFields c am n l rn crd m off).crm = bitsAt off 0 4 :=
  ⟨rfl, rfl, rfl, rfl, rfl, rfl⟩

/-- U, N, W and L (R99). -/
@[simp] theorem ldcFields_op1 :
    bitAt (ldcFields c am n l rn crd m off).op1 3 = modeU am ∧ bitAt (ldcFields c am n l rn crd m off).op1 2 = n ∧
      bitAt (ldcFields c am n l rn crd m off).op1 1 = modeW am ∧
      bitAt (ldcFields c am n l rn crd m off).op1 0 = l := by
  simp only [ldcFields]
  generalize modeU am = u, modeW am = w
  revert u n w l; decide

/-- `I[7:0]` (R99). -/
@[simp] theorem offsetOf_ldcFields : offsetOf (ldcFields c am n l rn crd m off) = off :=
  offset_slices off

/-- The shift of a register offset (R99 variant (c)). -/
@[simp] theorem ldcFields_shift (sh rm : BitVec 4) :
    (ldcFields c am n l rn crd m (sh ++ rm)).op2 ++ BitVec.ofBool (ldcFields c am n l rn crd m (sh ++ rm)).b4 = sh :=
  (shiftRm_slices sh rm).1

end

end Sys2Proof
end

section
/-! SUPPORT. The part of the decoder that the fields of each format reach (spec/30_encoding.md R94 to R103, R108). -/

namespace Sys2Proof

/-! ### CDP: the group of each cp_num and Opcode2 (R101, R102) -/

section
variable (c : Cond) (op1 : BitVec 4) (n d : DReg) (m : BitVec 4)

theorem decodeFields_cdpFields (cp : Bool) (op2 : BitVec 3) :
    decodeFields (cdpFields (condBits c) op1 n d cp op2 m) = decodeCdp c (cdpFields (condBits c) op1 n d cp op2 m) := by
  simp [decodeFields, isWmmxWord, cdpFields, decodeCop]

@[simp] theorem decodeFields_misc :
    decodeFields (cdpFields (condBits c) op1 n d false 0#3 m) = decodeMisc c op1 d n (dregOf m) :=
  decodeFields_cdpFields ..

@[simp] theorem decodeFields_align :
    decodeFields (cdpFields (condBits c) op1 n d false 1#3 m) = decodeAlign c op1 d n (dregOf m) :=
  decodeFields_cdpFields ..

@[simp] theorem decodeFields_shift :
    decodeFields (cdpFields (condBits c) op1 n d false 2#3 m) = decodeShift c op1 d n (dregOf m) :=
  decodeFields_cdpFields ..

@[simp] theorem decodeFields_compare :
    decodeFields (cdpFields (condBits c) op1 n d false 3#3 m) = decodeCompare c op1 d n (dregOf m) :=
  decodeFields_cdpFields ..

@[simp] theorem decodeFields_pack :
    decodeFields (cdpFields (condBits c) op1 n d false 4#3 m) = decodePack c op1 d n (dregOf m) :=
  decodeFields_cdpFields ..

@[simp] theorem decodeFields_mia :
    decodeFields (cdpFields (condBits c) op1 n d false 5#3 m) = decodeMia c op1 d n (dregOf m) :=
  decodeFields_cdpFields ..

@[simp] theorem decodeFields_unpackHigh :
    decodeFields (cdpFields (condBits c) op1 n d false 6#3 m) = decodeUnpackHigh c op1 d n (dregOf m) m :=
  decodeFields_cdpFields ..

@[simp] theorem decodeFields_unpackLow :
    decodeFields (cdpFields (condBits c) op1 n d false 7#3 m) = decodeUnpackLow c op1 d n (dregOf m) m :=
  decodeFields_cdpFields ..

@[simp] theorem decodeFields_multiply :
    decodeFields (cdpFields (condBits c) op1 n d true 0#3 m) = decodeMultiply c op1 d n (dregOf m) :=
  decodeFields_cdpFields ..

@[simp] theorem decodeFields_difference :
    decodeFields (cdpFields (condBits c) op1 n d true 1#3 m) = decodeDifference c op1 d n (dregOf m) :=
  decodeFields_cdpFields ..

@[simp] theorem decodeFields_shiftG :
    decodeFields (cdpFields (condBits c) op1 n d true 2#3 m) = decodeShiftG c op1 d n m :=
  decodeFields_cdpFields ..

@[simp] theorem decodeFields_maxMin :
    decodeFields (cdpFields (condBits c) op1 n d true 3#3 m) = decodeMaxMin c op1 d n (dregOf m) :=
  decodeFields_cdpFields ..

@[simp] theorem decodeFields_add :
    decodeFields (cdpFields (condBits c) op1 n d true 4#3 m) = decodeAdd c op1 d n (dregOf m) :=
  decodeFields_cdpFields ..

@[simp] theorem decodeFields_sub :
    decodeFields (cdpFields (condBits c) op1 n d true 5#3 m) = decodeSub c op1 d n (dregOf m) :=
  decodeFields_cdpFields ..

@[simp] theorem decodeFields_acc :
    decodeFields (cdpFields (condBits c) op1 n d true 6#3 m) = decodeAcc c op1 d n (dregOf m) m :=
  decodeFields_cdpFields ..

@[simp] theorem decodeFields_shufh :
    decodeFields (cdpFields (condBits c) op1 n d true 7#3 m) = .instr (.wshufh c d n (op1 ++ m)) :=
  decodeFields_cdpFields ..

end

/-- The immediate shifts (R100). -/
@[simp] theorem decodeFields_shiftI (op1 : BitVec 4) (n d : DReg) (cp : Bool) (m : BitVec 4) :
    decodeFields (cdpFields 15#4 op1 n d cp 2#3 m) = decodeShiftI op1 d n (BitVec.ofBool cp ++ m) := by
  simp [decodeFields, isWmmxWord, cdpFields, decodeCop]

/-! ### The transfers (R95 to R98, R103) -/

section
variable (c : Cond) (opcode1 : BitVec 3) (crn crd : BitVec 4) (cp : Bool) (op2 : BitVec 3) (m : BitVec 4)

theorem decodeCop_xferFields (l : Bool) :
    decodeCop (xferFields c opcode1 l crn crd cp op2 m) =
      if l then decodeMrc c (xferFields c opcode1 l crn crd cp op2 m)
      else if opcode1 = 1#3 then decodeTmia c (xferFields c opcode1 l crn crd cp op2 m)
      else decodeMcr c (xferFields c opcode1 l crn crd cp op2 m) := by
  simp [decodeCop]

/-- MRC (R96). -/
@[simp] theorem decodeFields_mrc :
    decodeFields (xferFields c opcode1 true crn crd cp op2 m) =
      decodeMrc c (xferFields c opcode1 true crn crd cp op2 m) :=
  decodeCop_xferFields ..

/-- The TMIA form of MCR (R97). -/
@[simp] theorem decodeFields_tmia :
    decodeFields (xferFields c 1#3 false crn crd cp op2 m) =
      decodeTmia c (xferFields c 1#3 false crn crd cp op2 m) :=
  decodeCop_xferFields ..

/-- The other MCR words (R95). -/
theorem decodeFields_mcr (h : opcode1 ≠ 1#3) :
    decodeFields (xferFields c opcode1 false crn crd cp op2 m) =
      decodeMcr c (xferFields c opcode1 false crn crd cp op2 m) :=
  (decodeCop_xferFields ..).trans (by rw [if_neg (by decide), if_neg h])

end

/-- MCRR and MRRC (R98). -/
@[simp] theorem decodeFields_mcrr (c : Cond) (l : Bool) (hi lo : CoreReg) (d : DReg) :
    decodeFields (mcrrFields c l hi lo d) = decodeMcrr c (mcrrFields c l hi lo d) := by
  cases l <;> simp [decodeFields, isWmmxWord, mcrrFields, decodeMem, bitAt]

/-! ### Loads and stores (R99) -/

section
variable (am : AddrMode) (l : Bool) (rn : CoreReg) (crd : BitVec 4) (off : BitVec 8)

/-- Variant (a). -/
@[simp] theorem decodeFields_ldc_cond (c : Cond) (n m : Bool) :
    decodeFields (ldcFields (condBits c) am n l rn crd m off) =
      decodeLoadStore c (ldcFields (condBits c) am n l rn crd m off) := by
  change decodeMem (ldcFields (condBits c) am n l rn crd m off) = _
  cases am <;> simp [decodeMem, modeP, modeW]

/-- Variant (b). -/
@[simp] theorem decodeFields_ldc_ctrl :
    decodeFields (ldcFields 15#4 am false l rn crd true off) =
      decodeLoadStoreCtrl (ldcFields 15#4 am false l rn crd true off) := by
  change decodeMem (ldcFields 15#4 am false l rn crd true off) = _
  simp [decodeMem]

/-- Variant (c). -/
@[simp] theorem decodeFields_ldc_reg :
    decodeFields (ldcFields 15#4 am true l rn crd true off) =
      decodeLoadStoreReg (ldcFields 15#4 am true l rn crd true off) := by
  change decodeMem (ldcFields 15#4 am true l rn crd true off) = _
  simp [decodeMem]

end

end Sys2Proof
end

section
/-! SUPPORT. The decoder reads the encoder's fields back, group by group of the opcode maps (spec/30_encoding.md
R94 to R103). -/

namespace Sys2Proof

/-- A WANDN of one register three times is WZERO (spec/41_logic_average_align.md R165). -/
theorem wellFormed_wandn {c : Cond} {d n m : DReg} :
    (Instr.wandn c d n m).wellFormed = true ↔ ¬ (d = n ∧ n = m) := by
  simp [Instr.wellFormed, imp_iff_not_or]

/-- The rows of WUNPCKEH are none of WMULW (spec/30_encoding.md R101). -/
theorem decodeUnpackHigh_extend (c : Cond) (sg : Sign) (sz : Bhw) (d n m : DReg) (crm : BitVec 4) :
    decodeUnpackHigh c (op1Of (bhwBits sz) (pair (signBit sg) false)) d n m crm =
      orUnpredictable (crm == 0) (destsFlags d) (.wunpckeh c sg sz d n) := by
  cases sz <;> cases sg <;> rfl

/-- Every well-formed instruction is what its fields decode to. -/
theorem decodeFields_encodeFields {i : Instr} (hw : i.wellFormed = true) :
    decodeFields (encodeFields i) = .instr i := by
  cases i with
  -- coprocessor 0
  | wor =>
    rw [Instr.wellFormed, bne_iff_ne] at hw
    simp [encodeFields, decodeMisc, hw]
  | wandn =>
    rw [wellFormed_wandn] at hw
    simp [encodeFields, decodeMisc, hw]
  | wmov | wzero => simp [encodeFields, decodeMisc]
  | wxor | wand => exact decodeFields_misc ..
  | wavg4 _ r => cases r <;> exact decodeFields_misc ..
  | wavg2 _ sz r => cases sz <;> cases r <;> exact decodeFields_misc ..
  | waligni | walignr => simp [encodeFields, decodeAlign]
  | wsra | wsll | wsrl | wror => simp [encodeFields, shiftFields, shiftOp1, decodeShift]
  | wcmpeq | wcmpgt => simp [encodeFields, decodeCompare]
  | wmerge | wqmulm | wpack => simp [encodeFields, decodePack]
  | wmiaxy | wqmiaxy => simp [encodeFields, decodeMia]
  | wunpckeh => simp [encodeFields, decodeUnpackHigh_extend]
  | wunpckih _ sz => cases sz <;> exact decodeFields_unpackHigh ..
  | wmulw _ k => cases k <;> exact decodeFields_unpackHigh ..
  | wunpckel | wunpckil | wqmulwm => simp [encodeFields, decodeUnpackLow]
  -- coprocessor 1
  | wmul _ k => cases k <;> exact decodeFields_multiply ..
  | wmac _ sg z => cases sg <;> cases z <;> exact decodeFields_multiply ..
  | wmadd _ sg k => cases sg <;> cases k <;> exact decodeFields_multiply ..
  | wsad | wmiawxy => simp [encodeFields, decodeDifference]
  | wsraG | wsllG | wsrlG | wrorG => simp [encodeFields, shiftGFields, shiftOp1, decodeShiftG]
  | wmax | wmin => simp [encodeFields, decodeMaxMin]
  | wadd =>
    rw [Instr.wellFormed] at hw
    simp [encodeFields, decodeAdd, hw]
  | wsub _ _ k => cases k <;> simp [encodeFields, decodeSub, subKindBits]
  | waddsubhx => exact decodeFields_sub ..
  | wacc | wabs | wabsdiff => simp [encodeFields, decodeAcc]
  | wsubaddhx => exact decodeFields_acc ..
  | wshufh => simp [encodeFields]
  -- the immediate shifts
  | wsraI | wsllI | wsrlI | wrorI => simp [encodeFields, shiftIFields, shiftOp1, decodeShiftI]
  -- transfers
  | tandc | torc | torvsc | textrc => simp [encodeFields, decodeMrc, decodeGroup]
  | textrm | tmovmsk | tmrc => simp [encodeFields, decodeMrc]
  | tmcr | tbcst | tinsr => simp [encodeFields, decodeFields_mcr, decodeMcr]
  | tmia | tmiaph | tmiaxy => simp [encodeFields, tmiaFields, decodeTmia]
  | tmcrr => simp [encodeFields, decodeMcrr]
  | tmrrc =>
    rw [Instr.wellFormed] at hw
    simp [encodeFields, decodeMcrr, hw]
  -- loads and stores
  | wldr | wstr => simp [encodeFields, decodeLoadStore]
  | wldrd | wstrd => simp [encodeFields, decodeLoadStoreReg]
  | wldrw | wstrw => simp [encodeFields, decodeLoadStoreCtrl]

end Sys2Proof
end

section
/-! SUPPORT. The reserved rows of the opcode maps: where a group of the decoder answers class U whatever the operands are
(spec/30_encoding.md R98, R101 to R103, R105, R106). -/

namespace Sys2Proof

section
variable (c : Cond) {op1 : BitVec 4} (d n m : DReg)

theorem decodeMisc_reserved (h : op1 ∈ [6#4, 7#4, 10#4, 11#4, 14#4, 15#4]) : decodeMisc c op1 d n m = .undefined := by
  fin_cases h <;> rfl

theorem decodeAlign_reserved (h : op1 ∈ [12#4, 13#4, 14#4, 15#4]) : decodeAlign c op1 d n m = .undefined := by
  fin_cases h <;> rfl

theorem decodeCompare_reserved (h : op1 ∈ [2#4, 6#4, 10#4, 14#4]) : decodeCompare c op1 d n m = .undefined := by
  fin_cases h <;> rfl

theorem decodeUnpackHigh_reserved (crm : BitVec 4) (h : op1 ∈ [3#4, 7#4]) :
    decodeUnpackHigh c op1 d n m crm = .undefined := by
  fin_cases h <;> rfl

theorem decodeUnpackLow_reserved (crm : BitVec 4) (h : op1 ∈ [3#4, 7#4, 11#4, 15#4]) :
    decodeUnpackLow c op1 d n m crm = .undefined := by
  fin_cases h <;> rfl

theorem decodeDifference_reserved (h : op1 ∈ [2#4, 3#4, 6#4, 7#4]) : decodeDifference c op1 d n m = .undefined := by
  fin_cases h <;> rfl

theorem decodeSub_reserved (h : op1 ∈ [2#4, 6#4, 12#4, 13#4, 14#4, 15#4]) : decodeSub c op1 d n m = .undefined := by
  fin_cases h <;> rfl

theorem decodeAcc_reserved (crm : BitVec 4) (h : op1 ∈ [3#4, 7#4, 11#4, 15#4]) :
    decodeAcc c op1 d n m crm = .undefined := by
  fin_cases h <;> rfl

end

theorem eq_ofNat_of_toNat_eq {w k : Nat} {v : BitVec w} (h : v.toNat = k) : v = BitVec.ofNat w k := by
  rw [← h, BitVec.ofNat_toNat, BitVec.setWidth_eq]

theorem bits_append_bit3 (v : BitVec 3) : bitsAt v 1 2 ++ BitVec.ofBool (bitAt v 0) = v := by
  revert v; decide

section
variable (c : Cond) {opcode1 op2 : BitVec 3} {cp : Bool} (crn crd m : BitVec 4)

/-- TMIA, TMIAPH and TMIAxy have the selectors 0000, 1000 and 11xy (R97). -/
theorem decodeTmia_reserved {sel : BitVec 4} (h : sel ∉ [0#4, 8#4, 12#4, 13#4, 14#4, 15#4]) (l : Bool) :
    decodeTmia c (xferFields c opcode1 l sel crd cp op2 m) = .undefined := by
  have hsel : (bitAt sel 3 && bitAt sel 2) = false ∧ sel ≠ 0 ∧ sel ≠ 8 := by revert sel; decide
  obtain ⟨hxy, htmia, htmiaph⟩ := hsel
  simp only [decodeTmia, xferFields_slices, hxy, if_neg htmia, if_neg htmiaph, Bool.false_eq_true, if_false]

/-- The rows of MCR are TMCR, and TBCST and TINSR (R103). -/
theorem decodeMcr_reserved (hctrl : ¬ (cp = true ∧ opcode1 = 0 ∧ op2 = 0))
    (hfield : ¬ (cp = false ∧ opcode1 ∈ [2#3, 3#3] ∧ bitAt op2 0 = false)) :
    decodeMcr c (xferFields c opcode1 false crn crd cp op2 m) = .undefined := by
  unfold decodeMcr
  simp only [xferFields_slices, xferFields_op1]
  split
  case h_1 hop1 =>
    have : opcode1 = 0 := BitVec.eq_of_toNat_eq hop1
    exact if_neg fun hop2 => hctrl ⟨rfl, this, hop2⟩
  case h_4 => rfl
  all_goals exact if_pos (by simpa [eq_ofNat_of_toNat_eq ‹opcode1.toNat = _›] using hfield)

/-- The rows of MRC are TMRC; TANDC, TORC, TEXTRC and TORVSC; TMOVMSK and TEXTRM (R103). -/
theorem decodeMrc_reserved (hctrl : ¬ (cp = true ∧ opcode1 = 0 ∧ op2 = 0))
    (hgroup : ¬ (cp = true ∧ bitAt opcode1 0 = false ∧ op2 ∈ [1#3, 2#3, 3#3, 4#3]))
    (hfield : ¬ (cp = false ∧ bitAt opcode1 0 = false ∧ op2 ∈ [1#3, 3#3])) :
    decodeMrc c (xferFields c opcode1 true crn crd cp op2 m) = .undefined := by
  unfold decodeMrc
  simp only [xferFields_slices, xferFields_op1]
  split
  case h_1 hbit hop2 =>
    obtain rfl : op2 = 0 := BitVec.eq_of_toNat_eq hop2
    refine if_neg fun hsize => hctrl ⟨rfl, ?_, rfl⟩
    rw [← bits_append_bit3 opcode1, hsize, hbit]
    rfl
  case h_6 hbit hop2 => exact absurd ⟨rfl, hbit, by simp [eq_ofNat_of_toNat_eq hop2]⟩ hfield
  case h_7 hbit hop2 => exact absurd ⟨rfl, hbit, by simp [eq_ofNat_of_toNat_eq hop2]⟩ hfield
  case h_8 => rfl
  all_goals exact absurd ⟨rfl, ‹bitAt opcode1 0 = false›, by simp [eq_ofNat_of_toNat_eq ‹op2.toNat = _›]⟩ hgroup

end

end Sys2Proof
end

section
/-! SUPPORT. The opcode maps are complete: the fields that decode to an instruction are the fields of that instruction,
which is well formed (spec/30_encoding.md R94 to R103, R105, R108). Each group of the decoder is covered by the
instructions of its rows; what is left of its fields decodes to no instruction. -/

namespace Sys2Proof

/-- An instruction that the fields decode to is well formed and has these fields. -/
def Covered (f : Fields) : Prop := ∀ i, decodeFields f = .instr i → encodeFields i = f ∧ i.wellFormed = true

theorem covered_encodeFields (i : Instr) (hw : i.wellFormed = true) : Covered (encodeFields i) := by
  intro j hj
  rw [decodeFields_encodeFields hw] at hj
  cases hj
  exact ⟨rfl, hw⟩

theorem covered_of_noInstr {f : Fields} (h : ∀ i, decodeFields f ≠ .instr i) : Covered f :=
  fun i hi => absurd hi (h i)

/-! ### CDP of coprocessor 0 (R101) -/

section
variable (c : Cond) (op1 : BitVec 4) (n d : DReg) (m : BitVec 4)

theorem misc_rows (op1 : BitVec 4) :
    op1 ∈ [6#4, 7#4, 10#4, 11#4, 14#4, 15#4] ∨ op1 = 0#4 ∨ op1 = 1#4 ∨ op1 = 2#4 ∨ op1 = 3#4 ∨
      (∃ r, op1 = 2#3 ++ BitVec.ofBool r) ∨ ∃ h r, op1 = op1Of (pair true h) (pair false r) := by
  revert op1; decide

theorem covered_misc : Covered (cdpFields (condBits c) op1 n d false 0#3 m) := by
  rcases misc_rows op1 with h | rfl | rfl | rfl | rfl | ⟨r, rfl⟩ | ⟨h, r, rfl⟩
  · exact covered_of_noInstr (by simp [decodeMisc_reserved c d n _ h])
  · by_cases hnm : n = dregOf m
    · subst hnm
      exact covered_encodeFields (.wmov c d (dregOf m)) rfl
    · exact covered_encodeFields (.wor c d n (dregOf m)) (bne_iff_ne.mpr hnm)
  · exact covered_encodeFields (.wxor c d n (dregOf m)) rfl
  · exact covered_encodeFields (.wand c d n (dregOf m)) rfl
  · by_cases hdnm : d = n ∧ n = dregOf m
    · obtain ⟨rfl, rfl⟩ := hdnm
      exact covered_encodeFields (.wzero c (dregOf m)) rfl
    · exact covered_encodeFields (.wandn c d n (dregOf m)) (wellFormed_wandn.mpr hdnm)
  · exact covered_encodeFields (.wavg4 c r d n (dregOf m)) rfl
  · obtain ⟨sz, rfl⟩ := bhBit_surjective h
    exact covered_encodeFields (.wavg2 c sz r d n (dregOf m)) rfl

theorem align_rows (op1 : BitVec 4) :
    op1 ∈ [12#4, 13#4, 14#4, 15#4] ∨ (∃ imm : BitVec 3, op1 = 0#1 ++ imm) ∨
      ∃ k : CgrIndex, op1 = 2#2 ++ BitVec.ofFin (w := 2) k := by
  revert op1; decide

theorem covered_align : Covered (cdpFields (condBits c) op1 n d false 1#3 m) := by
  rcases align_rows op1 with h | ⟨imm, rfl⟩ | ⟨k, rfl⟩
  · exact covered_of_noInstr (by simp [decodeAlign_reserved c d n _ h])
  · exact covered_encodeFields (.waligni c d n (dregOf m) imm) rfl
  · exact covered_encodeFields (.walignr c k d n (dregOf m)) rfl

theorem covered_shift : Covered (cdpFields (condBits c) op1 n d false 2#3 m) := by
  obtain ⟨ww, oo, rfl⟩ := op1_eq_op1Of op1
  rcases hwd_cases ww with rfl | ⟨sz, -, rfl⟩
  · exact covered_of_noInstr (by simp [decodeShift])
  · rcases two_bits oo with rfl | rfl | rfl | rfl
    · exact covered_encodeFields (.wsra c sz d n (dregOf m)) rfl
    · exact covered_encodeFields (.wsll c sz d n (dregOf m)) rfl
    · exact covered_encodeFields (.wsrl c sz d n (dregOf m)) rfl
    · exact covered_encodeFields (.wror c sz d n (dregOf m)) rfl

theorem compare_rows (op1 : BitVec 4) :
    op1 ∈ [2#4, 6#4, 10#4, 14#4] ∨ ∃ ww, op1 = op1Of ww 0 ∨ ∃ s, op1 = op1Of ww (pair s true) := by
  revert op1; decide

theorem covered_compare : Covered (cdpFields (condBits c) op1 n d false 3#3 m) := by
  rcases compare_rows op1 with h | ⟨ww, heq | ⟨s, hgt⟩⟩
  · exact covered_of_noInstr (by simp [decodeCompare_reserved c d n _ h])
  · subst heq
    rcases bhw_cases ww with rfl | ⟨sz, -, rfl⟩
    · exact covered_of_noInstr (by simp [decodeCompare])
    · exact covered_encodeFields (.wcmpeq c sz d n (dregOf m)) rfl
  · subst hgt
    obtain ⟨sg, rfl⟩ := signBit_surjective s
    rcases bhw_cases ww with rfl | ⟨sz, -, rfl⟩
    · exact covered_of_noInstr (by simp [decodeCompare])
    · exact covered_encodeFields (.wcmpgt c sg sz d n (dregOf m)) rfl

theorem pack_rows (op1 : BitVec 4) :
    (∃ imm : BitVec 3, op1 = imm ++ 0#1) ∨ ∃ ww s, op1 = op1Of ww (pair s true) := by
  revert op1; decide

theorem covered_pack : Covered (cdpFields (condBits c) op1 n d false 4#3 m) := by
  rcases pack_rows op1 with ⟨imm, rfl⟩ | ⟨ww, s, rfl⟩
  · exact covered_encodeFields (.wmerge c d n (dregOf m) imm) rfl
  · rcases hwd_cases ww with rfl | ⟨sz, -, rfl⟩
    · exact covered_encodeFields (.wqmulm c s d n (dregOf m)) rfl
    · obtain ⟨k, rfl⟩ := packKindBit_surjective s
      exact covered_encodeFields (.wpack c sz k d n (dregOf m)) rfl

theorem covered_mia : Covered (cdpFields (condBits c) op1 n d false 5#3 m) := by
  obtain ⟨ww, xy, rfl⟩ := op1_eq_op1Of op1
  obtain ⟨q, neg, rfl⟩ := eq_pair ww
  obtain ⟨x, y, rfl⟩ := eq_pair xy
  obtain ⟨x, rfl⟩ := halfBit_surjective x
  obtain ⟨y, rfl⟩ := halfBit_surjective y
  cases q
  · exact covered_encodeFields (.wmiaxy c neg x y d n (dregOf m)) rfl
  · exact covered_encodeFields (.wqmiaxy c neg x y d n (dregOf m)) rfl

theorem unpackHigh_rows (op1 : BitVec 4) :
    op1 ∈ [3#4, 7#4] ∨ (∃ k ∈ [MulwKind.l, .um, .umr, .sm, .smr], op1 = mulwKindBits k) ∨
      ∃ sz ∈ [Bhw.b, .h, .w], op1 = op1Of (bhwBits sz) 1 ∨
        ∃ sg ∈ [Sign.u, .s], op1 = op1Of (bhwBits sz) (pair (signBit sg) false) := by
  revert op1; decide

theorem covered_unpackHigh : Covered (cdpFields (condBits c) op1 n d false 6#3 m) := by
  rcases unpackHigh_rows op1 with h | ⟨k, -, rfl⟩ | ⟨sz, -, rfl | ⟨sg, -, rfl⟩⟩
  · exact covered_of_noInstr (by simp [decodeUnpackHigh_reserved c d n _ _ h])
  · exact covered_encodeFields (.wmulw c k d n (dregOf m)) rfl
  · exact covered_encodeFields (.wunpckih c sz d n (dregOf m)) rfl
  · by_cases hm : m = 0#4
    · subst hm
      exact covered_encodeFields (.wunpckeh c sg sz d n) rfl
    · exact covered_of_noInstr (by simp [decodeUnpackHigh_extend, hm])

theorem unpackLow_rows (op1 : BitVec 4) :
    op1 ∈ [3#4, 7#4, 11#4, 15#4] ∨ ∃ ww, op1 = op1Of ww 1 ∨ ∃ s, op1 = op1Of ww (pair s false) := by
  revert op1; decide

theorem covered_unpackLow : Covered (cdpFields (condBits c) op1 n d false 7#3 m) := by
  rcases unpackLow_rows op1 with h | ⟨ww, rfl | ⟨s, rfl⟩⟩
  · exact covered_of_noInstr (by simp [decodeUnpackLow_reserved c d n _ _ h])
  · rcases bhw_cases ww with rfl | ⟨sz, -, rfl⟩
    · exact covered_of_noInstr (by simp [decodeUnpackLow])
    · exact covered_encodeFields (.wunpckil c sz d n (dregOf m)) rfl
  · rcases bhw_cases ww with rfl | ⟨sz, -, rfl⟩
    · exact covered_encodeFields (.wqmulwm c s d n (dregOf m)) rfl
    · obtain ⟨sg, rfl⟩ := signBit_surjective s
      by_cases hm : m = 0#4
      · subst hm
        exact covered_encodeFields (.wunpckel c sg sz d n) rfl
      · exact covered_of_noInstr (by simp [decodeUnpackLow, hm])

/-! ### CDP of coprocessor 1 (R102) -/

theorem multiply_rows (op1 : BitVec 4) :
    (∃ k ∈ [MulKind.ul, .um, .sl, .sm, .umr, .smr], op1 = mulKindBits k) ∨
      ∃ sg ∈ [Sign.u, .s], (∃ z, op1 = op1Of 1 (pair (signBit sg) z)) ∨
        ∃ k ∈ [MaddKind.plain, .x, .n], op1 = maddOp1 sg k := by
  revert op1; decide

theorem covered_multiply : Covered (cdpFields (condBits c) op1 n d true 0#3 m) := by
  rcases multiply_rows op1 with ⟨k, -, rfl⟩ | ⟨sg, -, ⟨z, rfl⟩ | ⟨k, -, rfl⟩⟩
  · exact covered_encodeFields (.wmul c k d n (dregOf m)) rfl
  · exact covered_encodeFields (.wmac c sg z d n (dregOf m)) rfl
  · exact covered_encodeFields (.wmadd c sg k d n (dregOf m)) rfl

theorem difference_rows (op1 : BitVec 4) :
    op1 ∈ [2#4, 3#4, 6#4, 7#4] ∨ (∃ h z, op1 = op1Of (pair false h) (pair false z)) ∨
      ∃ neg x y, op1 = op1Of (pair true neg) (pair x y) := by
  revert op1; decide

theorem covered_difference : Covered (cdpFields (condBits c) op1 n d true 1#3 m) := by
  rcases difference_rows op1 with h | ⟨h, z, rfl⟩ | ⟨neg, x, y, rfl⟩
  · exact covered_of_noInstr (by simp [decodeDifference_reserved c d n _ h])
  · obtain ⟨sz, rfl⟩ := bhBit_surjective h
    exact covered_encodeFields (.wsad c sz z d n (dregOf m)) rfl
  · obtain ⟨x, rfl⟩ := halfBit_surjective x
    obtain ⟨y, rfl⟩ := halfBit_surjective y
    exact covered_encodeFields (.wmiawxy c neg x y d n (dregOf m)) rfl

theorem covered_shiftG : Covered (cdpFields (condBits c) op1 n d true 2#3 m) := by
  obtain ⟨ww, oo, rfl⟩ := op1_eq_op1Of op1
  rcases hwd_cases ww with rfl | ⟨sz, -, rfl⟩
  · exact covered_of_noInstr (by simp [decodeShiftG])
  · rcases cgr_cases m with hm | ⟨k, rfl⟩
    · exact covered_of_noInstr (by simp [decodeShiftG, hm])
    · rcases two_bits oo with rfl | rfl | rfl | rfl
      · exact covered_encodeFields (.wsraG c sz d n k) rfl
      · exact covered_encodeFields (.wsllG c sz d n k) rfl
      · exact covered_encodeFields (.wsrlG c sz d n k) rfl
      · exact covered_encodeFields (.wrorG c sz d n k) rfl

theorem covered_maxMin : Covered (cdpFields (condBits c) op1 n d true 3#3 m) := by
  obtain ⟨ww, lo, rfl⟩ := op1_eq_op1Of op1
  obtain ⟨s, isMin, rfl⟩ := eq_pair lo
  obtain ⟨sg, rfl⟩ := signBit_surjective s
  rcases bhw_cases ww with rfl | ⟨sz, -, rfl⟩
  · exact covered_of_noInstr (by simp [decodeMaxMin])
  · cases isMin
    · exact covered_encodeFields (.wmax c sg sz d n (dregOf m)) rfl
    · exact covered_encodeFields (.wmin c sg sz d n (dregOf m)) rfl

theorem covered_add : Covered (cdpFields (condBits c) op1 n d true 4#3 m) := by
  obtain ⟨ww, ss, rfl⟩ := op1_eq_op1Of op1
  obtain ⟨k, -, rfl⟩ := addKind_cases ss
  rcases bhw_cases ww with rfl | ⟨sz, -, rfl⟩
  · exact covered_of_noInstr (by simp [decodeAdd])
  · by_cases hbc : (sz == .b && k == .c) = true
    · exact covered_of_noInstr (by simp [decodeAdd, hbc])
    · exact covered_encodeFields (.wadd c sz k d n (dregOf m)) (by rw [Instr.wellFormed, eq_false_of_ne_true hbc]; rfl)

theorem sub_rows (op1 : BitVec 4) :
    op1 ∈ [2#4, 6#4, 12#4, 13#4, 14#4, 15#4] ∨ op1 = 10#4 ∨
      ∃ sz ∈ [Bhw.b, .h, .w], ∃ k ∈ [SubKind.none, .us, .ss], op1 = op1Of (bhwBits sz) (subKindBits k) := by
  revert op1; decide

theorem covered_sub : Covered (cdpFields (condBits c) op1 n d true 5#3 m) := by
  rcases sub_rows op1 with h | rfl | ⟨sz, -, k, -, rfl⟩
  · exact covered_of_noInstr (by simp [decodeSub_reserved c d n _ h])
  · exact covered_encodeFields (.waddsubhx c d n (dregOf m)) rfl
  · exact covered_encodeFields (.wsub c sz k d n (dregOf m)) rfl

theorem acc_rows (op1 : BitVec 4) :
    op1 ∈ [3#4, 7#4, 11#4, 15#4] ∨ op1 = 13#4 ∨ op1 = op1Of 3 0 ∨ op1 = op1Of 3 2 ∨
      ∃ sz ∈ [Bhw.b, .h, .w],
        op1 = op1Of (bhwBits sz) 0 ∨ op1 = op1Of (bhwBits sz) 1 ∨ op1 = op1Of (bhwBits sz) 2 := by
  revert op1; decide

theorem covered_acc : Covered (cdpFields (condBits c) op1 n d true 6#3 m) := by
  rcases acc_rows op1 with h | rfl | rfl | rfl | ⟨sz, -, hacc | habsdiff | habs⟩
  · exact covered_of_noInstr (by simp [decodeAcc_reserved c d n _ _ h])
  · exact covered_encodeFields (.wsubaddhx c d n (dregOf m)) rfl
  · exact covered_of_noInstr (by simp [decodeAcc])
  · exact covered_of_noInstr (by simp [decodeAcc])
  · subst hacc
    by_cases hm : m = 0#4
    · subst hm
      exact covered_encodeFields (.wacc c sz d n) rfl
    · exact covered_of_noInstr (by simp [decodeAcc, hm])
  · subst habsdiff
    exact covered_encodeFields (.wabsdiff c sz d n (dregOf m)) rfl
  · subst habs
    by_cases hm : m = 0#4
    · subst hm
      exact covered_encodeFields (.wabs c sz d n) rfl
    · exact covered_of_noInstr (by simp [decodeAcc, hm])

theorem imm8_cases (hi lo : BitVec 4) : ∃ imm : BitVec 8, hi = bitsAt imm 4 4 ∧ lo = bitsAt imm 0 4 :=
  ⟨hi ++ lo, by revert hi lo; decide⟩

theorem covered_shufh : Covered (cdpFields (condBits c) op1 n d true 7#3 m) := by
  obtain ⟨imm, rfl, rfl⟩ := imm8_cases op1 m
  exact covered_encodeFields (.wshufh c d n imm) rfl

theorem op2_cases (op2 : BitVec 3) :
    op2 = 0#3 ∨ op2 = 1#3 ∨ op2 = 2#3 ∨ op2 = 3#3 ∨ op2 = 4#3 ∨ op2 = 5#3 ∨ op2 = 6#3 ∨ op2 = 7#3 := by
  revert op2; decide

/-- CDP with a condition (R94). -/
theorem covered_cdp (cp : Bool) (op2 : BitVec 3) : Covered (cdpFields (condBits c) op1 n d cp op2 m) := by
  cases cp with
  | false =>
    rcases op2_cases op2 with rfl | rfl | rfl | rfl | rfl | rfl | rfl | rfl
    · exact covered_misc c op1 n d m
    · exact covered_align c op1 n d m
    · exact covered_shift c op1 n d m
    · exact covered_compare c op1 n d m
    · exact covered_pack c op1 n d m
    · exact covered_mia c op1 n d m
    · exact covered_unpackHigh c op1 n d m
    · exact covered_unpackLow c op1 n d m
  | true =>
    rcases op2_cases op2 with rfl | rfl | rfl | rfl | rfl | rfl | rfl | rfl
    · exact covered_multiply c op1 n d m
    · exact covered_difference c op1 n d m
    · exact covered_shiftG c op1 n d m
    · exact covered_maxMin c op1 n d m
    · exact covered_add c op1 n d m
    · exact covered_sub c op1 n d m
    · exact covered_acc c op1 n d m
    · exact covered_shufh c op1 n d m

/-! ### The immediate shifts (R100) -/

theorem imm5_cases (cp : Bool) (m : BitVec 4) : ∃ imm : BitVec 5, cp = bitAt imm 4 ∧ m = bitsAt imm 0 4 :=
  ⟨BitVec.ofBool cp ++ m, by revert cp m; decide⟩

theorem covered_shiftI (cp : Bool) : Covered (cdpFields 15#4 op1 n d cp 2#3 m) := by
  obtain ⟨imm, rfl, rfl⟩ := imm5_cases cp m
  obtain ⟨ww, oo, rfl⟩ := op1_eq_op1Of op1
  rcases hwd_cases ww with rfl | ⟨sz, -, rfl⟩
  · exact covered_of_noInstr (by simp [decodeShiftI])
  · rcases two_bits oo with rfl | rfl | rfl | rfl
    · exact covered_encodeFields (.wsraI sz d n imm) rfl
    · exact covered_encodeFields (.wsllI sz d n imm) rfl
    · exact covered_encodeFields (.wsrlI sz d n imm) rfl
    · exact covered_encodeFields (.wrorI sz d n imm) rfl

end


/-! ### The transfers to the coprocessor (R95, R97, R103) -/

section
variable (c : Cond) (opcode1 : BitVec 3) (crn crd : BitVec 4) (cp : Bool) (op2 : BitVec 3) (m : BitVec 4)

theorem tmia_dest (cp : Bool) (op2 : BitVec 3) :
    ∃ d : DReg, cp = bitAt (dregBits d) 3 ∧ op2 = bitsAt (dregBits d) 0 3 :=
  ⟨dregOf (BitVec.ofBool cp ++ op2), by revert cp op2; decide⟩

theorem tmia_rows (sel : BitVec 4) :
    sel ∈ [0#4, 8#4, 12#4, 13#4, 14#4, 15#4] → sel = 0#4 ∨ sel = 8#4 ∨ ∃ x y, sel = op1Of 3 (pair x y) := by
  revert sel; decide

theorem covered_tmia : Covered (xferFields c 1#3 false crn crd cp op2 m) := by
  by_cases hsel : crn ∈ [0#4, 8#4, 12#4, 13#4, 14#4, 15#4]
  swap
  · exact covered_of_noInstr (by simp [decodeTmia_reserved c crd m hsel])
  rcases core_cases m with hm | ⟨rm, rfl⟩
  · exact covered_of_noInstr (by rw [decodeFields_tmia, decodeTmia_r15 hsel (.inr hm)]; simp)
  rcases core_cases crd with hs | ⟨rs, rfl⟩
  · exact covered_of_noInstr (by rw [decodeFields_tmia, decodeTmia_r15 hsel (.inl hs)]; simp)
  obtain ⟨d, rfl, rfl⟩ := tmia_dest cp op2
  rcases tmia_rows crn hsel with rfl | rfl | ⟨x, y, rfl⟩
  · exact covered_encodeFields (.tmia c d rm rs) rfl
  · exact covered_encodeFields (.tmiaph c d rm rs) rfl
  · obtain ⟨x, rfl⟩ := halfBit_surjective x
    obtain ⟨y, rfl⟩ := halfBit_surjective y
    exact covered_encodeFields (.tmiaxy c x y d rm rs) rfl

/-- The size of TBCST and TINSR (R103). -/
theorem sizeField_cases (op2 : BitVec 3) : bitAt op2 0 = false → ∃ ww : BitVec 2, op2 = ww ++ 0#1 := by
  revert op2; decide

theorem reservedSize_slices : bitAt 6#3 0 = false ∧ bitsAt 6#3 1 2 = 3#2 := by
  decide

/-- Imm3 of TINSR and TEXTRC is below a zero (R103). -/
theorem imm3_cases (m : BitVec 4) : bitAt m 3 = true ∨ ∃ imm : BitVec 3, m = 0#1 ++ imm := by
  revert m; decide

theorem covered_tmcr : Covered (xferFields c 0#3 false crn crd true 0#3 m) := by
  rcases ctrl_cases crn with hx | ⟨cx, -, rfl⟩
  · exact covered_of_noInstr (by simp [decodeFields_mcr, decodeMcr, hx])
  rcases core_cases crd with hn | ⟨rn, rfl⟩
  · exact covered_of_noInstr (by simp [decodeFields_mcr, decodeMcr, hn])
  by_cases hm : m = 0#4
  · subst hm
    exact covered_encodeFields (.tmcr c cx rn) rfl
  · exact covered_of_noInstr (by simp [decodeFields_mcr, decodeMcr, hm])

theorem covered_tbcst (ww : BitVec 2) : Covered (xferFields c 2#3 false crn crd false (ww ++ 0#1) m) := by
  rcases core_cases crd with hn | ⟨rn, rfl⟩
  · exact covered_of_noInstr (by simp [decodeFields_mcr, decodeMcr, hn])
  rcases bhw_cases ww with rfl | ⟨sz, -, rfl⟩
  · exact covered_of_noInstr (by simp [decodeFields_mcr, decodeMcr, reservedSize_slices])
  by_cases hm : m = 0#4
  · subst hm
    exact covered_encodeFields (.tbcst c sz (dregOf crn) rn) rfl
  · exact covered_of_noInstr (by simp [decodeFields_mcr, decodeMcr, hm])

theorem covered_tinsr (ww : BitVec 2) : Covered (xferFields c 3#3 false crn crd false (ww ++ 0#1) m) := by
  rcases core_cases crd with hn | ⟨rn, rfl⟩
  · exact covered_of_noInstr (by simp [decodeFields_mcr, decodeMcr, hn])
  rcases bhw_cases ww with rfl | ⟨sz, -, rfl⟩
  · exact covered_of_noInstr (by simp [decodeFields_mcr, decodeMcr, reservedSize_slices])
  rcases imm3_cases m with hm | ⟨imm, rfl⟩
  · exact covered_of_noInstr (by simp [decodeFields_mcr, decodeMcr, hm])
  · exact covered_encodeFields (.tinsr c sz (dregOf crn) rn imm) rfl

theorem covered_mcr (h : opcode1 ≠ 1#3) : Covered (xferFields c opcode1 false crn crd cp op2 m) := by
  by_cases hctrl : cp = true ∧ opcode1 = 0 ∧ op2 = 0
  · obtain ⟨rfl, rfl, rfl⟩ := hctrl
    exact covered_tmcr c crn crd m
  by_cases hfield : cp = false ∧ opcode1 ∈ [2#3, 3#3] ∧ bitAt op2 0 = false
  · obtain ⟨rfl, hop1, hop2⟩ := hfield
    obtain ⟨ww, rfl⟩ := sizeField_cases op2 hop2
    fin_cases hop1
    · exact covered_tbcst c crn crd m ww
    · exact covered_tinsr c crn crd m ww
  exact covered_of_noInstr (by simp [decodeFields_mcr _ _ _ _ _ _ _ h, decodeMcr_reserved c crn crd m hctrl hfield])

/-! ### The transfers from the coprocessor (R96, R103) -/

/-- What TANDC, TORC, TORVSC and TEXTRC share: R15 as Rd, a register number in `I[19:16]`, a size and a constant. -/
theorem decodeGroup_eq_instr {ww : BitVec 2} {reg : BitVec 4} {ok : Bool} {i : Bhw → Instr} {j : Instr}
    (h : decodeGroup (xferFields c (ww ++ 0#1) true crn crd true op2 m) reg ok i = .instr j) :
    crd = 15 ∧ crn = reg ∧ ok = true ∧ ∃ sz, ww = bhwBits sz ∧ i sz = j := by
  unfold decodeGroup at h
  split at h
  · next hrd =>
    rcases bhw_cases ww with rfl | ⟨sz, -, rfl⟩
    · simp [reservedSize_slices] at h
    · simp only [xferFields_op1, xferFields_slices, sizeField_slices, bhwOf_bhwBits, orUnpredictable_eq_instr,
        Bool.and_eq_true, beq_iff_eq] at h
      obtain ⟨⟨hcrn, hok⟩, hi⟩ := h
      exact ⟨hrd, hcrn, hok, sz, rfl, hi⟩
  · cases h

theorem covered_group (ww : BitVec 2) (h : op2 ∈ [1#3, 2#3, 3#3, 4#3]) :
    Covered (xferFields c (ww ++ 0#1) true crn crd true op2 m) := by
  intro i hi
  rw [decodeFields_mrc] at hi
  fin_cases h
  · obtain ⟨rfl, rfl, hm, sz, rfl, rfl⟩ := decodeGroup_eq_instr c crn crd 1#3 m (by simpa [decodeMrc] using hi)
    obtain rfl := eq_of_beq hm
    exact ⟨rfl, rfl⟩
  · obtain ⟨rfl, rfl, hm, sz, rfl, rfl⟩ := decodeGroup_eq_instr c crn crd 2#3 m (by simpa [decodeMrc] using hi)
    obtain rfl := eq_of_beq hm
    exact ⟨rfl, rfl⟩
  · obtain ⟨rfl, rfl, hm, sz, rfl, rfl⟩ := decodeGroup_eq_instr c crn crd 3#3 m (by simpa [decodeMrc] using hi)
    rcases imm3_cases m with hbit | ⟨imm, rfl⟩
    · simp [hbit] at hm
    · simp [encodeFields, Instr.wellFormed]
  · obtain ⟨rfl, rfl, hm, sz, rfl, rfl⟩ := decodeGroup_eq_instr c crn crd 4#3 m (by simpa [decodeMrc] using hi)
    obtain rfl := eq_of_beq hm
    exact ⟨rfl, rfl⟩

theorem covered_tmrc : Covered (xferFields c 0#3 true crn crd true 0#3 m) := by
  rcases ctrl_cases crn with hx | ⟨cx, -, rfl⟩
  · exact covered_of_noInstr (by simp [decodeMrc, hx])
  rcases core_cases crd with hn | ⟨rd, rfl⟩
  · exact covered_of_noInstr (by simp [decodeMrc, hn])
  by_cases hm : m = 0#4
  · subst hm
    exact covered_encodeFields (.tmrc c rd cx) rfl
  · exact covered_of_noInstr (by simp [decodeMrc, hm])

theorem covered_tmovmsk (ww : BitVec 2) : Covered (xferFields c (ww ++ 0#1) true crn crd false 1#3 m) := by
  rcases core_cases crd with hn | ⟨rd, rfl⟩
  · exact covered_of_noInstr (by simp [decodeMrc, hn])
  rcases bhw_cases ww with rfl | ⟨sz, -, rfl⟩
  · exact covered_of_noInstr (by simp [decodeMrc, reservedSize_slices])
  by_cases hm : m = 0#4
  · subst hm
    exact covered_encodeFields (.tmovmsk c sz rd (dregOf crn)) rfl
  · exact covered_of_noInstr (by simp [decodeMrc, hm])

/-- The sign and Imm3 of TEXTRM (R103). -/
theorem signImm3_cases (m : BitVec 4) :
    ∃ sg ∈ [Sign.u, .s], ∃ imm : BitVec 3, m = BitVec.ofBool (signBit sg) ++ imm := by
  revert m; decide

theorem covered_textrm (ww : BitVec 2) : Covered (xferFields c (ww ++ 0#1) true crn crd false 3#3 m) := by
  rcases core_cases crd with hn | ⟨rd, rfl⟩
  · exact covered_of_noInstr (by simp [decodeMrc, hn])
  rcases bhw_cases ww with rfl | ⟨sz, -, rfl⟩
  · exact covered_of_noInstr (by simp [decodeMrc, reservedSize_slices])
  obtain ⟨sg, -, imm, rfl⟩ := signImm3_cases m
  exact covered_encodeFields (.textrm c sg sz rd (dregOf crn) imm) rfl

theorem covered_mrc : Covered (xferFields c opcode1 true crn crd cp op2 m) := by
  by_cases hctrl : cp = true ∧ opcode1 = 0 ∧ op2 = 0
  · obtain ⟨rfl, rfl, rfl⟩ := hctrl
    exact covered_tmrc c crn crd m
  by_cases hgroup : cp = true ∧ bitAt opcode1 0 = false ∧ op2 ∈ [1#3, 2#3, 3#3, 4#3]
  · obtain ⟨rfl, hop1, hop2⟩ := hgroup
    obtain ⟨ww, rfl⟩ := sizeField_cases opcode1 hop1
    exact covered_group c crn crd op2 m ww hop2
  by_cases hfield : cp = false ∧ bitAt opcode1 0 = false ∧ op2 ∈ [1#3, 3#3]
  · obtain ⟨rfl, hop1, hop2⟩ := hfield
    obtain ⟨ww, rfl⟩ := sizeField_cases opcode1 hop1
    fin_cases hop2
    · exact covered_tmovmsk c crn crd m ww
    · exact covered_textrm c crn crd m ww
  exact covered_of_noInstr (by simp [decodeMrc_reserved c crn crd m hctrl hgroup hfield])

end

/-! ### MCRR, MRRC, loads and stores (R98, R99) -/

/-- The decoder tests P, U, N and W for MCRR and MRRC (R98). -/
theorem mcrr_op1 (op1 : BitVec 4) :
    bitAt op1 3 = false ∧ bitAt op1 2 = true ∧ bitAt op1 1 = false → ∃ l, op1 = 2#3 ++ BitVec.ofBool l := by
  revert op1; decide

theorem covered_mcrr (c : Cond) (l : Bool) (hi lo : CoreReg) (d : DReg) : Covered (mcrrFields c l hi lo d) := by
  cases l with
  | false => exact covered_encodeFields (.tmcrr c d lo hi) rfl
  | true =>
    by_cases hne : lo = hi
    · exact covered_of_noInstr (by simp [decodeMcrr, hne])
    · exact covered_encodeFields (.tmrrc c lo hi d) (bne_iff_ne.mpr hne)

theorem ldc_op1 (op1 : BitVec 4) :
    op1 = BitVec.ofBool (bitAt op1 3) ++ BitVec.ofBool (bitAt op1 2) ++ BitVec.ofBool (bitAt op1 1) ++
      BitVec.ofBool (bitAt op1 0) := by
  revert op1; decide

section
variable (am : AddrMode) (l : Bool) (rn : CoreReg) (off : BitVec 8)

theorem covered_loadStore (c : Cond) (n m : Bool) (crd : BitVec 4) :
    Covered (ldcFields (condBits c) am n l rn crd m off) := by
  obtain ⟨sz, hsz⟩ := bhwd_cases n m
  obtain ⟨rfl, rfl⟩ : (bhwdBits sz).1 = n ∧ (bhwdBits sz).2 = m := by rw [hsz]; exact ⟨rfl, rfl⟩
  cases l
  · exact covered_encodeFields (.wstr c sz am (dregOf crd) rn off) rfl
  · exact covered_encodeFields (.wldr c sz am (dregOf crd) rn off) rfl

theorem covered_loadStoreCtrl (cx : CtrlReg) : Covered (ldcFields 15#4 am false l rn (ctrlBits cx) true off) := by
  cases l
  · exact covered_encodeFields (.wstrw am cx rn off) rfl
  · exact covered_encodeFields (.wldrw am cx rn off) rfl

theorem covered_loadStoreReg (crd : BitVec 4) (rm : CoreReg) (sh : BitVec 4) :
    Covered (ldcFields 15#4 am true l rn crd true (sh ++ coreBits rm)) := by
  cases l
  · exact covered_encodeFields (.wstrd am (dregOf crd) rn rm sh) rfl
  · exact covered_encodeFields (.wldrd am (dregOf crd) rn rm sh) rfl

end

/-! ### Fields of the load, store and pair transfer class (R98, R99, R108) -/

section
variable {f : Fields} {c : Cond}

theorem eq_mcrrFields {hi lo : CoreReg} {l : Bool} (hk : f.k = 6) (hcpHi : f.cpHi = 0) (hc : f.c = condBits c)
    (hp : f.p = false) (hop1 : f.op1 = 2#3 ++ BitVec.ofBool l) (hfix : f.cp = false ∧ f.op2 = 0 ∧ f.b4 = false)
    (hlo : f.crd = coreBits lo) (hhi : f.crn = coreBits hi) : f = mcrrFields c l hi lo (dregOf f.crm) := by
  obtain ⟨hcp, hop2, hb4⟩ := hfix
  cases f
  subst hk hcpHi hc hp hop1 hcp hop2 hb4 hlo hhi
  rfl

theorem eq_ldcFields {am : AddrMode} {rn : CoreReg} (hk : f.k = 6) (hcpHi : f.cpHi = 0)
    (hmode : f.p = modeP am ∧ bitAt f.op1 3 = modeU am ∧ bitAt f.op1 1 = modeW am) (hrn : f.crn = coreBits rn) :
    f = ldcFields f.c am (bitAt f.op1 2) (bitAt f.op1 0) rn f.crd f.cp (offsetOf f) := by
  obtain ⟨hp, hu, hw⟩ := hmode
  have hop1 := ldc_op1 f.op1
  rw [hu, hw] at hop1
  obtain ⟨hop2, hb4, hcrm⟩ : bitsAt (offsetOf f) 5 3 = f.op2 ∧ bitAt (offsetOf f) 4 = f.b4 ∧
    bitsAt (offsetOf f) 0 4 = f.crm := offset_parts f.op2 f.b4 f.crm
  rw [ldcFields, ← hop1, ← hp, ← hrn, hop2, hb4, hcrm]
  cases f
  subst hk hcpHi
  rfl

theorem decodeFields_mem (hk : f.k = 6) (hcpHi : f.cpHi = 0) : decodeFields f = decodeMem f := by
  simp [decodeFields, isWmmxWord, hk, hcpHi]

theorem covered_pairTransfer (hk : f.k = 6) (hcpHi : f.cpHi = 0) (hc : f.c = condBits c)
    (hpair : f.p = false ∧ bitAt f.op1 3 = false ∧ bitAt f.op1 2 = true ∧ bitAt f.op1 1 = false) : Covered f := by
  have hd : decodeFields f = decodeMcrr c f := by simp [decodeFields_mem hk hcpHi, decodeMem, hc, hpair]
  obtain ⟨hp, hbits⟩ := hpair
  obtain ⟨l, hop1⟩ := mcrr_op1 f.op1 hbits
  by_cases hfix : f.cp = false ∧ f.op2 = 0 ∧ f.b4 = false
  swap
  · exact covered_of_noInstr (by rw [hd, decodeMcrr, if_neg hfix]; simp)
  rcases core_cases f.crd with hlo | ⟨lo, hlo⟩
  · exact covered_of_noInstr (by simp [hd, decodeMcrr, hfix, hlo])
  rcases core_cases f.crn with hhi | ⟨hi, hhi⟩
  · exact covered_of_noInstr (by simp [hd, decodeMcrr, hfix, hlo, hhi])
  rw [eq_mcrrFields hk hcpHi hc hp hop1 hfix hlo hhi]
  apply covered_mcrr

@[simp] theorem unsupportedMode_ne_instr {load : Bool} {t : Dests} {rn : CoreReg} {i : Instr} :
    unsupportedMode load t rn ≠ .instr i := by
  cases load <;> simp [unsupportedMode]

theorem covered_mem_cond (hk : f.k = 6) (hcpHi : f.cpHi = 0) (hc : f.c = condBits c) : Covered f := by
  by_cases hpair : f.p = false ∧ bitAt f.op1 3 = false ∧ bitAt f.op1 2 = true ∧ bitAt f.op1 1 = false
  · exact covered_pairTransfer hk hcpHi hc hpair
  have hd : decodeFields f = decodeLoadStore c f := by
    simp only [decodeFields_mem hk hcpHi, decodeMem, hc, condOf_condBits, if_neg hpair]
  rcases core_cases f.crn with hrn | ⟨rn, hrn⟩
  · exact covered_of_noInstr (by simp [hd, decodeLoadStore, hrn])
  rcases mode_cases f.p (bitAt f.op1 3) (bitAt f.op1 1) with hmode | ⟨am, hmode⟩
  · exact covered_of_noInstr (by simp [hd, decodeLoadStore, hmode, hrn])
  rw [eq_ldcFields hk hcpHi hmode hrn, hc]
  apply covered_loadStore

theorem covered_mem_ctrl (hk : f.k = 6) (hcpHi : f.cpHi = 0) (hc : f.c = 15#4) (hcp : f.cp = true)
    (hn : bitAt f.op1 2 = false) : Covered f := by
  have hd : decodeFields f = decodeLoadStoreCtrl f := by
    simp [decodeFields_mem hk hcpHi, decodeMem, hc, hcp, hn]
  rcases ctrl_cases f.crd with hcx | ⟨cx, -, hcx⟩
  · exact covered_of_noInstr (by simp [hd, decodeLoadStoreCtrl, hcx])
  rcases core_cases f.crn with hrn | ⟨rn, hrn⟩
  · exact covered_of_noInstr (by simp [hd, decodeLoadStoreCtrl, hcx, hrn])
  rcases mode_cases f.p (bitAt f.op1 3) (bitAt f.op1 1) with hmode | ⟨am, hmode⟩
  · exact covered_of_noInstr (by simp [hd, decodeLoadStoreCtrl, hcx, hmode, hrn])
  rw [eq_ldcFields hk hcpHi hmode hrn, hc, hcp, hn, hcx]
  apply covered_loadStoreCtrl

theorem covered_mem_reg (hk : f.k = 6) (hcpHi : f.cpHi = 0) (hc : f.c = 15#4) (hcp : f.cp = true)
    (hn : bitAt f.op1 2 = true) : Covered f := by
  have hd : decodeFields f = decodeLoadStoreReg f := by
    simp [decodeFields_mem hk hcpHi, decodeMem, hc, hcp, hn]
  rcases core_cases f.crn with hrn | ⟨rn, hrn⟩
  · exact covered_of_noInstr (by simp [hd, decodeLoadStoreReg, hrn])
  rcases core_cases f.crm with hrm | ⟨rm, hrm⟩
  · exact covered_of_noInstr (by simp [hd, decodeLoadStoreReg, hrm])
  rcases mode_cases f.p (bitAt f.op1 3) (bitAt f.op1 1) with hmode | ⟨am, hmode⟩
  · exact covered_of_noInstr (by simp [hd, decodeLoadStoreReg, hmode, hrn, hrm])
  rw [eq_ldcFields hk hcpHi hmode hrn, hc, hcp, hn, offsetOf, hrm]
  apply covered_loadStoreReg

theorem covered_mem (hk : f.k = 6) (hcpHi : f.cpHi = 0) : Covered f := by
  rcases cond_cases f.c with hc | ⟨c, -, hc⟩
  swap
  · exact covered_mem_cond hk hcpHi hc
  by_cases hcp : f.cp = true
  swap
  · exact covered_of_noInstr (by simp [decodeFields_mem hk hcpHi, decodeMem, hc, hcp])
  by_cases hn : bitAt f.op1 2 = true
  · exact covered_mem_reg hk hcpHi hc hcp hn
  · exact covered_mem_ctrl hk hcpHi hc hcp (eq_false_of_ne_true hn)

/-! ### Fields of the CDP, MCR and MRC class (R94 to R97, R100, R106, R108) -/

theorem eq_cdpFields (hk : f.k = 7) (hp : f.p = false) (hcpHi : f.cpHi = 0) (hb4 : f.b4 = false) :
    f = cdpFields f.c f.op1 (dregOf f.crn) (dregOf f.crd) f.cp f.op2 f.crm := by
  cases f
  subst hk hp hcpHi hb4
  rfl

theorem eq_xferFields (hk : f.k = 7) (hp : f.p = false) (hcpHi : f.cpHi = 0) (hb4 : f.b4 = true)
    (hc : f.c = condBits c) :
    f = xferFields c (bitsAt f.op1 1 3) (bitAt f.op1 0) f.crn f.crd f.cp f.op2 f.crm := by
  have hop1 : bitsAt f.op1 1 3 ++ BitVec.ofBool (bitAt f.op1 0) = f.op1 := bits_append_bit4 f.op1
  rw [xferFields, hop1, ← hc]
  cases f
  subst hk hp hcpHi hb4
  rfl

theorem covered_xfer (opcode1 : BitVec 3) (l : Bool) (crn crd : BitVec 4) (cp : Bool) (op2 : BitVec 3) (m : BitVec 4) :
    Covered (xferFields c opcode1 l crn crd cp op2 m) := by
  cases l with
  | true => apply covered_mrc
  | false =>
    by_cases htmia : opcode1 = 1#3
    · subst htmia
      apply covered_tmia
    · exact covered_mcr c opcode1 crn crd cp op2 m htmia

theorem covered_cop (hk : f.k = 7) (hp : f.p = false) (hcpHi : f.cpHi = 0) : Covered f := by
  have hd : decodeFields f = decodeCop f := by simp [decodeFields, isWmmxWord, hk, hp, hcpHi]
  rcases cond_cases f.c with hc | ⟨c, -, hc⟩
  · by_cases hshift : f.b4 = false ∧ f.op2 = 2
    · obtain ⟨hb4, hop2⟩ := hshift
      rw [eq_cdpFields hk hp hcpHi hb4, hc, hop2]
      apply covered_shiftI
    · exact covered_of_noInstr (by simp only [hd, decodeCop, hc, condOf_fifteen, if_neg hshift]; simp)
  · cases hb4 : f.b4 with
    | false =>
      rw [eq_cdpFields hk hp hcpHi hb4, hc]
      apply covered_cdp
    | true =>
      rw [eq_xferFields hk hp hcpHi hb4 hc]
      apply covered_xfer

/-- No field of a word is dropped (R105). -/
theorem covered (f : Fields) : Covered f := by
  by_cases hw : isWmmxWord f = true
  swap
  · exact covered_of_noInstr (by simp [decodeFields, hw])
  have hclass : ((f.k = 7 ∧ f.p = false) ∨ f.k = 6) ∧ f.cpHi = 0 := by simpa [isWmmxWord] using hw
  obtain ⟨⟨hk, hp⟩ | hk, hcpHi⟩ := hclass
  · exact covered_cop hk hp hcpHi
  · exact covered_mem hk hcpHi

end

end Sys2Proof
end

section
/-! SUPPORT. Every instruction runs in the envelope of its own word (spec/30_encoding.md R107), and how the envelope
answers when the condition fails or the coprocessor is disabled. -/

namespace Sys2Proof.Machine

section
variable {w : Word} {s : State} {k : Result}

/-- A condition that fails skips the word. -/
theorem envelopeOfWord_skips (hc : ¬ WordPasses w s) : envelopeOfWord w s k = .next { s with pc := s.pc + 4 } := by
  obtain ⟨c, hcond, hfail⟩ : ∃ c, condOf (fieldsOf w).c = some c ∧ condPass c s = false := by
    simpa [WordPasses] using hc
  simp [envelopeOfWord, hcond, hfail, complete, State.advance]

/-- A word whose condition passes raises while the coprocessor is disabled. -/
theorem envelopeOfWord_disabled (hc : WordPasses w s) (ha : accessOk s = false) :
    envelopeOfWord w s k = .fault (.raised (.undefinedInstruction w) s.pc) := by
  unfold envelopeOfWord
  split
  · next c hcond => rw [if_pos (hc c hcond), whenEnabled_disabled ha]
  · exact whenEnabled_disabled ha

theorem accessOk_eq_false (h : ¬ (bitAt s.cpar 0 = true ∧ bitAt s.cpar 1 = true)) : accessOk s = false := by
  simpa [accessOk] using h

end

section
variable {i : Instr} {s : State} {k : Result}

theorem conditional_eq_envelope {c : Cond} (h : condOf (encodeFields i).c = some c) :
    conditional c i s k = envelopeOfWord (encode i) s k := by
  rw [envelopeOfWord, encode, fieldsOf_assemble, h]
  rfl

theorem unconditional_eq_envelope (h : condOf (encodeFields i).c = none) :
    unconditional i s k = envelopeOfWord (encode i) s k := by
  rw [envelopeOfWord, encode, fieldsOf_assemble, h]
  rfl

end

/-- The meaning of an instruction is what its rule answers, in the envelope of its word. -/
theorem exec_eq_envelope (i : Instr) (s : State) : ∃ k, exec i s = envelopeOfWord (encode i) s k := by
  cases i with
  | wsraI | wsllI | wsrlI | wrorI | wldrd | wldrw | wstrd | wstrw => exact ⟨_, unconditional_eq_envelope rfl⟩
  | _ => exact ⟨_, conditional_eq_envelope (condOf_condBits _)⟩

/-! ### The step -/

theorem runWord_undefined {run : Instr → State → Result} {w : Word} {s : State} (h : decode w = .undefined) :
    runWord run w s = envelopeOfWord w s (takeException (.undefinedInstruction w) s) := by
  simp [runWord, h]

/-- A class U word raises whether or not the coprocessor is enabled. -/
theorem envelopeOfWord_undefined {w : Word} {s : State} (hc : WordPasses w s) :
    envelopeOfWord w s (takeException (.undefinedInstruction w) s) =
      .fault (.raised (.undefinedInstruction w) s.pc) := by
  cases ha : accessOk s with
  | true => exact envelopeOfWord_passes hc ha
  | false => exact envelopeOfWord_disabled hc ha

theorem step_misaligned {s : State} (h : bitsAt s.pc 0 2 ≠ 0) : step s = .refused (.misalignedPc s.pc) := by
  rw [step, stepWith, if_neg h]

theorem step_noWord {s : State} (hpc : bitsAt s.pc 0 2 = 0) (h : s.fetchWord = none) :
    step s = .refused (.noInstructionWord s.pc) := by
  simp [step, stepWith, hpc, h]

/-- A slice is the slice above its lowest bit, and that bit. -/
theorem bitsAt_succ {n : Nat} (v : BitVec n) (lo len : Nat) :
    bitsAt v lo (len + 1) = bitsAt v (lo + 1) len ++ BitVec.ofBool (bitAt v lo) := by
  apply BitVec.eq_of_getLsbD_eq
  intro j hj
  simp only [bitsAt, bitAt, BitVec.getLsbD_append, BitVec.getLsbD_extractLsb', BitVec.getLsbD_ofBool]
  cases j with
  | zero => simp
  | succ j =>
    have hlen : j < len := by omega
    simp [hlen, Nat.add_assoc, Nat.add_comm 1 j]

/-- `I[27:24]` = 1110: the class, and bit 24 (R91, R94). -/
theorem cop_class_iff (w : Word) : bitsAt w 24 4 = 14 ↔ bitsAt w 25 3 = 7 ∧ bitAt w 24 = false := by
  rw [bitsAt_succ]
  generalize bitsAt w 25 3 = k, bitAt w 24 = p
  revert k p; decide

/-- A WMMX2 word by its bits (R91). -/
theorem isWmmxWord_fieldsOf (w : Word) :
    isWmmxWord (fieldsOf w) = true ↔ (bitsAt w 24 4 = 14 ∨ bitsAt w 25 3 = 6) ∧ bitsAt w 9 3 = 0 := by
  rw [cop_class_iff]
  simp [isWmmxWord, fieldsOf]

theorem decode_host {w : Word} (h : ¬ ((bitsAt w 24 4 = 14 ∨ bitsAt w 25 3 = 6) ∧ bitsAt w 9 3 = 0)) :
    decode w = .host := by
  rw [← isWmmxWord_fieldsOf] at h
  simp [decode, decodeFields, h]

end Sys2Proof.Machine
end

section
/-! SUPPORT. The words of the reserved rows decode to class U (spec/30_encoding.md R98, R101 to R103, R106). -/

namespace Sys2Proof.Machine

section
variable (c : Cond) (op1 op2 : BitVec 3) (cp : BitVec 1) (n d m : BitVec 4)

theorem decode_cdpWord (op1 : BitVec 4) :
    decode (cdpWord (condBits c) op1 n d cp op2 m) =
      decodeFields (cdpFields (condBits c) op1 (dregOf n) (dregOf d) (bitAt cp 0) op2 m) := by
  rw [decode, fieldsOf_cdpWord]
  rfl

/-- The reserved rows of coprocessor 0 (R101). -/
theorem decode_cdp0_reserved (op1 : BitVec 4)
    (h : (op2 = 0 ∧ op1 ∈ [6#4, 7#4, 10#4, 11#4, 14#4, 15#4]) ∨ (op2 = 1 ∧ op1 ∈ [12#4, 13#4, 14#4, 15#4]) ∨
      (op2 = 3 ∧ op1 ∈ [2#4, 6#4, 10#4, 14#4]) ∨ (op2 = 6 ∧ op1 ∈ [3#4, 7#4]) ∨
      (op2 = 7 ∧ op1 ∈ [3#4, 7#4, 11#4, 15#4])) :
    decode (cdpWord (condBits c) op1 n d 0 op2 m) = .undefined := by
  rw [decode_cdpWord]
  rcases h with ⟨rfl, h⟩ | ⟨rfl, h⟩ | ⟨rfl, h⟩ | ⟨rfl, h⟩ | ⟨rfl, h⟩
  · exact (decodeFields_misc ..).trans (decodeMisc_reserved c _ _ _ h)
  · exact (decodeFields_align ..).trans (decodeAlign_reserved c _ _ _ h)
  · exact (decodeFields_compare ..).trans (decodeCompare_reserved c _ _ _ h)
  · exact (decodeFields_unpackHigh ..).trans (decodeUnpackHigh_reserved c _ _ _ _ h)
  · exact (decodeFields_unpackLow ..).trans (decodeUnpackLow_reserved c _ _ _ _ h)

/-- The reserved rows of coprocessor 1 (R102). -/
theorem decode_cdp1_reserved (op1 : BitVec 4)
    (h : (op2 = 1 ∧ op1 ∈ [2#4, 3#4, 6#4, 7#4]) ∨ (op2 = 5 ∧ op1 ∈ [2#4, 6#4, 12#4, 13#4, 14#4, 15#4]) ∨
      (op2 = 6 ∧ op1 ∈ [3#4, 7#4, 11#4, 15#4])) :
    decode (cdpWord (condBits c) op1 n d 1 op2 m) = .undefined := by
  rw [decode_cdpWord]
  rcases h with ⟨rfl, h⟩ | ⟨rfl, h⟩ | ⟨rfl, h⟩
  · exact (decodeFields_difference ..).trans (decodeDifference_reserved c _ _ _ h)
  · exact (decodeFields_sub ..).trans (decodeSub_reserved c _ _ _ h)
  · exact (decodeFields_acc ..).trans (decodeAcc_reserved c _ _ _ _ h)

/-- The fields of an MCR or MRC word are those that the encoder writes. -/
theorem decode_transferWord_fields (l : BitVec 1) :
    decode (transferWord (condBits c) op1 l n d cp op2 m) =
      decodeFields (xferFields c op1 (bitAt l 0) n d (bitAt cp 0) op2 m) := by
  have hl : BitVec.ofBool (bitAt l 0) = l := by revert l; decide
  rw [decode, fieldsOf_transferWord, xferFields, hl]

theorem bitAt_zero_eq_true (b : BitVec 1) : bitAt b 0 = true ↔ b = 1 := by
  revert b; decide

theorem bitAt_zero_eq_false (b : BitVec 1) : bitAt b 0 = false ↔ b = 0 := by
  revert b; decide

/-- MCR words with no row (R103). -/
theorem decode_mcr_reserved (htmia : op1 ≠ 1) (hctrl : ¬ (cp = 1 ∧ op1 = 0 ∧ op2 = 0))
    (hfield : ¬ (cp = 0 ∧ op1 ∈ [2#3, 3#3] ∧ bitAt op2 0 = false)) :
    decode (transferWord (condBits c) op1 0 n d cp op2 m) = .undefined := by
  rw [← bitAt_zero_eq_true] at hctrl
  rw [← bitAt_zero_eq_false] at hfield
  rw [decode_transferWord_fields]
  exact (decodeFields_mcr _ _ _ _ _ _ _ htmia).trans (decodeMcr_reserved c n d m hctrl hfield)

/-- The TMIA group with a selector of no row (R103). -/
theorem decode_tmia_reserved (sel : BitVec 4) (h : sel ∉ [0#4, 8#4, 12#4, 13#4, 14#4, 15#4]) :
    decode (transferWord (condBits c) 1 0 sel d cp op2 m) = .undefined := by
  rw [decode_transferWord_fields]
  exact (decodeFields_tmia ..).trans (decodeTmia_reserved c d m h _)

/-- MRC words with no row (R103). -/
theorem decode_mrc_reserved (hctrl : ¬ (cp = 1 ∧ op1 = 0 ∧ op2 = 0))
    (hgroup : ¬ (cp = 1 ∧ bitAt op1 0 = false ∧ op2 ∈ [1#3, 2#3, 3#3, 4#3]))
    (hfield : ¬ (cp = 0 ∧ bitAt op1 0 = false ∧ op2 ∈ [1#3, 3#3])) :
    decode (transferWord (condBits c) op1 1 n d cp op2 m) = .undefined := by
  rw [← bitAt_zero_eq_true] at hctrl hgroup
  rw [← bitAt_zero_eq_false] at hfield
  rw [decode_transferWord_fields]
  exact (decodeFields_mrc ..).trans (decodeMrc_reserved c n d m hctrl hgroup hfield)

/-- MCRR and MRRC words with another Opcode2 or cp_num (R98). -/
theorem decode_pairTransfer_reserved (l m : BitVec 1) (hi lo : BitVec 4) (off : BitVec 8)
    (h : m = 1 ∨ bitsAt off 4 4 ≠ 0) : decode (memoryWord (condBits c) 0 0 1 0 l hi lo m off) = .undefined := by
  rw [decode_memoryWord_cond, if_pos (by decide), fieldsOf_memoryWord]
  refine if_neg ?_
  rintro ⟨hm, (hop2 : bitsAt off 5 3 = 0), (hb4 : bitAt off 4 = false)⟩
  rcases h with rfl | hoff
  · cases hm
  · exact hoff (by rw [bitsAt_succ, hop2, hb4]; rfl)

end

/-! ### The unconditional words (R106) -/

section
variable {w : Word}

/-- A load or store word that is not of coprocessor 1. -/
theorem decodeMem_uncond_reserved (hc : bitsAt w 28 4 = 15) (hcp : bitAt w 8 = false) :
    decodeMem (fieldsOf w) = .undefined := by
  have hcond : condOf (fieldsOf w).c = none := congrArg condOf hc
  have hcp : (fieldsOf w).cp = false := hcp
  simp [decodeMem, hcond, hcp]

/-- A CDP, MCR or MRC word that is no immediate shift. -/
theorem decodeCop_uncond_reserved (hc : bitsAt w 28 4 = 15) (hshift : bitsAt w 4 4 ≠ 4) :
    decodeCop (fieldsOf w) = .undefined := by
  have hcond : condOf (fieldsOf w).c = none := congrArg condOf hc
  have hrow : ¬ ((fieldsOf w).b4 = false ∧ (fieldsOf w).op2 = 2) := by
    rintro ⟨(hb4 : bitAt w 4 = false), (hop2 : bitsAt w 5 3 = 2)⟩
    exact hshift (by rw [bitsAt_succ, hop2, hb4]; rfl)
  unfold decodeCop
  rw [hcond]
  exact if_neg hrow

/-- `Cond` = 1111 and neither an LDC or STC word of coprocessor 1 nor an immediate shift. -/
theorem decode_uncond_reserved (w : Word) (hc : bitsAt w 28 4 = 15) (hclass : bitsAt w 24 4 = 14 ∨ bitsAt w 25 3 = 6)
    (hcpHi : bitsAt w 9 3 = 0) (hmem : ¬ (bitsAt w 25 3 = 6 ∧ bitsAt w 8 4 = 1))
    (hshift : ¬ (bitsAt w 24 4 = 14 ∧ bitsAt w 4 4 = 4)) : decode w = .undefined := by
  have hw : isWmmxWord (fieldsOf w) = true := (isWmmxWord_fieldsOf w).mpr ⟨hclass, hcpHi⟩
  rw [decode, decodeFields, if_pos hw]
  by_cases hk : bitsAt w 25 3 = 6
  · have hcp : bitAt w 8 = false := by
      by_contra hcp
      exact hmem ⟨hk, by rw [bitsAt_succ, hcpHi, eq_true_of_ne_false hcp]; rfl⟩
    exact (if_pos hk).trans (decodeMem_uncond_reserved hc hcp)
  · have hcop : bitsAt w 24 4 = 14 := hclass.resolve_right hk
    exact (if_neg hk).trans (decodeCop_uncond_reserved hc fun h => hshift ⟨hcop, h⟩)

end

end Sys2Proof.Machine
end

section
/-! Statements of spec/30_encoding.md, settled from the lemmas above. -/

namespace Sys2Proof.Machine

/-- Settles O2: the word's slices are the encoder's, and each group of the decoder reads its rows back. -/
theorem decodeEncode : Obligations.DecodeEncode := by
  intro i hw
  rw [decode_encode_eq, decodeFields_encodeFields hw]

/-- Settles O3: the opcode maps are complete, so the slices of the word are those of its instruction. -/
theorem encodeDecode : Obligations.EncodeDecode := by
  intro w i h
  obtain ⟨hfields, hw⟩ := covered (fieldsOf w) i h
  exact ⟨by rw [encode, hfields, assemble_fieldsOf], hw⟩

/-- Settles O6: a class U word runs in the envelope of its own condition field. -/
theorem undefinedWordRaises : Obligations.UndefinedWordRaises := by
  intro s w hpc hw hd
  rw [step_eq_runWord hpc hw, runWord_undefined hd]
  exact ⟨envelopeOfWord_undefined, envelopeOfWord_skips⟩

/-- Settles O11: every instruction runs in the envelope of its word. -/
theorem failedConditionSkips : Obligations.FailedConditionSkips := by
  intro i s hc
  obtain ⟨k, hk⟩ := exec_eq_envelope i s
  rw [hk, envelopeOfWord_skips hc]

/-- Settles O12: the envelope checks the access before the rule of the instruction runs. -/
theorem disabledAccessRaises : Obligations.DisabledAccessRaises := by
  intro i s hc ha
  obtain ⟨k, hk⟩ := exec_eq_envelope i s
  rw [hk, envelopeOfWord_disabled hc (accessOk_eq_false ha)]

/-- Settles O60: each clause is the lemma above for its rows of R98, R101 to R103 and R106. -/
theorem reservedWordsAreUndefined : Obligations.ReservedWordsAreUndefined := by
  refine ⟨?_, ?_, ?_, ?_, ?_, ?_, decode_uncond_reserved⟩
  · exact fun c n d m op1 op2 => decode_cdp0_reserved c op2 n d m op1
  · exact fun c n d m op1 op2 => decode_cdp1_reserved c op2 n d m op1
  · exact fun c op1 op2 cp n d m => decode_mcr_reserved c op1 op2 cp n d m
  · exact fun c op2 cp sel d m => decode_tmia_reserved c op2 cp d m sel
  · exact fun c op1 op2 cp n d m => decode_mrc_reserved c op1 op2 cp n d m
  · exact decode_pairTransfer_reserved

/-- Settles O1, by running the decoder on each word. -/
theorem writtenWordsDecode : Obligations.WrittenWordsDecode := by
  refine ⟨?_, ?_, ?_, ?_, ?_, ?_, ?_, ?_⟩ <;> decide

/-- Settles O4: the step runs the word that stands at the pc. -/
theorem stepRunsInstruction : Obligations.StepRunsInstruction := by
  refine ⟨fun s w i hpc hw hd => ?_, fun s w => ⟨fetchWord_handWord s w, rfl⟩⟩
  rw [step_eq_runWord hpc hw, runWord_instr hd]

/-- Settles O5: the pc is tested first, then the word at it, then its class. -/
theorem stepRefuses : Obligations.StepRefuses := by
  refine ⟨fun _ => step_misaligned, fun _ => step_noWord, fun s w hpc hw hclass => ?_⟩
  rw [step_eq_runWord hpc hw, runWord, decode_host hclass]

/-- Settles O10: each condition reads the flags at their places in the nibble. -/
theorem conditionTable : Obligations.ConditionTable := by
  intro s n z c v h
  obtain ⟨hn, hz, hc, hv⟩ := bitAt_nibbleOf n z c v
  simp [condPass, condHolds, h, hn, hz, hc, hv]

end Sys2Proof.Machine
end

section
/-! SUPPORT. The flag nibbles of wCASF and the saturation bits of wCSSF that each size names, and what their conjunction
and disjunction come to (spec/10_state.md R25, R27, spec/40_transfer.md R131, R144, R145). -/

namespace Sys2Proof.Machine

/-! ### The place of the flags of a field -/

theorem flagIndex_byte (i : Nat) : flagIndex 8 i = i := by
  unfold flagIndex; omega

theorem flagIndex_half (i : Nat) : flagIndex 16 i = 2 * i + 1 := by
  unfold flagIndex; omega

theorem flagIndex_word (i : Nat) : flagIndex 32 i = 4 * i + 3 := by
  unfold flagIndex; omega

/-! ### AND and OR over the fields, the last field first as the rules write them -/

section
variable (w : Nat) (a : Word) (b : BitVec 8) (k : Nat)

theorem andNibbles_zero : andNibbles w a 0 = BitVec.allOnes 4 := rfl

theorem andNibbles_succ : andNibbles w a (k + 1) = field 4 (flagIndex w k) a &&& andNibbles w a k :=
  BitVec.and_comm _ _

theorem orNibbles_zero : orNibbles w a 0 = 0#4 := rfl

theorem orNibbles_succ : orNibbles w a (k + 1) = field 4 (flagIndex w k) a ||| orNibbles w a k :=
  BitVec.or_comm _ _

theorem orSatBits_zero : orSatBits w b 0 = false := rfl

theorem orSatBits_succ : orSatBits w b (k + 1) = (bitAt b (flagIndex w k) || orSatBits w b k) :=
  Bool.or_comm _ _

end

section
variable (a : Word) (b : BitVec 8)

theorem andNibbles_byte : andNibbles 8 a 8 =
    field 4 7 a &&& field 4 6 a &&& field 4 5 a &&& field 4 4 a &&& field 4 3 a &&& field 4 2 a &&& field 4 1 a &&&
      field 4 0 a := by
  simp only [andNibbles_succ, andNibbles_zero, flagIndex_byte, BitVec.and_allOnes, BitVec.and_assoc]

theorem andNibbles_half : andNibbles 16 a 4 = field 4 7 a &&& field 4 5 a &&& field 4 3 a &&& field 4 1 a := by
  simp only [andNibbles_succ, andNibbles_zero, flagIndex_half, BitVec.and_allOnes, BitVec.and_assoc]

theorem andNibbles_word : andNibbles 32 a 2 = field 4 7 a &&& field 4 3 a := by
  simp only [andNibbles_succ, andNibbles_zero, flagIndex_word, BitVec.and_allOnes]

theorem orNibbles_byte : orNibbles 8 a 8 =
    field 4 7 a ||| field 4 6 a ||| field 4 5 a ||| field 4 4 a ||| field 4 3 a ||| field 4 2 a ||| field 4 1 a |||
      field 4 0 a := by
  simp only [orNibbles_succ, orNibbles_zero, flagIndex_byte, BitVec.or_zero, BitVec.or_assoc]

theorem orNibbles_half : orNibbles 16 a 4 = field 4 7 a ||| field 4 5 a ||| field 4 3 a ||| field 4 1 a := by
  simp only [orNibbles_succ, orNibbles_zero, flagIndex_half, BitVec.or_zero, BitVec.or_assoc]

theorem orNibbles_word : orNibbles 32 a 2 = field 4 7 a ||| field 4 3 a := by
  simp only [orNibbles_succ, orNibbles_zero, flagIndex_word, BitVec.or_zero]

theorem orSatBits_half : orSatBits 16 b 4 = (bitAt b 7 || bitAt b 5 || bitAt b 3 || bitAt b 1) := by
  simp only [orSatBits_succ, orSatBits_zero, flagIndex_half, Bool.or_false, Bool.or_assoc]

theorem orSatBits_word : orSatBits 32 b 2 = (bitAt b 7 || bitAt b 3) := by
  simp only [orSatBits_succ, orSatBits_zero, flagIndex_word, Bool.or_false]

theorem orSatBits_eq_true_iff (w k : Nat) : orSatBits w b k = true ↔ ∃ i < k, bitAt b (flagIndex w i) = true := by
  induction k with
  | zero => simp [orSatBits_zero]
  | succ k ih =>
    rw [orSatBits_succ, Bool.or_eq_true, ih, Nat.exists_lt_succ_right, or_comm]

/-- Every bit of wCSSF is the saturation bit of a byte field. -/
theorem orSatBits_byte : orSatBits 8 b 8 = decide (b ≠ 0) := by
  rw [Bool.eq_iff_iff, orSatBits_eq_true_iff, decide_eq_true_eq]
  constructor
  · rintro ⟨i, -, hbit⟩ rfl
    simp [bitAt] at hbit
  · intro hne
    by_contra hnone
    refine hne (BitVec.eq_of_getLsbD_eq fun i hi => ?_)
    have hclear : ¬ bitAt b i = true := fun hbit => hnone ⟨i, hi, by rwa [flagIndex_byte]⟩
    simpa [bitAt] using hclear

end

end Sys2Proof.Machine
end

section
/-! SUPPORT. The values that the transfers carry: an extended field, the gathered top bits, the halves of a data register
(spec/40_transfer.md R134, R137, R141). -/

namespace Sys2Proof.Machine

theorem bhwWidth_le (sz : Bhw) : bhwWidth sz ≤ 32 := by
  cases sz <;> decide

theorem extendTo_u_toNat {w l : Nat} (h : w ≤ l) (v : BitVec w) : (extendTo l .u v).toNat = v.toNat :=
  BitVec.toNat_setWidth_of_le h

theorem extendTo_s_toInt {w l : Nat} (h : w ≤ l) (v : BitVec w) : (extendTo l .s v).toInt = v.toInt :=
  BitVec.toInt_signExtend_of_le h

/-- The sign bit of a field is the top of its bits. -/
theorem msb_field {w l : Nat} (hw : 0 < w) (i : Nat) (v : BitVec l) : (field w i v).msb = bitAt v (w * i + (w - 1)) := by
  simp [BitVec.msb_eq_getLsbD_last, field, bitAt, hw]

/-- One bit, moved to place `m` of a word. -/
theorem bitAt_placeBit (b : Bool) {m : Nat} (hm : m < 32) (k : Nat) :
    bitAt ((BitVec.ofBool b).setWidth 32 <<< m) k = (decide (k = m) && b) := by
  by_cases hk : k = m
  · subst hk
    simp [bitAt, hm]
  · have hoff : ¬ k < m → k - m ≠ 0 := by omega
    by_cases hlt : k < m <;> simp [bitAt, hk, hlt, hoff]

/-- Bit `k` of the gathered bits is the top bit of field `k`. -/
theorem bitAt_gatherTop {w : Nat} (hw : 0 < w) (v : DWord) {n : Nat} (hn : n ≤ 32) (k : Nat) :
    bitAt (gatherTop w v n) k = (decide (k < n) && bitAt v (w * k + (w - 1))) := by
  induction n with
  | zero => simp [gatherTop, bitAt]
  | succ n ih =>
    have hor : bitAt (gatherTop w v (n + 1)) k =
        (bitAt (gatherTop w v n) k || bitAt ((BitVec.ofBool (field w n v).msb).setWidth 32 <<< n) k) :=
      BitVec.getLsbD_or
    rw [hor, ih (by omega), bitAt_placeBit _ (by omega), msb_field hw]
    by_cases hk : k = n
    · subst hk; simp
    · have hlt : k < n + 1 ↔ k < n := by omega
      simp [hk, hlt]

theorem field_append_hi (hi lo : Word) : field 32 1 (hi ++ lo : DWord) = hi :=
  BitVec.extractLsb'_append_eq_left

theorem field_append_lo (hi lo : Word) : field 32 0 (hi ++ lo : DWord) = lo :=
  BitVec.extractLsb'_append_eq_right

/-! ### Control registers -/

theorem bitAt_ofBool (b : Bool) : bitAt (BitVec.ofBool b) 0 = b := by
  cases b <;> rfl

section
variable (s : State) (cx : CtrlReg)

/-- A read returns the defined bits above which the reserved ones are free (spec/10_state.md R27, R31). -/
theorem ctrlReads_readCtrl : CtrlReads cx s (s.readCtrl cx) := by
  cases cx with
  | wCID | wCASF | wCGR => rfl
  | wCon => simp [CtrlReads, State.readCtrl, bitAt_append_one, bitAt_ofBool]
  | wCSSF => exact BitVec.extractLsb'_append_eq_right

/-- A read changes nothing but the model's counter of free values. -/
theorem afterReadCtrl_eq : ∃ n, s.afterReadCtrl cx = { s with draws := n } := by
  cases cx with
  | wCon | wCSSF => exact ⟨s.draws + 1, rfl⟩
  | wCID | wCASF | wCGR => exact ⟨s.draws, rfl⟩

theorem ctrlWritten_writeCtrl (v : Word) : CtrlWritten cx v s (s.writeCtrl cx v) := by
  cases cx <;> rfl

/-- The form whose one destination is a core register leaves everything else (spec/00_scope.md R17). -/
theorem drawDests_destsCore (r : CoreReg) :
    ∃ v n, s.drawDests (destsCore r) = { s with x := s.x.set r v, draws := n } :=
  ⟨_, _, rfl⟩

end

end Sys2Proof.Machine
end

section
/-! SUPPORT. What each transfer answers once its condition passes and the coprocessor is enabled, the whole next state
(spec/40_transfer.md R131 to R145). -/

namespace Sys2Proof.Machine

section
variable {c : Cond} {s : State}

theorem conditional_complete {i : Instr} {u : State} (h : Enabled c s) :
    conditional c i s (complete u) = .next { u with pc := u.pc + 4 } :=
  conditional_ok h.1 h.2

/-! ### The CPSR flags -/

theorem exec_tandc_enabled (h : Enabled c s) (sz : Bhw) :
    exec (.tandc c sz) s =
      .next { s with nzcv := andNibbles (bhwWidth sz) s.casf (64 / bhwWidth sz), pc := s.pc + 4 } :=
  conditional_complete h

theorem exec_torc_enabled (h : Enabled c s) (sz : Bhw) :
    exec (.torc c sz) s =
      .next { s with nzcv := orNibbles (bhwWidth sz) s.casf (64 / bhwWidth sz), pc := s.pc + 4 } :=
  conditional_complete h

theorem exec_textrc_enabled (h : Enabled c s) (sz : Bhw) (imm : BitVec 3) :
    exec (.textrc c sz imm) s = .next { s with
      nzcv := field 4 (flagIndex (bhwWidth sz) (imm.toNat % (64 / bhwWidth sz))) s.casf, pc := s.pc + 4 } :=
  conditional_complete h

theorem exec_torvsc_enabled (h : Enabled c s) (sz : Bhw) :
    exec (.torvsc c sz) s = .next { s with
      nzcv := nibbleOf false false false (orSatBits (bhwWidth sz) s.cssf (64 / bhwWidth sz)), pc := s.pc + 4 } :=
  conditional_complete h

/-! ### Core registers -/

theorem exec_textrm_enabled (h : Enabled c s) (sg : Sign) (sz : Bhw) (rd : CoreReg) (n : DReg) (imm : BitVec 3) :
    exec (.textrm c sg sz rd n imm) s = .next { s with
      x := s.x.set rd (extendTo 32 sg (field (bhwWidth sz) (imm.toNat % (64 / bhwWidth sz)) (s.readWR n))),
      pc := s.pc + 4 } :=
  conditional_complete h

theorem exec_tmovmsk_enabled (h : Enabled c s) (sz : Bhw) (rd : CoreReg) (n : DReg) :
    exec (.tmovmsk c sz rd n) s = .next { s with
      x := s.x.set rd (gatherTop (bhwWidth sz) (s.readWR n) (64 / bhwWidth sz)), pc := s.pc + 4 } :=
  conditional_complete h

theorem exec_tmrrc_distinct (h : Enabled c s) {lo hi : CoreReg} (hne : lo ≠ hi) (n : DReg) :
    exec (.tmrrc c lo hi n) s = .next { s with
      x := (s.x.set hi (field 32 1 (s.readWR n))).set lo (field 32 0 (s.readWR n)), pc := s.pc + 4 } := by
  refine (conditional_complete h).trans ?_
  rw [if_neg hne]
  rfl

/-- A register that receives both halves ends with a free value (R143, spec/00_scope.md R17). -/
theorem exec_tmrrc_same (h : Enabled c s) (r : CoreReg) (n : DReg) :
    ∃ v k, exec (.tmrrc c r r n) s = .next { s with x := s.x.set r v, draws := k, pc := s.pc + 4 } := by
  obtain ⟨v, k, hdraw⟩ := drawDests_destsCore s r
  refine ⟨v, k, (conditional_complete h).trans ?_⟩
  rw [if_pos rfl, hdraw]

theorem exec_tmrc_enabled (h : Enabled c s) (rd : CoreReg) (cx : CtrlReg) :
    ∃ n, exec (.tmrc c rd cx) s =
      .next { s with x := s.x.set rd (s.readCtrl cx), draws := n, pc := s.pc + 4 } := by
  obtain ⟨n, hread⟩ := afterReadCtrl_eq s cx
  refine ⟨n, (conditional_complete h).trans ?_⟩
  rw [hread]
  rfl

/-! ### Data and control registers -/

theorem puts_conditional {i : Instr} (h : Enabled c s) (d : DReg) (v : DWord) :
    Puts (conditional c i s (complete (s.writeWR d v))) s d v :=
  conditional_complete h

theorem exec_tmcr_enabled (h : Enabled c s) (cx : CtrlReg) (rn : CoreReg) :
    exec (.tmcr c cx rn) s = .next { s.writeCtrl cx (s.readX rn) with pc := s.pc + 4 } := by
  rw [← writeCtrl_pc s cx (s.readX rn)]
  exact conditional_complete h

/-- A form that accumulates (R138 to R140) writes wRd once, with the sum. -/
theorem puts_accumulate {i : Instr} (h : Enabled c s) (d : DReg) (p : Int) :
    Puts (conditional c i s (complete (s.accumulate d p))) s d (BitVec.ofInt 64 (p + (s.readWR d).toInt)) :=
  puts_conditional h d _

theorem puts_tmia (h : Enabled c s) (d : DReg) (rm rs : CoreReg) :
    Puts (exec (.tmia c d rm rs) s) s d
      (BitVec.ofInt 64 ((s.readX rm).toInt * (s.readX rs).toInt + (s.readWR d).toInt)) :=
  puts_accumulate h d _

theorem puts_tmiaph (h : Enabled c s) (d : DReg) (rm rs : CoreReg) :
    Puts (exec (.tmiaph c d rm rs) s) s d
      (BitVec.ofInt 64 (coreHalfProduct s rm rs .t .t + coreHalfProduct s rm rs .b .b + (s.readWR d).toInt)) :=
  puts_accumulate h d _

theorem puts_tmiaxy (h : Enabled c s) (x y : Half) (d : DReg) (rm rs : CoreReg) :
    Puts (exec (.tmiaxy c x y d rm rs) s) s d
      (BitVec.ofInt 64 (coreHalfProduct s rm rs x y + (s.readWR d).toInt)) :=
  puts_accumulate h d _

/-- The field that TBCST and TINSR take from a core register is its low bits (R132, R135). -/
theorem setWidth_readX (w : Nat) (rn : CoreReg) : (s.readX rn).setWidth w = BitVec.ofNat w (s.readX rn).toNat :=
  (BitVec.ofNat_toNat w (s.readX rn)).symm

end

end Sys2Proof.Machine
end

section
/-! Statements of spec/40_transfer.md, settled from the lemmas above. -/

namespace Sys2Proof.Machine

/-- Settles O14: each size names its nibbles. -/
theorem groupFlags : Obligations.GroupFlags := by
  intro c s h g
  refine ⟨?_, ?_, ?_, ?_, ?_, ?_⟩
  · rw [exec_tandc_enabled h, ← andNibbles_byte]; rfl
  · rw [exec_tandc_enabled h, ← andNibbles_half]; rfl
  · rw [exec_tandc_enabled h, ← andNibbles_word]; rfl
  · rw [exec_torc_enabled h, ← orNibbles_byte]; rfl
  · rw [exec_torc_enabled h, ← orNibbles_half]; rfl
  · rw [exec_torc_enabled h, ← orNibbles_word]; rfl

/-- Settles O15: each size names its nibble of wCASF and its bits of wCSSF. -/
theorem flagExtraction : Obligations.FlagExtraction := by
  intro c s h
  refine ⟨fun imm => ⟨?_, ?_, ?_⟩, ?_, ?_, ?_⟩
  · have himm : imm.toNat % (64 / 8) = imm.toNat := Nat.mod_eq_of_lt imm.isLt
    rw [exec_textrc_enabled h, bhwWidth, flagIndex_byte, himm]
  · rw [exec_textrc_enabled h, bhwWidth, flagIndex_half]
  · rw [exec_textrc_enabled h, bhwWidth, flagIndex_word]
  · rw [exec_torvsc_enabled h, ← orSatBits_byte]; rfl
  · rw [exec_torvsc_enabled h, ← orSatBits_half]; rfl
  · rw [exec_torvsc_enabled h, ← orSatBits_word]; rfl

/-- Settles O16: an extension to 32 bits keeps the value of a field, which is no wider, and the gathered bits are read one
by one. -/
theorem fieldToCoreRegister : Obligations.FieldToCoreRegister := by
  intro c sz rd n s h
  refine ⟨fun sg imm => ⟨_, ?_, ?_, exec_textrm_enabled h sg sz rd n imm⟩, _, ?_, exec_tmovmsk_enabled h sz rd n⟩
  · rintro rfl
    rw [extendTo_u_toNat (bhwWidth_le sz)]
  · rintro rfl
    rw [extendTo_s_toInt (bhwWidth_le sz)]
  · exact bitAt_gatherTop (bhwWidth_pos sz) _ (by cases sz <;> decide)

/-- Settles O17: the fields of the result are those written, with the low bits of Rn in the fields that take them. -/
theorem coreRegisterToFields : Obligations.CoreRegisterToFields := by
  intro c sz d rn s h
  refine ⟨putsFields_conditional (bhwWidth_pos sz) h fun _ _ => setWidth_readX _ rn, fun imm => ?_⟩
  refine putsFields_conditional (bhwWidth_pos sz) h fun i _ => ?_
  rw [setWidth_readX]
  rfl

/-- Settles O18: TMCRR by the halves of its result, TMRRC by whether its two destinations are one. -/
theorem pairTransfers : Obligations.PairTransfers := by
  intro c d lo hi s h
  refine ⟨⟨s.readX hi ++ s.readX lo, ⟨field_append_hi _ _, field_append_lo _ _⟩, puts_conditional h d _⟩,
    fun hne => exec_tmrrc_distinct h hne d, ?_⟩
  rintro rfl
  exact exec_tmrrc_same h lo d

/-- Settles O19: the top half of a core register is its field 1 and the bottom half its field 0. -/
theorem coreMultiplyAccumulate : Obligations.CoreMultiplyAccumulate := by
  intro c d rm rs s h top bottom
  exact ⟨puts_tmia h d rm rs, puts_tmiaph h d rm rs, puts_tmiaxy h .t .t d rm rs, puts_tmiaxy h .t .b d rm rs,
    puts_tmiaxy h .b .t d rm rs, puts_tmiaxy h .b .b d rm rs⟩

/-- Settles O20: TMCR writes by the write rule of the register and moves the pc. -/
theorem controlRegisterWrite : Obligations.ControlRegisterWrite := fun _ cx rn s h =>
  ⟨_, ctrlWritten_writeCtrl s cx (s.readX rn), exec_tmcr_enabled h cx rn⟩

/-- Settles O21: TMRC reads the register and takes at most its reserved bits from the free values. -/
theorem controlRegisterRead : Obligations.ControlRegisterRead := by
  intro c rd cx s h
  obtain ⟨n, hexec⟩ := exec_tmrc_enabled h rd cx
  exact ⟨_, n, ctrlReads_readCtrl s cx, hexec⟩

end Sys2Proof.Machine
end

section
/-! SUPPORT. A 64-bit result and the one flag nibble that it puts in wCASF (spec/10_state.md R25, R26,
spec/41_logic_average_align.md R160 to R165), and the bit row that the logic instructions share. -/

namespace Sys2Proof

/-- The row of a CDP word of coprocessor 0 (R94): bits 11:8 are 0. -/
theorem assemble_cdpFields_cp0 (cond op1 : BitVec 4) (n d : DReg) (op2 : BitVec 3) (m : BitVec 4) :
    assemble (cdpFields cond op1 n d false op2 m) =
      cond ++ 14#4 ++ op1 ++ dregBits n ++ dregBits d ++ 0#4 ++ op2 ++ 0#1 ++ m := by
  apply BitVec.eq_of_getLsbD_eq
  intro j hj
  simp only [assemble, cdpFields, BitVec.getLsbD_append, BitVec.getLsbD_ofBool]
  interval_cases j <;> simp

end Sys2Proof

namespace Sys2Proof.Machine

/-- The flags of the 64-bit format are the top nibble. -/
theorem casfOf_double (flags : Nat → BitVec 4) : casfOf 64 flags = flags 0 ++ 0#28 := by
  have hplace : ∀ b : BitVec 4, (0#32 ||| b.setWidth 32 <<< 28) = b ++ 0#28 := by decide
  exact hplace (flags 0)

section
variable {c : Cond} {s : State} {d : DReg}

theorem putsFlags_conditional_double {i : Instr} (h : Enabled c s) (r : DWord) :
    PutsFlags (conditional c i s (complete (s.putDouble d r))) s d r (nzOf r ++ 0#28) := by
  rw [← nzFlags_eq, ← casfOf_double fun _ => nzFlags r]
  exact conditional_complete h

/-- N at bit 31, Z at bit 30, and nothing below them. -/
theorem nzOf_append_bits (r : DWord) :
    bitAt (nzOf r ++ 0#28 : Word) 31 = bitAt r 63 ∧ bitAt (nzOf r ++ 0#28 : Word) 30 = decide (r = 0) ∧
      bitsAt (nzOf r ++ 0#28 : Word) 0 30 = 0 := by
  have hbits : ∀ n z : Bool, bitAt (nibbleOf n z false false ++ 0#28 : Word) 31 = n ∧
      bitAt (nibbleOf n z false false ++ 0#28 : Word) 30 = z ∧
      bitsAt (nibbleOf n z false false ++ 0#28 : Word) 0 30 = 0 := by decide
  have hmsb : r.msb = bitAt r 63 := BitVec.msb_eq_getLsbD_last r
  rw [← hmsb]
  exact hbits r.msb (decide (r = 0))

/-- What a 64-bit result with its flags shows: the register, N and Z, the other flags clear, wCSSF left alone. -/
theorem PutsFlags.double_reads {o : Result} {r : DWord} (h : PutsFlags o s d r (nzOf r ++ 0#28)) :
    ∃ t, o = .next t ∧ t.readWR d = r ∧ bitAt t.casf 31 = bitAt r 63 ∧ bitAt t.casf 30 = decide (r = 0) ∧
      bitsAt t.casf 0 30 = 0 ∧ t.cssf = s.cssf := by
  obtain ⟨hn, hz, hrest⟩ := nzOf_append_bits r
  have hreg : (s.writeWR d r).readWR d = r := by rw [readWR_writeWR, if_pos rfl]
  exact ⟨_, h, hreg, hn, hz, hrest, rfl⟩

end

end Sys2Proof.Machine
end

section
/-! SUPPORT. The exact values of the averages (spec/41_logic_average_align.md R168, R170): the average of fields fits in
a field, so nothing is lost where it is cut to the field's width. -/

namespace Sys2Proof.Machine

theorem averageTwo_toNat {w : Nat} (r : Bool) (x y : BitVec w) :
    (averageTwo r x y).toNat = (x.toNat + y.toNat + if r then 1 else 0) / 2 := by
  have hround : r.toNat = if r then 1 else 0 := by cases r <;> rfl
  have hle : r.toNat ≤ 1 := Bool.toNat_le r
  have hx := x.isLt
  have hy := y.isLt
  rw [averageTwo, BitVec.toNat_ofNat, Nat.mod_eq_of_lt (by omega), hround]

theorem averageFour_toNat (r : Bool) (a b : DWord) {i : Nat} (hi : i < 7) :
    (averageFour r a b i).toNat =
      ((field 8 (i + 1) a).toNat + (field 8 (i + 1) b).toNat + (field 8 i a).toNat + (field 8 i b).toNat +
        if r then 2 else 1) / 4 := by
  have hround : 1 + r.toNat = if r then 2 else 1 := by cases r <;> rfl
  have hle : r.toNat ≤ 1 := Bool.toNat_le r
  have ha := (field 8 i a).isLt
  have hb := (field 8 i b).isLt
  have ha' := (field 8 (i + 1) a).isLt
  have hb' := (field 8 (i + 1) b).isLt
  rw [averageFour, if_pos hi, BitVec.toNat_ofNat, Nat.mod_eq_of_lt (by omega), Nat.add_assoc _ 1, hround]

/-- An enabled form with Z of each field in wCASF. -/
theorem putsFlagged_conditional_z {c : Cond} {i : Instr} {s : State} {d : DReg} {w : Nat}
    (hw : w = 8 ∨ w = 16 ∨ w = 32 ∨ w = 64) (h : Enabled c s) (f : Nat → BitVec w) :
    PutsFlagged (conditional c i s (complete (s.putFieldsZ w d f))) s d w f (fun i => zOf (f i)) :=
  putsFlagged_conditional (by omega) hw h (fun _ _ => rfl) fun i _ => zFlags_eq (f i)

end Sys2Proof.Machine
end

section
/-! SUPPORT. The bytes that the alignments select from the pair wRm : wRn (spec/41_logic_average_align.md R174,
R175). -/

namespace Sys2Proof.Machine

/-- A shift by whole fields moves each field down. -/
theorem field_ushiftRight {l : Nat} (w i k : Nat) (v : BitVec l) : field w i (v >>> (w * k)) = field w (i + k) v := by
  apply BitVec.eq_of_getLsbD_eq
  intro j hj
  simp only [field, BitVec.getLsbD_extractLsb', BitVec.getLsbD_ushiftRight]
  rw [Nat.mul_add]
  congr 2
  omega

/-- Cutting a vector keeps the fields that lie below the cut. -/
theorem field_setWidth {l w i m : Nat} (v : BitVec l) (h : w * (i + 1) ≤ m) :
    field w i (v.setWidth m) = field w i v := by
  rw [Nat.mul_succ] at h
  apply BitVec.eq_of_getLsbD_eq
  intro j hj
  have hin : w * i + j < m := by omega
  simp [field, hj, hin]

/-- The bytes of a pair: the low register first. -/
theorem field_pair (hi lo : DWord) (j : Nat) :
    field 8 j (hi ++ lo) = if j < 8 then field 8 j lo else field 8 (j - 8) hi := by
  apply BitVec.eq_of_getLsbD_eq
  intro b hb
  have happend : (hi ++ lo).getLsbD (8 * j + b) =
      if 8 * j + b < 64 then lo.getLsbD (8 * j + b) else hi.getLsbD (8 * j + b - 64) := BitVec.getLsbD_append
  rw [field, BitVec.getLsbD_extractLsb', happend]
  by_cases hj : j < 8
  · have hlow : 8 * j + b < 64 := by omega
    rw [if_pos hlow, if_pos hj, field, BitVec.getLsbD_extractLsb']
  · have hhigh : ¬ 8 * j + b < 64 := by omega
    have hmove : 8 * j + b - 64 = 8 * (j - 8) + b := by omega
    rw [if_neg hhigh, if_neg hj, field, BitVec.getLsbD_extractLsb', hmove]

theorem isFields_alignPair (n m : DWord) (k : Nat) :
    IsFields 8 (alignPair n m k) fun i => if i + k < 8 then field 8 (i + k) n else field 8 (i + k - 8) m := by
  intro i hi
  rw [alignPair, field_setWidth _ (by omega), field_ushiftRight, field_pair]

theorem bitsAt_low_toNat {w : Nat} (v : BitVec w) (len : Nat) : (bitsAt v 0 len).toNat = v.toNat % 2 ^ len := by
  simp [bitsAt]

end Sys2Proof.Machine
end

section
/-! Statements of spec/41_logic_average_align.md, settled from the lemmas above. -/

namespace Sys2Proof.Machine

/-- Settles O22: each form puts one 64-bit result with its flags, and those of 0 are Z alone. -/
theorem logicResults : Obligations.LogicResults := by
  intro c d n m s h flags a b
  have puts {i : Instr} (r : DWord) : PutsFlags (conditional c i s (complete (s.putDouble d r))) s d r (flags r) :=
    putsFlags_conditional_double h r
  exact ⟨puts (a ||| b), puts (a ^^^ b), puts (a &&& b), puts (a &&& ~~~b), puts a, puts 0⟩

/-- Settles O23: the rows are those of coprocessor 0, and the rest is read off the results of O22. -/
theorem andXorRules : Obligations.AndXorRules := by
  intro c d n m s
  refine ⟨assemble_cdpFields_cp0 .., assemble_cdpFields_cp0 .., fun h => ?_⟩
  obtain ⟨-, hxor, hand, -⟩ := logicResults c d n m s h
  exact ⟨hand.double_reads, hxor.double_reads⟩

/-- Settles O24: the fields put are the averages, whose exact values are those of the rules. -/
theorem averages : Obligations.Averages := by
  intro c r d n m s h
  refine ⟨fun sz => ⟨_, fun i _ => averageTwo_toNat r _ _, putsFlagged_conditional_z (bhWidth_mem sz) h _⟩,
    averageFour r (s.readWR n) (s.readWR m), rfl, fun i hi => averageFour_toNat r _ _ hi, ?_⟩
  exact putsFlagged_conditional_z (.inl rfl) h _

/-- Settles O25: both forms write the bytes of the pair from their offset, WALIGNR's being wCGRk modulo 8. -/
theorem aligns : Obligations.Aligns := by
  intro c d n m s h pairByte
  refine ⟨fun imm => ⟨_, isFields_alignPair _ _ _, puts_conditional h d _⟩, fun g => ?_⟩
  have hoffset : (bitsAt (s.readCgr g) 0 3).toNat = (s.readCgr g).toNat % 8 := bitsAt_low_toNat _ 3
  rw [← hoffset]
  exact ⟨_, isFields_alignPair _ _ _, puts_conditional h d _⟩

end Sys2Proof.Machine
end

section
/-! SUPPORT. The bits of a shifted or rotated field, for any width and any amount (spec/42_shift_rotate.md R181). -/

namespace Sys2Proof.Machine

section
variable {w : Nat} (x : BitVec w) (sv : Nat) {j : Nat}

theorem bitAt_srlField : bitAt (srlField x sv) j = (decide (j + sv < w) && bitAt x (j + sv)) := by
  by_cases hin : j + sv < w
  · have hsv : sv < w := by omega
    simp [srlField, bitAt, hsv, hin, Nat.add_comm sv]
  · have hzero : x.getLsbD (j + sv) = false := BitVec.getLsbD_of_ge x _ (by omega)
    by_cases hsv : sv < w <;> simp [srlField, bitAt, hsv, hin, hzero, Nat.add_comm sv]

section
variable (hj : j < w)
include hj

theorem bitAt_sllField : bitAt (sllField x sv) j = (decide (sv ≤ j) && bitAt x (j - sv)) := by
  rw [sllField]
  split
  · have hplace : (!decide (j < sv)) = decide (sv ≤ j) := by rw [← decide_not, decide_eq_decide, not_lt]
    rw [bitAt, BitVec.getLsbD_shiftLeft, hplace]
    simp [hj, bitAt]
  · next hover =>
    have hlow : ¬ sv ≤ j := by omega
    simp [bitAt, hlow]

/-- Below the width the rule divides by 2^sv rounding down, which is the arithmetic shift; at and above it the field is
all sign bits. -/
theorem bitAt_sraField : bitAt (sraField x sv) j = bitAt x (min (j + sv) (w - 1)) := by
  have hsign : x.msb = bitAt x (w - 1) := BitVec.msb_eq_getLsbD_last x
  rw [sraField]
  split
  · have hshift : BitVec.ofInt w (floorShift x.toInt sv) = x.sshiftRight sv := by
      rw [BitVec.sshiftRight, Int.shiftRight_eq_div_pow, floorShift]
      norm_cast
    rw [hshift, bitAt, BitVec.getLsbD_sshiftRight]
    by_cases hin : sv + j < w
    · have hmin : min (j + sv) (w - 1) = sv + j := by omega
      simp [hj, hin, hmin, bitAt]
    · have hmin : min (j + sv) (w - 1) = w - 1 := by omega
      simp [hj, hin, hmin, hsign]
  · have hmin : min (j + sv) (w - 1) = w - 1 := by omega
    rw [hmin, ← hsign]
    cases hm : x.msb <;> simp [maskOf, bitAt, hj]

/-- The two shifted copies of the rule are the library's rotate. -/
theorem bitAt_rotField : bitAt (rotField x sv) j = bitAt x ((j + sv) % w) := by
  have hrot : rotField x sv = x.rotateRight sv := rfl
  have hr : sv % w < w := Nat.mod_lt sv (by omega)
  rw [hrot, bitAt, BitVec.getLsbD_rotateRight, bitAt, Nat.add_mod, Nat.mod_eq_of_lt hj]
  by_cases hlow : j < w - sv % w
  · have hstay : (j + sv % w) % w = sv % w + j := by rw [Nat.mod_eq_of_lt (by omega), Nat.add_comm]
    simp [hlow, hstay]
  · have hwrap : (j + sv % w) % w = j - (w - sv % w) := by
      rw [Nat.mod_eq_sub_mod (by omega), Nat.mod_eq_of_lt (by omega)]
      omega
    simp [hj, hlow, hwrap]

end

end

/-! ### The amount -/

theorem amountReg_eq (v : DWord) : amountReg v = v.toNat % 256 := bitsAt_low_toNat v 8

theorem amountCgr_eq (v : Word) : amountCgr v = v.toNat % 256 := bitsAt_low_toNat v 8

/-! ### The three forms -/

/-- Fields known bit by bit, put with N and Z of each field (R182). -/
theorem putsBits_putFieldsNZ {s : State} {d : DReg} {w : Nat} (hw : w = 8 ∨ w = 16 ∨ w = 32 ∨ w = 64)
    {f : Nat → BitVec w} {bit : Nat → Nat → Bool} (hbit : ∀ k j, j < w → bitAt (f k) j = bit k j) :
    PutsBits (complete (s.putFieldsNZ w d f)) s d w bit := by
  have hfields : IsFields w (fromFields w f) f := isFields_fromFields (by omega) fun _ _ => rfl
  refine ⟨fromFields w f, casfOf w fun k => nzFlags (f k), fun k hk j hj => ?_, ?_, rfl⟩
  · rw [hfields k hk]
    exact hbit k j hj
  · exact isFlags_casfOf hw fun k hk => by rw [hfields k hk, nzFlags_eq]

section
variable {c : Cond} {i : Instr} {s : State} {sz : Hwd} {d n : DReg}
  {f : BitVec (hwdWidth sz) → Nat → BitVec (hwdWidth sz)} {bit : Nat → Nat → Nat → Bool}
  (hbit : ∀ sv k j, j < hwdWidth sz → bitAt (f (field (hwdWidth sz) k (s.readWR n)) sv) j = bit sv k j)
include hbit

theorem putsBits_shiftFieldsBy (sv : Nat) :
    PutsBits (complete (s.shiftFieldsBy sz f d n sv)) s d (hwdWidth sz) (bit sv) :=
  putsBits_putFieldsNZ (hwdWidth_mem sz) (hbit sv)

theorem putsBits_registerForm (h : Enabled c s) (m : DReg) :
    PutsBits (conditional c i s (complete (s.shiftFieldsBy sz f d n (amountReg (s.readWR m))))) s d (hwdWidth sz)
      (bit ((s.readWR m).toNat % 256)) := by
  rw [conditional_ok h.1 h.2, amountReg_eq]
  exact putsBits_shiftFieldsBy hbit _

theorem putsBits_controlForm (h : Enabled c s) (k : CgrIndex) :
    PutsBits (conditional c i s (complete (s.shiftFieldsBy sz f d n (amountCgr (s.readCgr k))))) s d (hwdWidth sz)
      (bit ((s.readCgr k).toNat % 256)) := by
  rw [conditional_ok h.1 h.2, amountCgr_eq]
  exact putsBits_shiftFieldsBy hbit _

theorem putsBits_immediateForm (ha : accessOk s = true) (imm : BitVec 5) :
    PutsBits (unconditional i s (complete (s.shiftFieldsBy sz f d n (amountImm imm)))) s d (hwdWidth sz)
      (bit (if imm = 0 then 32 else imm.toNat)) := by
  rw [unconditional_ok ha]
  exact putsBits_shiftFieldsBy hbit _

end

/-- What a result by bits shows: the flags are those of the register written, and wCSSF is left alone. -/
theorem PutsBits.flags_read {o : Result} {s : State} {d : DReg} {w : Nat} {bit : Nat → Nat → Bool}
    (h : PutsBits o s d w bit) :
    ∃ t, o = .next t ∧ t.cssf = s.cssf ∧ IsFlags w t.casf fun k => nzOf (field w k (t.readWR d)) := by
  obtain ⟨r, a, -, hflags, ho⟩ := h
  have hreg : (s.writeWR d r).readWR d = r := by rw [readWR_writeWR, if_pos rfl]
  rw [← hreg] at hflags
  exact ⟨_, ho, rfl, hflags⟩

end Sys2Proof.Machine
end

section
/-! Statements of spec/42_shift_rotate.md, settled from the lemmas above. -/

namespace Sys2Proof.Machine

/-- Settles O26: each form puts the bits of its field function at its own amount. -/
theorem logicalShifts : Obligations.LogicalShifts := by
  intro sz d n s src left right puts
  have hsll : ∀ sv k j, j < hwdWidth sz → bitAt (sllField (src k) sv) j = left sv k j :=
    fun sv k _ hj => bitAt_sllField (src k) sv hj
  have hsrl : ∀ sv k j, j < hwdWidth sz → bitAt (srlField (src k) sv) j = right sv k j :=
    fun sv k _ _ => bitAt_srlField (src k) sv
  refine ⟨fun c h => ⟨fun m => ?_, fun k => ?_⟩, fun ha imm => ?_⟩
  · exact ⟨putsBits_registerForm hsll h m, putsBits_registerForm hsrl h m⟩
  · exact ⟨putsBits_controlForm hsll h k, putsBits_controlForm hsrl h k⟩
  · exact ⟨putsBits_immediateForm hsll ha imm, putsBits_immediateForm hsrl ha imm⟩

/-- Settles O27, as O26. -/
theorem arithmeticShiftsAndRotates : Obligations.ArithmeticShiftsAndRotates := by
  intro sz d n s src right rotate puts
  have hsra : ∀ sv k j, j < hwdWidth sz → bitAt (sraField (src k) sv) j = right sv k j :=
    fun sv k _ hj => bitAt_sraField (src k) sv hj
  have hrot : ∀ sv k j, j < hwdWidth sz → bitAt (rotField (src k) sv) j = rotate sv k j :=
    fun sv k _ hj => bitAt_rotField (src k) sv hj
  refine ⟨fun c h => ⟨fun m => ?_, fun k => ?_⟩, fun ha imm => ?_⟩
  · exact ⟨putsBits_registerForm hsra h m, putsBits_registerForm hrot h m⟩
  · exact ⟨putsBits_controlForm hsra h k, putsBits_controlForm hrot h k⟩
  · exact ⟨putsBits_immediateForm hsra ha imm, putsBits_immediateForm hrot ha imm⟩

/-- Settles O28: the flags are part of the results of O26 and O27. -/
theorem shiftFlagRule : Obligations.ShiftFlagRule := by
  intro c sz d n m g imm s h
  obtain ⟨hlogical, hlogicalI⟩ := logicalShifts sz d n s
  obtain ⟨hlogicalR, hlogicalG⟩ := hlogical c h
  obtain ⟨harith, harithI⟩ := arithmeticShiftsAndRotates sz d n s
  obtain ⟨harithR, harithG⟩ := harith c h
  obtain ⟨hsll, hsrl⟩ := hlogicalR m
  obtain ⟨hsllG, hsrlG⟩ := hlogicalG g
  obtain ⟨hsllI, hsrlI⟩ := hlogicalI h.2 imm
  obtain ⟨hsra, hror⟩ := harithR m
  obtain ⟨hsraG, hrorG⟩ := harithG g
  obtain ⟨hsraI, hrorI⟩ := harithI h.2 imm
  simp only [List.forall_mem_cons]
  exact ⟨PutsBits.flags_read hsra, PutsBits.flags_read hsraG, PutsBits.flags_read hsraI, PutsBits.flags_read hsll,
    PutsBits.flags_read hsllG, PutsBits.flags_read hsllI, PutsBits.flags_read hsrl, PutsBits.flags_read hsrlG,
    PutsBits.flags_read hsrlI, PutsBits.flags_read hror, PutsBits.flags_read hrorG, PutsBits.flags_read hrorI,
    List.forall_mem_nil _⟩

end Sys2Proof.Machine
end

section
/-! SUPPORT. The exact values of the absolute values and differences, the masks and the sums of fields
(spec/43_arithmetic_compare.md R196, R198, R200, R217, R219, R223). -/

namespace Sys2Proof.Machine

/-! ### Absolute values and differences -/

/-- Only the full-scale negative value is clamped, to the greatest one (R196). -/
theorem absField_toInt {w : Nat} (hw : 0 < w) (x : BitVec w) :
    (absField x).toInt = min |x.toInt| (2 ^ (w - 1) - 1) := by
  have hhalf : (0 : Int) < 2 ^ (w - 1) := by positivity
  have hclamp : ((min x.toInt.natAbs (2 ^ (w - 1) - 1) : Nat) : Int) = min |x.toInt| (2 ^ (w - 1) - 1) := by
    rw [Nat.cast_min, Int.natCast_natAbs, Nat.cast_sub Nat.one_le_two_pow]
    norm_cast
  have hlo : -2 ^ (w - 1) ≤ min |x.toInt| (2 ^ (w - 1) - 1) :=
    le_min (by linarith [abs_nonneg x.toInt]) (by omega)
  rw [absField, ← BitVec.ofInt_natCast, hclamp]
  exact BitVec.toInt_ofInt_eq_self hw hlo ((min_le_right _ _).trans_lt (by omega))

theorem absDiff_eq {w : Nat} (x y : BitVec w) : absDiff x y = |(x.toNat : Int) - y.toNat| := Int.natCast_natAbs _

/-- A difference of unsigned fields fits in a field. -/
theorem ofInt_absDiff_toNat {w : Nat} (x y : BitVec w) :
    ((BitVec.ofInt w (absDiff x y)).toNat : Int) = |(x.toNat : Int) - y.toNat| := by
  have hx := x.isLt
  have hy := y.isLt
  have hfit : ((x.toNat : Int) - y.toNat).natAbs < 2 ^ w := by omega
  rw [← absDiff_eq, absDiff, BitVec.ofInt_natCast, BitVec.toNat_ofNat, Nat.mod_eq_of_lt hfit]

/-! ### Masks -/

theorem nzFlags_maskOf {w : Nat} (hw : 0 < w) (b : Bool) : nzFlags (maskOf w b) = nibbleOf b (!b) false false := by
  have hzero : BitVec.allOnes w ≠ 0#w := fun h => by simpa [BitVec.msb_allOnes hw] using congrArg BitVec.msb h
  cases b with
  | false => simp [nzFlags, maskOf]
  | true => simp [nzFlags, maskOf, BitVec.msb_allOnes hw, beq_false_of_ne hzero]

/-- A comparison of fields writes its masks with N and Z of each mask. -/
theorem putsFlagged_masks {c : Cond} {i : Instr} {s : State} (h : Enabled c s) (sz : Bhw) (d : DReg)
    {p q : Nat → Bool} (hp : ∀ k, p k = q k) :
    PutsFlagged (conditional c i s (complete (s.putFieldsNZ (bhwWidth sz) d fun k => maskOf (bhwWidth sz) (p k)))) s d
      (bhwWidth sz) (fun k => if q k then BitVec.allOnes (bhwWidth sz) else 0)
      (fun k => nibbleOf (q k) (!q k) false false) := by
  obtain rfl : p = q := funext hp
  exact putsFlagged_conditional (bhwWidth_pos sz) (bhwWidth_mem sz) h (fun _ _ => rfl)
    fun k _ => nzFlags_maskOf (bhwWidth_pos sz) (p k)

/-! ### Sums of fields -/

theorem sumOver_eq_sum (f : Nat → Int) (k : Nat) : sumOver f k = ∑ i ∈ Finset.range k, f i := by
  induction k with
  | zero => rfl
  | succ k ih => rw [sumOver, ih, Finset.sum_range_succ]

/-- The sum of the unsigned fields of a register fits in 64 bits (R200). -/
theorem ofInt_sumOver_field_toNat (sz : Bhw) (v : DWord) :
    (BitVec.ofInt 64 (sumOver (fun i => (field (bhwWidth sz) i v).toNat) (64 / bhwWidth sz))).toNat =
      ∑ i ∈ Finset.range (64 / bhwWidth sz), (field (bhwWidth sz) i v).toNat := by
  have hterm : ∀ i ∈ Finset.range (64 / bhwWidth sz), (field (bhwWidth sz) i v).toNat ≤ 2 ^ bhwWidth sz :=
    fun i _ => (field (bhwWidth sz) i v).isLt.le
  have hsum : ∑ i ∈ Finset.range (64 / bhwWidth sz), (field (bhwWidth sz) i v).toNat ≤
      64 / bhwWidth sz * 2 ^ bhwWidth sz := by
    simpa using Finset.sum_le_card_nsmul _ _ _ hterm
  have hfit : 64 / bhwWidth sz * 2 ^ bhwWidth sz < 2 ^ 64 := by cases sz <;> decide
  rw [sumOver_eq_sum, ← Nat.cast_sum, BitVec.ofInt_natCast, BitVec.toNat_ofNat, Nat.mod_eq_of_lt (hsum.trans_lt hfit)]

/-- The word that a sum of 32 bits is written as: the sum below, 0 above (R223). -/
theorem field_setWidth_word (v : Word) : field 32 1 (v.setWidth 64) = 0 ∧ field 32 0 (v.setWidth 64) = v := by
  constructor
  · refine BitVec.eq_of_getLsbD_eq fun j hj => ?_
    simp [field]
  · refine BitVec.eq_of_getLsbD_eq fun j hj => ?_
    simpa [field, hj] using fun _ => hj.trans (by decide)

section
variable {c : Cond} {s : State}

theorem puts_wacc (h : Enabled c s) (sz : Bhw) (d n : DReg) :
    ∃ r, r.toNat = ∑ i ∈ Finset.range (64 / bhwWidth sz), (field (bhwWidth sz) i (s.readWR n)).toNat ∧
      Puts (exec (.wacc c sz d n) s) s d r :=
  ⟨_, ofInt_sumOver_field_toNat sz _, puts_conditional h d _⟩

theorem puts_wsad (h : Enabled c s) (sz : Bh) (z : Bool) (d n m : DReg) :
    ∃ r, field 32 1 r = 0 ∧
      field 32 0 r = BitVec.ofInt 32 ((if z then 0 else ((field 32 0 (s.readWR d)).toNat : Int)) +
        ∑ i ∈ Finset.range (64 / bhWidth sz),
          |((field (bhWidth sz) i (s.readWR n)).toNat : Int) - (field (bhWidth sz) i (s.readWR m)).toNat|) ∧
      Puts (exec (.wsad c sz z d n m) s) s d r := by
  simp only [← absDiff_eq, ← sumOver_eq_sum]
  obtain ⟨hhigh, hlow⟩ := field_setWidth_word _
  exact ⟨_, hhigh, hlow, puts_conditional h d _⟩

end

end Sys2Proof.Machine
end

section
/-! SUPPORT. The rows of WMAX and WMIN and what their results show (spec/43_arithmetic_compare.md R220, R221). -/

namespace Sys2Proof

/-- The row of a CDP word of coprocessor 1 (R94) by the parts of Opcode1: bits 11:8 are 1. -/
theorem assemble_cdpFields_cp1 (cond : BitVec 4) (ww : BitVec 2) (a b : Bool) (n d : DReg) (op2 : BitVec 3)
    (m : BitVec 4) :
    assemble (cdpFields cond (op1Of ww (pair a b)) n d true op2 m) =
      cond ++ 14#4 ++ ww ++ BitVec.ofBool a ++ BitVec.ofBool b ++ dregBits n ++ dregBits d ++ 1#4 ++ op2 ++ 0#1 ++ m := by
  apply BitVec.eq_of_getLsbD_eq
  intro j hj
  simp only [assemble, cdpFields, op1Of, pair, BitVec.getLsbD_append, BitVec.getLsbD_ofBool]
  interval_cases j <;> simp

/-- `ww` = 11 is class P. -/
theorem decode_maxMin_noSize (c : Cond) (a b : Bool) (n d : DReg) (m : BitVec 4) :
    decode (assemble (cdpFields (condBits c) (op1Of 3 (pair a b)) n d true 3 m)) = .unpredictable (destsData d) := by
  rw [decode, fieldsOf_assemble]
  refine (decodeFields_maxMin ..).trans ?_
  simp [decodeMaxMin, bhwOf]

end Sys2Proof

namespace Sys2Proof.Machine

theorem valOf_eq_ite {w : Nat} (sg : Sign) (v : BitVec w) :
    valOf sg v = if sg = .s then v.toInt else (v.toNat : Int) := by
  cases sg <;> rfl

theorem signBit_eq_decide (sg : Sign) : signBit sg = decide (sg = .s) := by
  cases sg <;> rfl

section
variable {c : Cond} {s : State}

theorem putsFields_wmax (h : Enabled c s) (sg : Sign) (sz : Bhw) (d n m : DReg) :
    PutsFields (exec (.wmax c sg sz d n m) s) s d (bhwWidth sz) fun i =>
      if valOf sg (field (bhwWidth sz) i (s.readWR n)) > valOf sg (field (bhwWidth sz) i (s.readWR m))
      then field (bhwWidth sz) i (s.readWR n) else field (bhwWidth sz) i (s.readWR m) :=
  putsFields_conditional (bhwWidth_pos sz) h fun _ _ => rfl

theorem putsFields_wmin (h : Enabled c s) (sg : Sign) (sz : Bhw) (d n m : DReg) :
    PutsFields (exec (.wmin c sg sz d n m) s) s d (bhwWidth sz) fun i =>
      if valOf sg (field (bhwWidth sz) i (s.readWR n)) < valOf sg (field (bhwWidth sz) i (s.readWR m))
      then field (bhwWidth sz) i (s.readWR n) else field (bhwWidth sz) i (s.readWR m) :=
  putsFields_conditional (bhwWidth_pos sz) h fun _ _ => rfl

end

theorem PutsFields.puts {o : Result} {s : State} {d : DReg} {w : Nat} {f : Nat → BitVec w}
    (h : PutsFields o s d w f) : ∃ r, Puts o s d r :=
  h.imp fun _ => And.right

/-- What a result by fields shows: the fields of wRd, the other registers and the flags left alone. -/
theorem PutsFields.reads {o : Result} {s : State} {d : DReg} {w : Nat} {f : Nat → BitVec w}
    (h : PutsFields o s d w f) :
    ∃ t, o = .next t ∧ t.casf = s.casf ∧ t.cssf = s.cssf ∧ (∀ e, e ≠ d → t.readWR e = s.readWR e) ∧
      IsFields w (t.readWR d) f := by
  obtain ⟨r, hfields, ho⟩ := h
  have hother : ∀ e, e ≠ d → (s.writeWR d r).readWR e = s.readWR e := fun e he => by
    rw [readWR_writeWR, if_neg he.symm]
  have hreg : (s.writeWR d r).readWR d = r := by rw [readWR_writeWR, if_pos rfl]
  rw [← hreg] at hfields
  exact ⟨_, ho, rfl, rfl, hother, hfields⟩

end Sys2Proof.Machine
end

section
/-! SUPPORT. The fields of additions and subtractions: value, saturation, C and V in the exact terms of
spec/43_arithmetic_compare.md R203, R206, R209, R211, R213 and R215, and the results that they make. -/

namespace Sys2Proof.Machine

/-! ### Additions -/

section
variable {w : Nat} (x y : BitVec w) (cin : Nat)

theorem addCarry_eq : addCarry x y cin = decide (x.toNat + y.toNat + cin ≥ 2 ^ w) := by
  have hpos : 0 < 2 ^ w := by positivity
  exact decide_eq_decide.mpr (by omega)

/-- A sum of unsigned fields saturates when it carries. -/
theorem saturates_u_add : saturates .u w (x.toNat + y.toNat) = decide (x.toNat + y.toNat + 0 ≥ 2 ^ w) := by
  have hpow : ((2 ^ w : Nat) : Int) = 2 ^ w := by norm_cast
  rw [saturates, satMax, satMin, ← hpow, ← Bool.decide_or, decide_eq_decide]
  omega

theorem addLane_none :
    addLane none x y cin =
      { value := BitVec.ofNat w (x.toNat + y.toNat + cin), sat := false,
        carry := decide (x.toNat + y.toNat + cin ≥ 2 ^ w), ovf := overflows w (x.toInt + y.toInt + cin) } := by
  simp only [addLane, sumValue, sumSat, addCarry_eq, ← BitVec.ofInt_natCast, Nat.cast_add]

theorem addLane_us :
    addLane (some .u) x y 0 =
      { value := saturate .u w (x.toNat + y.toNat), sat := decide (x.toNat + y.toNat + 0 ≥ 2 ^ w),
        carry := decide (x.toNat + y.toNat + 0 ≥ 2 ^ w), ovf := overflows w (x.toInt + y.toInt + (0 : Nat)) } := by
  simp only [addLane, sumValue, sumSat, addCarry_eq, saturates_u_add, Nat.cast_zero, add_zero]

theorem addLane_ss :
    addLane (some .s) x y 0 =
      { value := saturate .s w (x.toInt + y.toInt), sat := overflows w (x.toInt + y.toInt + (0 : Nat)),
        carry := decide (x.toNat + y.toNat + 0 ≥ 2 ^ w), ovf := overflows w (x.toInt + y.toInt + (0 : Nat)) } := by
  simp only [addLane, sumValue, sumSat, overflows, addCarry_eq, Nat.cast_zero, add_zero]

end

/-! ### Subtractions -/

section
variable {w : Nat} (sc : SubCarry) (x y : BitVec w)

theorem subCarryOf_eq :
    subCarryOf sc x y = if sc = .borrow then decide (x.toNat < y.toNat) else decide (x.toNat ≥ y.toNat) := by
  cases sc <;> rfl

theorem ofInt_toNat_sub : BitVec.ofInt w ((x.toNat : Int) - y.toNat) = x - y := by
  apply BitVec.eq_of_toInt_eq
  rw [BitVec.toInt_ofInt, BitVec.toInt_sub, BitVec.toInt_eq_toNat_bmod, BitVec.toInt_eq_toNat_bmod, Int.bmod_sub_bmod,
    Int.sub_bmod_bmod]

/-- A difference of unsigned fields is at most the first of them, so only 0 can be passed. -/
theorem sub_toNat_le_satMax : ¬ (x.toNat : Int) - y.toNat > satMax .u w := by
  have hpow : ((2 ^ w : Nat) : Int) = 2 ^ w := by norm_cast
  have hx := x.isLt
  rw [satMax, ← hpow]
  omega

theorem saturates_u_sub : saturates .u w ((x.toNat : Int) - y.toNat) = decide (x.toNat < y.toNat) := by
  rw [saturates, decide_eq_false (sub_toNat_le_satMax x y), Bool.false_or, satMin, decide_eq_decide]
  omega

theorem saturate_u_sub :
    saturate .u w ((x.toNat : Int) - y.toNat) = if decide (x.toNat < y.toNat) then 0 else x - y := by
  have hborrow : (x.toNat : Int) - y.toNat < satMin .u w ↔ decide (x.toNat < y.toNat) = true := by
    rw [satMin, decide_eq_true_iff]
    omega
  rw [saturate, if_neg (sub_toNat_le_satMax x y), ofInt_toNat_sub]
  exact if_congr hborrow (BitVec.ofInt_natCast w 0) rfl

theorem subLane_none :
    subLane sc none x y =
      { value := x - y, sat := false, carry := subCarryOf sc x y, ovf := overflows w (x.toInt - y.toInt) } := by
  rw [subLane, sumValue, sumSat, ofInt_toNat_sub]

theorem subLane_us :
    subLane sc (some .u) x y =
      { value := if decide (x.toNat < y.toNat) then 0 else x - y, sat := decide (x.toNat < y.toNat),
        carry := subCarryOf sc x y, ovf := overflows w (x.toInt - y.toInt) } := by
  rw [subLane, sumValue, sumSat, saturate_u_sub, saturates_u_sub]

theorem subLane_ss :
    subLane sc (some .s) x y =
      { value := saturate .s w (x.toInt - y.toInt), sat := overflows w (x.toInt - y.toInt),
        carry := subCarryOf sc x y, ovf := overflows w (x.toInt - y.toInt) } := rfl

end

/-! ### Crossed sums and differences of half words -/

theorem overflows_half (k : Int) : overflows 16 k = (decide (k > 32767) || decide (k < -32768)) := rfl

/-- The exact crossed sum or difference of a half word (R209, R215). -/
def crossExact (sub : Bool) (a b : DWord) (i : Nat) : Int :=
  if sub then (field 16 i a).toInt - (field 16 (crossIndex i) b).toInt
  else (field 16 i a).toInt + (field 16 (crossIndex i) b).toInt

theorem crossLane_eq (sub : Bool) (a b : DWord) (i : Nat) :
    crossLane sub a b i =
      { value := saturate .s 16 (crossExact sub a b i), sat := overflows 16 (crossExact sub a b i),
        carry := if sub then subCarryOf Config.subCarry (field 16 i a) (field 16 (crossIndex i) b)
          else decide ((field 16 i a).toNat + (field 16 (crossIndex i) b).toNat ≥ 65536),
        ovf := overflows 16 (crossExact sub a b i) } := by
  cases sub with
  | true => exact subLane_ss ..
  | false =>
    refine (addLane_ss ..).trans ?_
    simp only [Nat.cast_zero, add_zero]
    rfl

/-! ### The results -/

section
variable {c : Cond} {i : Instr} {s : State} {w : Nat} {lane : Nat → LaneSum w} {value : Nat → BitVec w}
  {sat carry ovf carryKept ovfKept : Nat → Bool}

theorem putsFlagged_sums (hw : w = 8 ∨ w = 16 ∨ w = 32 ∨ w = 64) (h : Enabled c s) (d : DReg)
    (hlane : ∀ k, lane k = { value := value k, sat := false, carry := carry k, ovf := ovf k }) :
    PutsFlagged (conditional c i s (complete (s.putSums w d lane))) s d w value
      (fun k => nibbleOf (value k).msb (decide (value k = 0)) (carry k) (ovf k)) := by
  obtain rfl := funext hlane
  refine putsFlagged_conditional (by omega) hw h (fun _ _ => rfl) fun k _ => ?_
  rw [sumFlags, Bool.not_false, Bool.and_true, Bool.and_true]
  rfl

/-- Where a field saturates C and V are cleared (R203, R211); a caller says what is left of them in its own terms. -/
theorem putsSaturated_sums (hw : w = 8 ∨ w = 16 ∨ w = 32 ∨ w = 64) (h : Enabled c s) (d : DReg)
    (hlane : ∀ k, lane k = { value := value k, sat := sat k, carry := carry k, ovf := ovf k })
    (hcarry : ∀ k, (carry k && !sat k) = carryKept k) (hovf : ∀ k, (ovf k && !sat k) = ovfKept k) :
    PutsSaturated (conditional c i s (complete (s.putSatSums w d lane))) s d w value
      (fun k => nibbleOf (value k).msb (decide (value k = 0)) (carryKept k) (ovfKept k)) sat := by
  obtain rfl := funext hlane
  refine putsSaturated_conditional (by omega) hw h (fun _ _ => rfl) (fun k _ => ?_) fun _ _ => rfl
  rw [← hcarry, ← hovf]
  rfl

end

section
variable {c : Cond} {s : State} {sz : Bhw} {k : AddKind}

/-- Every form of WADD but the byte form with C adds fields. -/
theorem exec_wadd_fields (hk : ¬ (sz = .b ∧ k = .c)) (d n m : DReg) :
    exec (.wadd c sz k d n m) s =
      conditional c (.wadd c sz k d n m) s (complete (s.addFields (bhwWidth sz) k d n m)) := by
  refine Eq.trans (b := execWadd c sz k d n m s) rfl ?_
  rw [execWadd, if_neg hk]

/-- The byte form with C completes with free destinations (notes/assumptions/36.md). -/
theorem exec_wadd_byteCarry (h : Enabled c s) (d n m : DReg) :
    exec (.wadd c .b .c d n m) s = .next (s.drawDests (destsFlags d)).advance :=
  conditional_ok h.1 h.2

end

end Sys2Proof.Machine
end

section
/-! Statements of spec/43_arithmetic_compare.md, settled from the lemmas above. -/

namespace Sys2Proof.Machine

/-- Settles O29: the fields put have the exact values of the rules. -/
theorem absoluteValues : Obligations.AbsoluteValues := by
  intro c sz d n m s h
  exact ⟨⟨_, fun i _ => absField_toInt (bhwWidth_pos sz) _, putsFlagged_conditional_z (bhwWidth_mem sz) h _⟩,
    _, fun i _ => ofInt_absDiff_toNat _ _, putsFlagged_conditional_z (bhwWidth_mem sz) h _⟩

/-- Settles O30: the kinds differ in the field that they saturate, and a field that saturates clears the flag that tells
of it. -/
theorem additions : Obligations.Additions := by
  intro c sz d n m s h w x y carry ovf plain flags cin
  have hw := bhwWidth_mem sz
  refine ⟨?_, fun hbyte => ?_, ?_, ?_, _, _, _, _, _, exec_wadd_byteCarry h d n m⟩
  · rw [exec_wadd_fields (by simp)]
    exact putsFlagged_sums hw h d fun _ => addLane_none ..
  · rw [exec_wadd_fields (by simp [hbyte])]
    exact putsFlagged_sums hw h d fun _ => addLane_none ..
  · rw [exec_wadd_fields (by simp)]
    exact putsSaturated_sums hw h d (fun _ => addLane_us ..) (fun _ => Bool.and_not_self _) fun _ => Bool.and_comm ..
  · rw [exec_wadd_fields (by simp)]
    exact putsSaturated_sums hw h d (fun _ => addLane_ss ..) (fun _ => rfl) fun _ => Bool.and_not_self _

/-- Settles O31: unsigned saturation is the borrow, signed saturation is the overflow. -/
theorem subtractions : Obligations.Subtractions := by
  intro c sz d n m s h w x y borrow carry ovf
  have hw := bhwWidth_mem sz
  have hcarry (k : Nat) : subCarryOf Config.subCarry (x k) (y k) = carry k := by
    rw [subCarryOf_eq]
    simp only [carry, borrow, ← decide_not, not_lt, ge_iff_le]
  have hovf : ∀ k, overflows w ((x k).toInt - (y k).toInt) = ovf k := fun _ => rfl
  refine ⟨?_, ?_, ?_⟩
  · exact putsFlagged_sums hw h d fun k => (subLane_none ..).trans (by rw [hcarry, hovf])
  · exact putsSaturated_sums hw h d (fun k => (subLane_us ..).trans (by rw [hcarry, hovf])) (fun _ => rfl)
      fun _ => rfl
  · exact putsSaturated_sums hw h d (fun k => (subLane_ss ..).trans (by rw [hcarry, hovf])) (fun _ => rfl)
      fun _ => Bool.and_not_self _

/-- Settles O32: the two forms differ in which half words, odd or even, subtract. -/
theorem complexSums : Obligations.ComplexSums := by
  intro c d n m s h a b exactSum carry sat flags
  have hlane (sub : Bool) (k : Nat) : crossLane sub (s.readWR n) (s.readWR m) k =
      { value := saturate .s 16 (exactSum sub k), sat := sat sub k, carry := carry sub k, ovf := sat sub k } := by
    rw [crossLane_eq, overflows_half, subCarryOf_eq]
    rfl
  exact ⟨putsSaturated_sums (.inr (.inl rfl)) h d (fun k => hlane _ k) (fun _ => rfl) fun _ => Bool.and_not_self _,
    putsSaturated_sums (.inr (.inl rfl)) h d (fun k => hlane _ k) (fun _ => rfl) fun _ => Bool.and_not_self _⟩

/-- Settles O33: the two forms of WCMPGT read the fields as unsigned or signed integers. -/
theorem compares : Obligations.Compares := by
  intro c sz d n m s h x y puts
  exact ⟨putsFlagged_masks h sz d fun _ => rfl, putsFlagged_masks h sz d fun k => by simp [valOf, x, y],
    putsFlagged_masks h sz d fun _ => rfl⟩

/-- Settles O34: both rows are CDP words of coprocessor 1, and the registers and flags are read off what is put. -/
theorem maxMinRules : Obligations.MaxMinRules := by
  intro c sg sz d n m s row val x y
  have hrow (ww : BitVec 2) (k : Bool) :
      row ww (BitVec.ofBool k) =
        assemble (cdpFields (condBits c) (op1Of ww (pair (signBit sg) k)) n d true 3 (dregBits m)) := by
    rw [assemble_cdpFields_cp1, signBit_eq_decide]
    rfl
  have hval (v : BitVec (bhwWidth sz)) : val v = valOf sg v := (valOf_eq_ite sg v).symm
  refine ⟨(hrow _ false).symm, (hrow _ true).symm, ⟨destsData d, ?_⟩, ⟨destsData d, ?_⟩, fun h => ?_⟩
  · exact (congrArg decode (hrow 3 false)).trans (decode_maxMin_noSize ..)
  · exact (congrArg decode (hrow 3 true)).trans (decode_maxMin_noSize ..)
  · simp only [hval]
    exact ⟨(putsFields_wmax h sg sz d n m).reads, (putsFields_wmin h sg sz d n m).reads⟩

/-- Settles O35: the sums of WACC and WSAD written out field by field. -/
theorem fieldSums : Obligations.FieldSums := by
  intro c d n m s h u diff low
  refine ⟨?_, ?_, ?_, fun z => ⟨?_, ?_⟩, fun sg sz => ⟨?_, ?_⟩⟩
  · simpa [bhwWidth, Finset.sum_range_succ] using puts_wacc h .b d n
  · simpa [bhwWidth, Finset.sum_range_succ] using puts_wacc h .h d n
  · simpa [bhwWidth, Finset.sum_range_succ] using puts_wacc h .w d n
  · simpa [bhWidth, Finset.sum_range_succ] using puts_wsad h .b z d n m
  · simpa [bhWidth, Finset.sum_range_succ] using puts_wsad h .h z d n m
  · exact (putsFields_wmax h sg sz d n m).puts
  · exact (putsFields_wmin h sg sz d n m).puts

end Sys2Proof.Machine
end

section
/-! SUPPORT. The products, accumulations and fractional fields of the multiplies in the exact terms of
spec/44_multiply.md R225 to R246. -/

namespace Sys2Proof.Machine

theorem halfIndex_eq_ite (x : Half) (j : Nat) : halfIndex x j = if x = .t then 2 * j + 1 else 2 * j := by
  cases x <;> rfl

/-! ### Sums and products modulo 2^w -/

/-- Both readings of a field stand for the field modulo 2^w (spec/00_scope.md R12). -/
theorem ofInt_valOf {w : Nat} (sg : Sign) (v : BitVec w) : BitVec.ofInt w (valOf sg v) = v := by
  cases sg with
  | u => exact (BitVec.ofInt_natCast w v.toNat).trans ((BitVec.ofNat_toNat w v).trans (BitVec.setWidth_eq v))
  | s => exact BitVec.ofInt_toInt

/-- The low half of a product does not depend on the sign (R237, R239). -/
theorem ofInt_valOf_mul {w : Nat} (sg : Sign) (x y : BitVec w) :
    BitVec.ofInt w (valOf sg x * valOf sg y) = x * y := by
  rw [BitVec.ofInt_mul, ofInt_valOf, ofInt_valOf]

theorem ofInt_toNat_add_int {w : Nat} (v : BitVec w) (p : Int) :
    BitVec.ofInt w (v.toNat + p) = v + BitVec.ofInt w p := by
  rw [BitVec.ofInt_add]
  exact congrArg (· + BitVec.ofInt w p) (ofInt_valOf .u v)

theorem ofInt_toNat_sub_int {w : Nat} (v : BitVec w) (p : Int) :
    BitVec.ofInt w (v.toNat - p) = v - BitVec.ofInt w p := by
  rw [Int.sub_eq_add_neg, ofInt_toNat_add_int, BitVec.ofInt_neg, BitVec.sub_eq_add_neg]

/-- What holds of both words holds of every word of a register. -/
theorem forall_words {P : Nat → Prop} (hlow : P 0) (hhigh : P 1) : ∀ j, j < 64 / 32 → P j
  | 0, _ => hlow
  | 1, _ => hhigh

/-! ### Fractional fields -/

section
variable {w : Nat} (a b : BitVec w)

theorem bothMinusOne_eq : bothMinusOne a b = decide (a = BitVec.intMin w ∧ b = BitVec.intMin w) :=
  (Bool.decide_and _ _).symm

theorem fractionalField_eq (half : Int) :
    fractionalField half a b =
      if a = BitVec.intMin w ∧ b = BitVec.intMin w then BitVec.intMax w
      else BitVec.ofInt w ((a.toInt * b.toInt + half) / 2 ^ (w - 1)) := by
  simp only [fractionalField, bothMinusOne_eq, decide_eq_true_eq, floorShift]

end

/-! ### The results -/

/-- A saturation bit that is set makes the byte of them nonzero. -/
theorem IsSat.ne_zero {w : Nat} {b : BitVec 8} {sat : Nat → Bool} (h : IsSat w b sat)
    (hs : ∃ i, i < 64 / w ∧ sat i = true) : b ≠ 0 := by
  obtain ⟨hbits, -⟩ := h
  obtain ⟨i, hi, hsat⟩ := hs
  rintro rfl
  have hbit := (hbits i hi).trans hsat
  simp [bitAt] at hbit

/-- Beside wCSSF an `OrCSSF` touches wCon.CUP, by R33, and the model's counter of free values. -/
theorem orCssfOnly_eq (s : State) (b : BitVec 8) :
    ∃ u n, (s.cup = true → u = true) ∧ (b ≠ 0 → u = true) ∧
      s.orCssfOnly b = { s with cssf := s.cssf ||| b, cup := u, draws := n } := by
  refine ⟨(s.orCssfOnly b).cup, (s.orCssfOnly b).draws, orCssfOnly_cup_of_cup, orCssfOnly_cup_of_ne, ?_⟩
  unfold State.orCssfOnly
  split
  · next hb => simp [hb]
  · rfl

section
variable {c : Cond} {s : State}

/-- An enabled form with saturation bits and no flag in wCASF. -/
theorem putsSatOnly_conditional {i : Instr} {d : DReg} {w : Nat} (hw : w = 8 ∨ w = 16 ∨ w = 32 ∨ w = 64)
    {f g : Nat → BitVec w} {x y : Nat → Bool} (h : Enabled c s) (hf : ∀ k, f k = g k) (hx : ∀ k, x k = y k) :
    PutsSatOnly (conditional c i s (complete ((s.putFields w d f).orCssfOnly (cssfOf w x)))) s d w g y := by
  obtain rfl := funext hf
  obtain rfl := funext hx
  have hsat : IsSat w (cssfOf w x) x := isSat_cssfOf hw fun _ _ => rfl
  obtain ⟨u, n, hkept, hset, hwrite⟩ := orCssfOnly_eq (s.putFields w d f) (cssfOf w x)
  refine ⟨fromFields w f, cssfOf w x, u, n, isFields_fromFields (by omega) fun _ _ => rfl, hsat, hkept,
    fun hs => hset (hsat.ne_zero hs), (conditional_complete h).trans ?_⟩
  rw [hwrite]
  rfl

theorem puts_wmac (h : Enabled c s) (sg : Sign) (z : Bool) (d n m : DReg) :
    Puts (exec (.wmac c sg z d n m) s) s d (BitVec.ofInt 64 ((if z then 0 else ((s.readWR d).toNat : Int)) +
      ∑ i ∈ Finset.range 4, halfProduct sg (s.readWR n) (s.readWR m) i i)) := by
  rw [← sumOver_eq_sum]
  exact puts_conditional h d _

theorem putsFields_wmadd (h : Enabled c s) (sg : Sign) (k : MaddKind) (d n m : DReg) {g : Nat → Int}
    (hlow : maddWord sg k (s.readWR n) (s.readWR m) 0 = g 0)
    (hhigh : maddWord sg k (s.readWR n) (s.readWR m) 1 = g 1) :
    PutsFields (exec (.wmadd c sg k d n m) s) s d 32 fun j => BitVec.ofInt 32 (g j) :=
  putsFields_conditional (by decide) h
    (forall_words (congrArg (BitVec.ofInt 32) hlow) (congrArg (BitVec.ofInt 32) hhigh))

/-- A form that accumulates modulo 2^64 (R235, R236). -/
theorem puts_accumulate64 {i : Instr} (h : Enabled c s) (neg : Bool) (d : DReg) (p : Int) :
    Puts (conditional c i s (complete (s.accumulate64 neg d p))) s d
      (if neg then s.readWR d - BitVec.ofInt 64 p else s.readWR d + BitVec.ofInt 64 p) := by
  rw [← ofInt_toNat_add_int, ← ofInt_toNat_sub_int, ← apply_ite (BitVec.ofInt 64)]
  exact puts_conditional h d _

theorem puts_wmiaxy (h : Enabled c s) (neg : Bool) (x y : Half) (d n m : DReg) :
    let p := fun j => halfProduct .s (s.readWR n) (s.readWR m) (halfIndex x j) (halfIndex y j)
    Puts (exec (.wmiaxy c neg x y d n m) s) s d
      (if neg then s.readWR d - BitVec.ofInt 64 (p 1) - BitVec.ofInt 64 (p 0)
        else s.readWR d + BitVec.ofInt 64 (p 1) + BitVec.ofInt 64 (p 0)) := by
  intro p
  rw [sub_sub, add_assoc, ← BitVec.ofInt_add]
  exact puts_accumulate64 h neg d _

theorem puts_wmiawxy (h : Enabled c s) (neg : Bool) (x y : Half) (d n m : DReg) :
    let p := wordProduct .s (s.readWR n) (s.readWR m) (halfIndex x 0) (halfIndex y 0)
    Puts (exec (.wmiawxy c neg x y d n m) s) s d
      (if neg then s.readWR d - BitVec.ofInt 64 p else s.readWR d + BitVec.ofInt 64 p) :=
  puts_accumulate64 h neg d _

theorem putsFields_wmul (h : Enabled c s) (k : MulKind) (d n m : DReg) {g : Nat → BitVec 16}
    (hg : ∀ i, mulField k (s.readWR n) (s.readWR m) i = g i) :
    PutsFields (exec (.wmul c k d n m) s) s d 16 g :=
  putsFields_conditional (by decide) h fun i _ => hg i

theorem putsFields_wmulw (h : Enabled c s) (k : MulwKind) (d n m : DReg) {g : Nat → BitVec 32}
    (hg : ∀ j, mulwField k (s.readWR n) (s.readWR m) j = g j) :
    PutsFields (exec (.wmulw c k d n m) s) s d 32 g :=
  putsFields_conditional (by decide) h fun j _ => hg j

end

end Sys2Proof.Machine
end

section
/-! Statements of spec/44_multiply.md, settled from the lemmas above. -/

namespace Sys2Proof.Machine

/-- Settles O36: the sum of WMAC written out, and the two words of WMADD one by one. -/
theorem halfWordMultiplyAdd : Obligations.HalfWordMultiplyAdd := by
  intro c sg d n m s h p
  refine ⟨fun z => ?_, ?_, ?_, ?_⟩
  · simpa only [p, halfProduct, Finset.sum_range_succ, Finset.sum_range_zero, zero_add] using puts_wmac h sg z d n m
  · exact putsFields_wmadd h sg .plain d n m rfl rfl
  · exact putsFields_wmadd h sg .x d n m rfl (Int.add_comm ..)
  · exact putsFields_wmadd h sg .n d n m rfl rfl

/-- Settles O37: the selected fields are those at the indices of the halves. -/
theorem selectedMultiplyAccumulate : Obligations.SelectedMultiplyAccumulate := by
  intro c x y d n m s h sel a b p1 p2 pw
  have hsel (x : Half) (j : Nat) : sel x (2 * j + 1) (2 * j) = halfIndex x j := (halfIndex_eq_ite x j).symm
  have hp1 : p1 = halfProduct .s (s.readWR n) (s.readWR m) (halfIndex x 1) (halfIndex y 1) := by
    rw [← hsel, ← hsel]; rfl
  have hp2 : p2 = halfProduct .s (s.readWR n) (s.readWR m) (halfIndex x 0) (halfIndex y 0) := by
    rw [← hsel, ← hsel]; rfl
  have hpw : pw = wordProduct .s (s.readWR n) (s.readWR m) (halfIndex x 0) (halfIndex y 0) := by
    rw [← hsel, ← hsel]; rfl
  rw [hp1, hp2, hpw]
  exact ⟨puts_wmiaxy h false x y d n m, puts_wmiaxy h true x y d n m, puts_wmiawxy h false x y d n m,
    puts_wmiawxy h true x y d n m⟩

/-- Settles O38: the low halves do not depend on the sign, and the high halves are quotients by 2^16 and 2^32. -/
theorem products : Obligations.Products := by
  intro c d n m s h up sp
  exact ⟨putsFields_wmul h .ul d n m fun _ => ofInt_valOf_mul ..,
    putsFields_wmul h .sl d n m fun _ => ofInt_valOf_mul ..,
    putsFields_wmul h .um d n m fun _ => rfl, putsFields_wmul h .sm d n m fun _ => rfl,
    putsFields_wmul h .umr d n m fun _ => rfl, putsFields_wmul h .smr d n m fun _ => rfl,
    putsFields_wmulw h .l d n m fun _ => ofInt_valOf_mul ..,
    putsFields_wmulw h .um d n m fun _ => rfl, putsFields_wmulw h .sm d n m fun _ => rfl,
    putsFields_wmulw h .umr d n m fun _ => rfl, putsFields_wmulw h .smr d n m fun _ => rfl⟩

/-- Settles O39: -1 is the least value of a field and the greatest stands for +1; WQMIAxy saturates its final sum. -/
theorem fractionalMultiplies : Obligations.FractionalMultiplies := by
  intro c x y r d n m s h op tmp acc a b
  have hacc (neg : Bool) (j : Nat) :
      fractionalSum neg x y (s.readWR d) (s.readWR n) (s.readWR m) j = acc neg j := by
    rw [fractionalSum, halfIndex_eq_ite, halfIndex_eq_ite]
    rfl
  refine ⟨fun neg => ?_, ?_, ?_⟩
  · exact putsSatOnly_conditional (.inr (.inr (.inl rfl))) h (fun j => congrArg (saturate .s 32) (hacc neg j))
      fun j => congrArg (saturates .s 32) (hacc neg j)
  · exact putsSatOnly_conditional (.inr (.inl rfl)) h (fun _ => fractionalField_eq ..) fun _ => bothMinusOne_eq ..
  · exact putsSatOnly_conditional (.inr (.inr (.inl rfl))) h (fun _ => fractionalField_eq ..)
      fun _ => bothMinusOne_eq ..

end Sys2Proof.Machine
end

section
/-! SUPPORT. Results put with N and Z of each field, the bytes of a merge, the half word that a pair of bits selects and
the two halves that the unpacks read (spec/45_pack_unpack_shuffle.md R250 to R264). -/

namespace Sys2Proof.Machine

/-! ### Widths of the result fields -/

theorem hwdWidth_half_mem (sz : Hwd) :
    hwdWidth sz / 2 = 8 ∨ hwdWidth sz / 2 = 16 ∨ hwdWidth sz / 2 = 32 ∨ hwdWidth sz / 2 = 64 := by
  cases sz <;> simp [hwdWidth]

theorem bhwWidth_double_mem (sz : Bhw) :
    2 * bhwWidth sz = 8 ∨ 2 * bhwWidth sz = 16 ∨ 2 * bhwWidth sz = 32 ∨ 2 * bhwWidth sz = 64 := by
  cases sz <;> simp [bhwWidth]

/-- A register holds twice the fields of its half. -/
theorem fields_eq_two_halves (sz : Bhw) : 64 / bhwWidth sz = 2 * (32 / bhwWidth sz) := by
  cases sz <;> rfl

/-! ### The bytes of a merge -/

/-- What is kept of wRn ends where wRm, moved up, begins. -/
theorem getLsbD_mergeBytes (n m : DWord) (k : Nat) {j : Nat} (hj : j < 64) :
    (mergeBytes n m k).getLsbD j =
      if j < 64 - 8 * k then n.getLsbD j else m.getLsbD (j - (64 - 8 * k)) := by
  rw [mergeBytes, BitVec.getLsbD_or, BitVec.getLsbD_ofNat, BitVec.getLsbD_ofNat, Nat.testBit_mul_two_pow,
    Nat.testBit_mod_two_pow, BitVec.testBit_toNat, BitVec.testBit_toNat]
  by_cases hlow : j < 64 - 8 * k
  · simp [hj, hlow, Nat.not_le.mpr hlow]
  · simp [hj, hlow, Nat.not_lt.mp hlow]

theorem isFields_mergeBytes (n m : DWord) (k : Nat) :
    IsFields 8 (mergeBytes n m k) fun i => if i < 8 - k then field 8 i n else field 8 (i - (8 - k)) m := by
  intro i hi
  refine BitVec.eq_of_getLsbD_eq fun j hj => ?_
  simp only [field, BitVec.getLsbD_extractLsb', getLsbD_mergeBytes n m k (show 8 * i + j < 64 by omega)]
  by_cases hlow : i < 8 - k
  · have hbit : 8 * i + j < 64 - 8 * k := by omega
    simp [hlow, hbit]
  · have hbit : ¬ 8 * i + j < 64 - 8 * k := by omega
    have hmove : 8 * i + j - (64 - 8 * k) = 8 * (i - (8 - k)) + j := by omega
    simp [hlow, hbit, hmove]

/-! ### The pair of bits that selects a half word -/

theorem bitsAt_pair_toNat {l : Nat} (v : BitVec l) (i : Nat) : (bitsAt v (2 * i) 2).toNat = v.toNat / 4 ^ i % 4 := by
  rw [bitsAt, BitVec.extractLsb'_toNat, Nat.shiftRight_eq_div_pow, pow_mul]
  rfl

/-! ### The two halves -/

/-- The first field of the half that an unpack reads (R257). -/
def halfBase (high : Bool) (w : Nat) : Nat := if high then 32 / w else 0

theorem halfBase_add (high : Bool) (w j : Nat) : halfBase high w + j = if high then 32 / w + j else j := by
  cases high with
  | true => rfl
  | false => exact Nat.zero_add j

/-- Field `k` of the interleaving of `n` and `m` from field `base` on (R260, R264). -/
def interleaved (w base : Nat) (n m : DWord) (k : Nat) : BitVec w :=
  if k % 2 = 0 then field w (base + k / 2) n else field w (base + k / 2) m

section
variable (w base : Nat) (n m : DWord) (j : Nat)

theorem interleaved_even : interleaved w base n m (2 * j) = field w (base + j) n := by
  rw [interleaved, if_pos (by omega), show 2 * j / 2 = j by omega]

theorem interleaved_odd : interleaved w base n m (2 * j + 1) = field w (base + j) m := by
  rw [interleaved, if_neg (by omega), show (2 * j + 1) / 2 = j by omega]

end

/-! ### The results -/

/-- Flags known by the fields that were put are those of the register written. -/
theorem PutsFlagged.nz_of_register {o : Result} {s : State} {d : DReg} {w : Nat} {f : Nat → BitVec w}
    (h : PutsFlagged o s d w f fun k => nzOf (f k)) :
    ∃ r a, IsFields w r f ∧ IsFlags w a (fun k => nzOf (field w k r)) ∧ PutsFlags o s d r a := by
  obtain ⟨r, a, hfields, ⟨hflags, hrest⟩, ho⟩ := h
  have hnz : ∀ k, k < 64 / w → field 4 (w / 8 * (k + 1) - 1) a = nzOf (field w k r) := fun k hk => by
    rw [hflags k hk, hfields k hk]
  exact ⟨r, a, hfields, ⟨hnz, hrest⟩, ho⟩

section
variable {c : Cond} {s : State}

/-- An enabled form with N and Z of each field in wCASF (spec/10_state.md R26). -/
theorem putsFlagged_conditional_nz {i : Instr} {d : DReg} {w : Nat} (hw : w = 8 ∨ w = 16 ∨ w = 32 ∨ w = 64)
    (h : Enabled c s) {f g : Nat → BitVec w} (hf : ∀ k, f k = g k) :
    PutsFlagged (conditional c i s (complete (s.putFieldsNZ w d f))) s d w g (fun k => nzOf (g k)) := by
  obtain rfl := funext hf
  exact putsFlagged_conditional (by omega) hw h (fun _ _ => rfl) fun k _ => nzFlags_eq (f k)

theorem putsSaturated_wpack (h : Enabled c s) (sz : Hwd) (k : PackKind) (d n m : DReg) :
    let value := fun j => saturate (packSign k) (hwdWidth sz / 2)
      (packSource (hwdWidth sz) (s.readWR n) (s.readWR m) j)
    PutsSaturated (exec (.wpack c sz k d n m) s) s d (hwdWidth sz / 2) value (fun j => nzOf (value j))
      (fun j => saturates (packSign k) (hwdWidth sz / 2)
        (packSource (hwdWidth sz) (s.readWR n) (s.readWR m) j)) :=
  have hw := hwdWidth_half_mem sz
  putsSaturated_conditional (by omega) hw h (fun _ _ => rfl) (fun _ _ => nzFlags_eq _) fun _ _ => rfl

/-- WUNPCKEH and WUNPCKEL differ in their half alone. -/
theorem exec_unpackExtend (high : Bool) (sg : Sign) (sz : Bhw) (d n : DReg) :
    let i := if high then Instr.wunpckeh c sg sz d n else .wunpckel c sg sz d n
    exec i s = conditional c i s (complete (s.unpackExtend sg (bhwWidth sz) (halfBase high (bhwWidth sz)) d n)) := by
  cases high <;> rfl

/-- WUNPCKIH and WUNPCKIL differ in their half alone. -/
theorem exec_unpackInterleave (high : Bool) (sz : Bhw) (d n m : DReg) :
    let i := if high then Instr.wunpckih c sz d n m else .wunpckil c sz d n m
    exec i s = conditional c i s
      (complete (s.unpackInterleave (bhwWidth sz) (halfBase high (bhwWidth sz)) d n m)) := by
  cases high <;> rfl

theorem putsFlagged_unpackExtend {i : Instr} (h : Enabled c s) (sg : Sign) (sz : Bhw) (base : Nat) (d n : DReg) :
    let value := fun j => extendTo (2 * bhwWidth sz) sg (field (bhwWidth sz) (base + j) (s.readWR n))
    PutsFlagged (conditional c i s (complete (s.unpackExtend sg (bhwWidth sz) base d n))) s d (2 * bhwWidth sz) value
      (fun j => nzOf (value j)) :=
  putsFlagged_conditional_nz (bhwWidth_double_mem sz) h fun _ => rfl

theorem putsFlagged_unpackInterleave {i : Instr} (h : Enabled c s) (sz : Bhw) (base : Nat) (d n m : DReg) :
    let value := interleaved (bhwWidth sz) base (s.readWR n) (s.readWR m)
    PutsFlagged (conditional c i s (complete (s.unpackInterleave (bhwWidth sz) base d n m))) s d (bhwWidth sz) value
      (fun k => nzOf (value k)) :=
  putsFlagged_conditional_nz (bhwWidth_mem sz) h fun _ => rfl

end

end Sys2Proof.Machine
end

section
/-! Statements of spec/45_pack_unpack_shuffle.md, settled from the lemmas above. -/

namespace Sys2Proof.Machine

/-- Settles O40: the two kinds differ in the limits of their saturation. -/
theorem packs : Obligations.Packs := by
  intro c sz d n m s h w src
  exact ⟨putsSaturated_wpack h sz .us d n m, putsSaturated_wpack h sz .ss d n m⟩

/-- Settles O41: WMERGE by its bytes, WSHUFH by the pairs of bits of its immediate. -/
theorem mergeAndShuffle : Obligations.MergeAndShuffle := by
  intro c d n m s h
  constructor
  · intro imm
    exact ⟨_, isFields_mergeBytes _ _ imm.toNat, puts_conditional h d _⟩
  · intro imm f
    exact putsFlagged_conditional_nz (.inr (.inl rfl)) h fun i => by rw [bitsAt_pair_toNat]

/-- Settles O42: an extension to twice the width keeps the value read, unsigned or signed. -/
theorem unpackExtends : Obligations.UnpackExtends := by
  intro c sz d n s h w high src i
  have hle : w ≤ 2 * w := by omega
  have hsrc (j : Nat) : field w (halfBase high w + j) (s.readWR n) = src j := by rw [halfBase_add]
  have hputs (sg : Sign) : PutsFlagged (exec (i sg) s) s d (2 * w) (fun j => extendTo (2 * w) sg (src j))
      (fun j => nzOf (extendTo (2 * w) sg (src j))) := by
    simp only [← hsrc]
    rw [exec_unpackExtend]
    exact putsFlagged_unpackExtend h sg sz _ d n
  exact ⟨⟨_, fun j _ => extendTo_u_toNat hle (src j), hputs .u⟩,
    ⟨_, fun j _ => extendTo_s_toInt hle (src j), hputs .s⟩⟩

/-- Settles O43: wRn goes to the even fields and wRm to the odd ones, from the first field of the half on. -/
theorem unpackInterleaves : Obligations.UnpackInterleaves := by
  intro c sz d n m s h w high i base
  rw [exec_unpackInterleave]
  obtain ⟨r, a, hfields, hflags, ho⟩ := (putsFlagged_unpackInterleave h sz base d n m).nz_of_register
  have hpair : 64 / bhwWidth sz = 2 * (32 / w) := fields_eq_two_halves sz
  refine ⟨r, a, fun j hj => ⟨?_, ?_⟩, hflags, ho⟩
  · rw [hfields (2 * j) (by omega), interleaved_even]
  · rw [hfields (2 * j + 1) (by omega), interleaved_odd]

end Sys2Proof.Machine
end

section
/-! SUPPORT. The offsets and addressing modes by their cases, and what a load or store that is aligned and not refused
answers, the whole next state (spec/46_load_store.md R272 to R280). -/

namespace Sys2Proof.Machine

/-! ### Offsets and addressing modes (R272) -/

theorem offsetImm_unscaled_toNat (off : BitVec 8) : (offsetImm false off).toNat = off.toNat :=
  show (off.setWidth 32).toNat = off.toNat from BitVec.toNat_setWidth_of_le (by decide)

/-- An offset of 8 bits times 4 fits in the word, so the scaling loses nothing. -/
theorem offsetImm_scaled_toNat (off : BitVec 8) : (offsetImm true off).toNat = 4 * off.toNat := by
  have hoff : (off.setWidth 32).toNat = off.toNat := offsetImm_unscaled_toNat off
  have hlt : off.toNat < 256 := off.isLt
  show (off.setWidth 32 <<< 2).toNat = 4 * off.toNat
  rw [BitVec.toNat_shiftLeft, hoff, Nat.shiftLeft_eq]
  omega

theorem offsetReg_toNat (v : Word) (sh : BitVec 4) : (offsetReg v sh).toNat = v.toNat * 2 ^ sh.toNat % 2 ^ 32 := by
  rw [offsetReg, BitVec.toNat_shiftLeft, Nat.shiftLeft_eq]

section
variable (up wb : Bool) (base off : Word)

theorem targetOf_pre : targetOf (.pre up wb) base off = if up then base + off else base - off := rfl

theorem targetOf_post : targetOf (.post up) base off = if up then base + off else base - off := rfl

theorem addrOf_pre : addrOf (.pre up wb) base off = targetOf (.pre up wb) base off := rfl

theorem addrOf_post : addrOf (.post up) base off = base := rfl

theorem writesBack_pre : writesBack (.pre up wb) = wb := rfl

theorem writesBack_post : writesBack (.post up) = true := rfl

end

/-! ### The bytes of an access -/

theorem bhwdBytes_le (sz : Bhwd) : bhwdBytes sz ≤ 8 := by
  cases sz <;> decide

/-- Every byte of a loaded value: those of the access, and 0 above them (R273). -/
theorem field_memRead_eq (s : State) (addr : Word) {n : Nat} (hn : n ≤ 8) (k : Nat) :
    field 8 k (s.memRead addr n) = if k < n then readByte s.mem (byteAddr s.bigend addr n k) else 0 := by
  split
  · next hk => exact field_memRead s addr hn hk
  · next hk => exact field_memRead_of_ge s addr (Nat.le_of_not_lt hk)

/-! ### Accesses that complete (R280) -/

/-- The last step of a load or store: the base by the mode, then the pc. -/
theorem complete_writeBack (u : State) (am : AddrMode) (rn : CoreReg) (target : Word) :
    complete (u.writeBack am rn target) =
      .next { u with x := if writesBack am then u.x.set rn target else u.x, pc := u.pc + 4 } := by
  unfold State.writeBack
  split <;> rfl

section
variable {i : Instr} {s : State} {am : AddrMode} {n : Nat} {rn : CoreReg} {off : Word}

theorem exec_loads_data {d : DReg} (hexec : exec i s = loadData s am n d rn off) (hn : n ≤ 8)
    (ha : (addrOf am (s.readX rn) off).toNat % n = 0)
    (hr : s.refuses (addrOf am (s.readX rn) off) n .read = false) :
    ∃ r : DWord, (∀ k, k < 8 → field 8 k r =
        if k < n then readByte s.mem (byteAddr s.bigend (addrOf am (s.readX rn) off) n k) else 0) ∧
      exec i s = .next { s with
        wR := s.wR.set d r, mup := true,
        x := if writesBack am then s.x.set rn (targetOf am (s.readX rn) off) else s.x, pc := s.pc + 4 } :=
  ⟨_, fun k _ => field_memRead_eq s _ hn k, hexec.trans ((checkedAccess_ok ha hr).trans (complete_writeBack _ am rn _))⟩

/-- The control register takes the word that its four bytes make, by its own write rule (R275). -/
theorem exec_loads_ctrl {cx : CtrlReg} (hexec : exec i s = loadCtrl s am cx rn off)
    (ha : (addrOf am (s.readX rn) off).toNat % 4 = 0)
    (hr : s.refuses (addrOf am (s.readX rn) off) 4 .read = false) :
    ∃ v : Word, (∀ k, k < 4 →
        field 8 k v = readByte s.mem (byteAddr s.bigend (addrOf am (s.readX rn) off) 4 k)) ∧
      exec i s = .next { s.writeCtrl cx v with
        x := if writesBack am then s.x.set rn (targetOf am (s.readX rn) off) else s.x, pc := s.pc + 4 } := by
  refine ⟨(s.memRead (addrOf am (s.readX rn) off) 4).setWidth 32, fun k hk => ?_, ?_⟩
  · rw [field_setWidth _ (by omega), field_memRead s _ (by decide) hk]
  · rw [hexec, loadCtrl, checkedAccess_ok ha hr, complete_writeBack, writeCtrl_x, writeCtrl_pc]

/-- A store from a state whose counter of free values may have moved: the bytes of the access, every other byte and the
rest of the state (R276 to R278). -/
theorem exec_stores {p : Nat} {v : DWord} (hexec : exec i s = storeValue s { s with draws := p } am n v rn off)
    (hn : n ≤ 8) (hm : Memory.wf s.mem = true) (ha : (addrOf am (s.readX rn) off).toNat % n = 0)
    (hr : s.refuses (addrOf am (s.readX rn) off) n .write = false) :
    ∃ mem : Memory,
      (∀ k, k < n → readByte mem (byteAddr s.bigend (addrOf am (s.readX rn) off) n k) = field 8 k v) ∧
      (∀ a, (∀ k, k < n → a ≠ byteAddr s.bigend (addrOf am (s.readX rn) off) n k) →
        readByte mem a = readByte s.mem a) ∧
      exec i s = .next { s with
        mem := mem, code := s.code.filter (fun w => !overlaps (addrOf am (s.readX rn) off) n w), draws := p,
        x := if writesBack am then s.x.set rn (targetOf am (s.readX rn) off) else s.x, pc := s.pc + 4 } :=
  ⟨_, fun _ hk => readByte_memWrite hm hn v hk, fun _ h => readByte_memWrite_ne hm v h,
    hexec.trans ((checkedAccess_ok ha hr).trans (complete_writeBack _ am rn _))⟩

end

end Sys2Proof.Machine
end

section
/-! Statements of spec/46_load_store.md, settled from the lemmas above. -/

namespace Sys2Proof.Machine

/-- Settles O44: the offsets by their values, the modes by the two address equations of each kind. -/
theorem effectiveAddress : Obligations.EffectiveAddress := by
  refine ⟨fun off => ⟨offsetImm_scaled_toNat off, offsetImm_unscaled_toNat off⟩, offsetReg_toNat, ?_, ?_⟩
  · intro base off
    simp [addrOf_pre, addrOf_post, targetOf_pre, targetOf_post]
  · intro up
    exact ⟨writesBack_post up, writesBack_pre up true, writesBack_pre up false⟩

/-- Settles O45: both forms are a load of at most 8 bytes into wRd. -/
theorem dataLoads : Obligations.DataLoads := by
  intro c sz am d rn rm off sh s loads
  exact ⟨fun hen => exec_loads_data (exec_wldr_enabled hen sz am d rn off) (bhwdBytes_le sz),
    fun hacc => exec_loads_data (exec_wldrd_enabled hacc am d rn rm sh) (Nat.le_refl 8)⟩

/-- Settles O46: the word loaded goes through the write rule of TMCR. -/
theorem controlLoad : Obligations.ControlLoad := by
  intro am cx rn off s hacc addr ha hr
  obtain ⟨v, hbytes, hexec⟩ := exec_loads_ctrl (exec_wldrw_enabled hacc am cx rn off) ha hr
  exact ⟨v, s.writeCtrl cx v, hbytes, ctrlWritten_writeCtrl s cx v, hexec⟩

/-- Settles O47: both forms are a store of the low bytes of wRm that takes no free value. -/
theorem dataStores : Obligations.DataStores := by
  intro c sz am m rn rm off sh s hm stores
  exact ⟨fun hen => exec_stores (exec_wstr_enabled hen sz am m rn off) (bhwdBytes_le sz) hm,
    fun hacc => exec_stores (exec_wstrd_enabled hacc am m rn rm sh) (Nat.le_refl 8) hm⟩

/-- Settles O48: a store of the word that TMRC reads, which moves at most the counter of free values. -/
theorem controlStore : Obligations.ControlStore := by
  intro am cx rn off s hm hacc addr ha hr place
  obtain ⟨p, hread⟩ := afterReadCtrl_eq s cx
  have hstore := exec_wstrw_enabled hacc am cx rn off
  rw [hread] at hstore
  obtain ⟨mem, hbytes, hothers, hexec⟩ := exec_stores hstore (by decide) hm ha hr
  refine ⟨s.readCtrl cx, mem, p, ctrlReads_readCtrl s cx, fun k hk => ?_, hothers, hexec⟩
  rw [← field_setWidth (m := 64) (s.readCtrl cx) (by omega)]
  exact hbytes k hk

end Sys2Proof.Machine
end

section
/-! SUPPORT. What the rule of an instruction can answer inside the envelope: a load or store is one checked access, and
every other instruction completes (spec/30_encoding.md R107, spec/46_load_store.md R280). -/

namespace Sys2Proof.Machine

/-! ### The rule of an instruction -/

section
variable {i : Instr}

/-- Nothing but the envelope stops an instruction that is no load or store (spec/60_exceptions.md R301). -/
theorem exec_eq_envelope_complete (hi : isLoadOrStore i = false) (s : State) :
    ∃ u, exec i s = envelopeOfWord (encode i) s (complete u) := by
  cases i with
  | wldr | wldrd | wldrw | wstr | wstrd | wstrw => cases hi
  | wsraI | wsllI | wsrlI | wrorI => exact ⟨_, unconditional_eq_envelope rfl⟩
  | _ => exact ⟨_, conditional_eq_envelope (condOf_condBits _)⟩

/-- A load or store completes behind the checks of its one access (spec/46_load_store.md R280). -/
theorem exec_eq_envelope_access (hi : isLoadOrStore i = true) (s : State) :
    ∃ addr n dir u, exec i s = envelopeOfWord (encode i) s (checkedAccess s addr n dir (complete u)) := by
  cases i with
  | wldr | wstr => exact ⟨_, _, _, _, conditional_eq_envelope (condOf_condBits _)⟩
  | wldrd | wldrw | wstrd | wstrw => exact ⟨_, _, _, _, unconditional_eq_envelope rfl⟩
  | _ => cases hi

end

/-! ### What the checks add to the answer of a rule -/

section
variable {w : Word} {s : State} {k : Result} {r : Refusal}

theorem complete_ne_refused (u : State) : complete u ≠ .refused r := by
  simp [complete]

/-- The alignment and refusal checks answer faults only (spec/60_exceptions.md R303, R304). -/
theorem checkedAccess_ne_refused {addr : Word} {n : Nat} {dir : Direction} (hk : k ≠ .refused r) :
    checkedAccess s addr n dir k ≠ .refused r := by
  by_cases ha : addr.toNat % n = 0
  · cases hr : s.refuses addr n dir with
    | true => simp [checkedAccess_refused ha hr]
    | false => rwa [checkedAccess_ok ha hr]
  · cases ht : s.alignTrap with
    | true => simp [checkedAccess_trapped ha ht]
    | false => simp [checkedAccess_untrapped ha ht]

/-- The envelope skips, raises, or answers what the rule answers (spec/60_exceptions.md R307). -/
theorem envelopeOfWord_ne_refused (hk : k ≠ .refused r) : envelopeOfWord w s k ≠ .refused r := by
  by_cases hc : WordPasses w s
  · cases ha : accessOk s with
    | true => rwa [envelopeOfWord_passes hc ha]
    | false => simp [envelopeOfWord_disabled hc ha]
  · simp [envelopeOfWord_skips hc]

/-- Enabled, the envelope either skips or lets the rule complete. -/
theorem envelopeOfWord_complete (ha : accessOk s = true) (u : State) :
    ∃ t, envelopeOfWord w s (complete u) = .next t := by
  by_cases hc : WordPasses w s
  · exact ⟨u.advance, envelopeOfWord_passes hc ha⟩
  · exact ⟨_, envelopeOfWord_skips hc⟩

end

theorem exec_ne_refused (i : Instr) (s : State) (r : Refusal) : exec i s ≠ .refused r := by
  cases hi : isLoadOrStore i with
  | false =>
    obtain ⟨u, hexec⟩ := exec_eq_envelope_complete hi s
    rw [hexec]
    exact envelopeOfWord_ne_refused (complete_ne_refused u)
  | true =>
    obtain ⟨addr, n, dir, u, hexec⟩ := exec_eq_envelope_access hi s
    rw [hexec]
    exact envelopeOfWord_ne_refused (checkedAccess_ne_refused (complete_ne_refused u))

end Sys2Proof.Machine
end

section
/-! Statements of spec/60_exceptions.md, settled from the lemmas above. -/

namespace Sys2Proof.Machine

/-- Settles O13: the rule of an instruction that is no load or store only completes, so the envelope's access check is all
that could raise. -/
theorem enabledInstructionsComplete : Obligations.EnabledInstructionsComplete := by
  refine ⟨exec_ne_refused, fun i s hi ha => ?_⟩
  obtain ⟨u, hexec⟩ := exec_eq_envelope_complete hi s
  rw [hexec]
  exact envelopeOfWord_complete ha u

end Sys2Proof.Machine
end
